-- ==== Sys2Proof/Word.lean ====
section
/-! DEFINITION. The two word sizes that cross the block's interfaces.

All values are unsigned and bit 0 is the least significant bit (00_scope.md R5), so bit vectors with their own
arithmetic are used as they are.  Nothing in this block is sign-extended (00_scope.md R6). -/

namespace Sys2Proof

/-- One register access, one address byte, one result code: 8 bits (20_memory.md R41). -/
abbrev Byte := BitVec 8

/-- One command word (30_encoding.md R60). -/
abbrev Cmd := BitVec 64

end Sys2Proof
end

