-- ==== Sys2Proof/Config.lean ====
section
/-! DEFINITION. The implementation parameters of 00_scope.md R1 and the model's free values.

The rows R1 marks OPEN are arguments: `Params` holds them as plain data, every theorem about a state speaks of every
value of them, and `Params.legal` is the column "legal values".  No default of R1 is written here (R3).  The rows R1
marks FIXED are the definitions `fMax`, `prescalers`, `brLimit`. -/

namespace Sys2Proof.Config

/-- One entry of the configuration table, 40 bits (20_memory.md R54). -/
structure CfgEntry where
  bus  : BitVec 8
  freq : BitVec 32
deriving DecidableEq, Repr, Inhabited

/-- The positions of the five named bits of the control register (R1; 10_state.md R22). -/
structure ControlBits where
  intf  : Fin 8
  ackc  : Fin 8
  start : Fin 8
  stop  : Fin 8
  en    : Fin 8
deriving DecidableEq, Repr, Inhabited

/-- R2: the five positions are pairwise distinct. -/
def ControlBits.distinct (b : ControlBits) : Bool :=
  b.intf ≠ b.ackc && b.intf ≠ b.start && b.intf ≠ b.stop && b.intf ≠ b.en && b.ackc ≠ b.start && b.ackc ≠ b.stop &&
    b.ackc ≠ b.en && b.start ≠ b.stop && b.start ≠ b.en && b.stop ≠ b.en

/-- The six status codes (R1).  They need not be distinct (R2). -/
structure StatusCodes where
  start      : BitVec 5
  rstart     : BitVec 5
  slaWAck    : BitVec 5
  dataTxAck  : BitVec 5
  slaRAck    : BitVec 5
  dataRxNack : BitVec 5
deriving DecidableEq, Repr, Inhabited

/-- The OPEN parameters of R1 and the input `CFG`.  `loc` is not among them: the register space is indexed by
(bus, kind) directly, which 20_memory.md R40 allows (log entry 5). -/
structure Params where
  /-- `N_BUS`. -/
  nBus : Nat
  /-- `T_POLL`. -/
  tPoll : Nat
  /-- `F_SYS`. -/
  fSys : BitVec 32
  /-- `INTF_BIT`, `ACKC_BIT`, `START_BIT`, `STOP_BIT`, `EN_BIT`. -/
  bits : ControlBits
  /-- `NACK_LEVEL`. -/
  nackLevel : Bool
  /-- `SC_START` to `SC_DATA_RX_NACK`. -/
  codes : StatusCodes
  /-- `CFG`, the read-only configuration table. -/
  cfg : List CfgEntry
deriving DecidableEq, Repr, Inhabited

/-- The legal values of R1, the distinctness of R2, and the table's length of 20_memory.md R54. -/
def Params.legal (p : Params) : Bool :=
  1 ≤ p.nBus && p.nBus ≤ 256 && 1 ≤ p.tPoll && p.tPoll ≤ 4294967295 && p.bits.distinct && p.cfg.length == p.nBus

/-- `F_MAX`: the hardware ceiling, 400 kHz (R1, FIXED). -/
def fMax : Nat := 400000

/-- `PRESCALERS` (R1, FIXED). -/
def prescalers : List Nat := [1, 4, 16, 64]

/-- `BR_LIMIT` (R1, FIXED). -/
def brLimit : Nat := 256

/-! ### The parameters of the machine that comes out of reset

R1 gives the OPEN parameters no value, so the machine `State.reset` has values nothing in Lean can look at
(log entry 1). -/

/-- `N_BUS - 1`: any of 0 to 255. -/
opaque nBusLessOne : Fin 256
/-- `T_POLL - 1`: any of 0 to 2^32 - 2. -/
opaque tPollLessOne : Fin 4294967295
/-- `F_SYS`. -/
opaque fSys : BitVec 32
/-- Five bit positions, not yet known to be distinct. -/
opaque anyBits : ControlBits
/-- `NACK_LEVEL`. -/
opaque nackLevel : Bool
/-- The status codes. -/
opaque codes : StatusCodes
/-- Entry `i` of `CFG`. -/
opaque cfgEntry : Nat → CfgEntry

/-- Any five distinct positions: `anyBits` where those are distinct.  The other branch only makes the definition
total; every legal layout is a value of the first (R2). -/
def bits : ControlBits := if anyBits.distinct then anyBits else ⟨0, 1, 2, 3, 4⟩

/-- Parameters of which nothing is known but that they are legal. -/
def params : Params where
  nBus := nBusLessOne.val + 1
  tPoll := tPollLessOne.val + 1
  fSys := fSys
  bits := bits
  nackLevel := nackLevel
  codes := codes
  cfg := (List.range (nBusLessOne.val + 1)).map cfgEntry

/-! ### Free values -/

/-- The answer to a register read about which the environment's script says nothing (20_memory.md R43: any of the
256 values); the argument is the state's counter `free` (log entry 3). -/
opaque freeRead : Nat → Byte

/-- What `rsp_code` holds while a command runs (10_state.md R18: unspecified while `rsp_valid = 0`); the argument is
the state's counter `free` (log entry 10). -/
opaque freeRspCode : Nat → Byte

/-- What `rsp_dv` holds while a command runs (10_state.md R18; log entry 10). -/
opaque freeRspDv : Nat → Bool

/-- What `rsp_data` holds while a command runs (10_state.md R18; log entry 10) and after a response with `rsp_dv = 0`
(30_encoding.md R70: unspecified); the argument is the state's counter `free` (log entry 4). -/
opaque freeRspData : Nat → Byte

end Sys2Proof.Config
end

