-- ==== Sys2Proof/Syntax.lean ====
section
/-! DEFINITION. The four commands, one constructor per row of spec/opcode_table.json.

Operands have exactly the widths of 30_encoding.md R63 to R66; every value of an operand field is legal (R69). -/

namespace Sys2Proof

/-- The block's instructions: the commands a host issues one at a time (00_scope.md section 1). -/
inductive Instr where
  /-- `INIT cfgp` (R63, R140): configure and enable every bus of the configuration table. -/
  | init (cfgp : BitVec 1)
  /-- `SETSCL bus, freq` (R64, R80): set one bus's SCL frequency. -/
  | setScl (bus : BitVec 8) (freq : BitVec 32)
  /-- `SENDBYTE bus, dev, reg, data` (R65, R114): write one byte to a register of a device. -/
  | sendByte (bus dev reg data : BitVec 8)
  /-- `RECEIVEBYTE bus, dev, reg` (R66, R115): read one byte from a register of a device. -/
  | receiveByte (bus dev reg : BitVec 8)
deriving DecidableEq, Repr

end Sys2Proof
end

