-- ==== Sys2Proof/WellFormed.lean ====
section
/-! DEFINITION. Which commands are well formed.

An `Instr` carries its operands at the widths of the formats, and no operand value makes a word illegal
(30_encoding.md R69), so every `Instr` is well formed.  What can be ill formed is a command as a host WRITES it
(R71): a mnemonic and a list of numbers, which may not fit the format's fields. -/

namespace Sys2Proof

/-- 30_encoding.md R69: a value of an operand field is never what makes a word illegal. -/
def Instr.wellFormed : Instr → Bool
  | .init _ => true
  | .setScl _ _ => true
  | .sendByte _ _ _ _ => true
  | .receiveByte _ _ _ => true

/-- A command in the written syntax of 30_encoding.md R71: a mnemonic and its operands, plain numbers. -/
structure Written where
  mnemonic : String
  operands : List Nat
deriving DecidableEq, Repr

/-- Does the number fit an unsigned field of `w` bits? -/
def fits (w n : Nat) : Bool := n < 2 ^ w

/-- The command a written line encodes (R71), or `none` where it is ill formed: an unknown mnemonic, a wrong number
of operands, or an operand that does not fit its field (R63 to R66). -/
def Written.assemble (c : Written) : Option Instr :=
  match c.mnemonic, c.operands with
  | "INIT", [cfgp] => if fits 1 cfgp then some (.init (BitVec.ofNat 1 cfgp)) else none
  | "SETSCL", [bus, freq] =>
    if fits 8 bus && fits 32 freq then some (.setScl (BitVec.ofNat 8 bus) (BitVec.ofNat 32 freq)) else none
  | "SENDBYTE", [bus, dev, reg, data] =>
    if fits 8 bus && fits 8 dev && fits 8 reg && fits 8 data then
      some (.sendByte (BitVec.ofNat 8 bus) (BitVec.ofNat 8 dev) (BitVec.ofNat 8 reg) (BitVec.ofNat 8 data))
    else none
  | "RECEIVEBYTE", [bus, dev, reg] =>
    if fits 8 bus && fits 8 dev && fits 8 reg then
      some (.receiveByte (BitVec.ofNat 8 bus) (BitVec.ofNat 8 dev) (BitVec.ofNat 8 reg))
    else none
  | _, _ => none

/-- A written command is well formed when it encodes a command. -/
def Written.wellFormed (c : Written) : Bool := c.assemble.isSome

end Sys2Proof
end

