-- ==== Sys2Proof/Decode.lean ====
section
/-! DEFINITION. Decoding a command word, and encoding a command (30_encoding.md).

`decode` is total on all 2^64 words and rejects by name; `encode` is written from the formats R63 to R66; `rows` is
the opcode map R67 as masks and matches.  That `decode` accepts exactly the words that match a row is a statement, not
a definition. -/

namespace Sys2Proof

/-- Why a word is illegal (R69). -/
inductive Illegal where
  /-- `op` is 0x0 or 0x5 to 0xF. -/
  | unassignedOp
  /-- `rsv` is not 0. -/
  | reservedNibble
  /-- A bit the format marks 0 is 1. -/
  | reservedBit
deriving DecidableEq, Repr

/-- Bits `lo + len - 1` down to `lo` of a word (R5). -/
def field (w : Cmd) (lo len : Nat) : BitVec len := w.extractLsb' lo len

/-- `op = cmd[63:60]` (R62). -/
def opField (w : Cmd) : BitVec 4 := field w 60 4
/-- `rsv = cmd[59:56]` (R62). -/
def rsvField (w : Cmd) : BitVec 4 := field w 56 4
/-- `cmd[55:48]`, `bus` in formats C, T, R. -/
def busField (w : Cmd) : BitVec 8 := field w 48 8
/-- `cmd[47:40]`, `dev` in formats T, R. -/
def devField (w : Cmd) : BitVec 8 := field w 40 8
/-- `cmd[39:32]`, `reg` in formats T, R. -/
def regField (w : Cmd) : BitVec 8 := field w 32 8
/-- `cmd[31:24]`, `data` in format T. -/
def dataField (w : Cmd) : BitVec 8 := field w 24 8
/-- `cmd[31:0]`, `freq` in format C. -/
def freqField (w : Cmd) : BitVec 32 := field w 0 32
/-- `cmd[0]`, `cfgp` in format I. -/
def cfgpField (w : Cmd) : BitVec 1 := field w 0 1

/-- The command of a word, or why it is none (R62 to R69). -/
def decode (w : Cmd) : Except Illegal Instr :=
  if rsvField w ≠ 0#4 then .error .reservedNibble
  else if opField w = 0x1#4 then
    if field w 1 55 = 0#55 then .ok (.init (cfgpField w)) else .error .reservedBit
  else if opField w = 0x2#4 then
    if field w 32 16 = 0#16 then .ok (.setScl (busField w) (freqField w)) else .error .reservedBit
  else if opField w = 0x3#4 then
    if field w 0 24 = 0#24 then .ok (.sendByte (busField w) (devField w) (regField w) (dataField w))
    else .error .reservedBit
  else if opField w = 0x4#4 then
    if field w 0 32 = 0#32 then .ok (.receiveByte (busField w) (devField w) (regField w)) else .error .reservedBit
  else .error .unassignedOp

/-- A field's value at its place, lowest bit at `lo`. -/
def place {n : Nat} (v : BitVec n) (lo : Nat) : Cmd := v.setWidth 64 <<< lo

/-- The word of a command: `op` and the operand fields of its format at their places, every other bit 0 (R62 to
R66). -/
def encode : Instr → Cmd
  | .init cfgp => place 0x1#4 60 ||| place cfgp 0
  | .setScl bus freq => place 0x2#4 60 ||| place bus 48 ||| place freq 0
  | .sendByte bus dev reg data =>
    place 0x3#4 60 ||| place bus 48 ||| place dev 40 ||| place reg 32 ||| place data 24
  | .receiveByte bus dev reg => place 0x4#4 60 ||| place bus 48 ||| place dev 40 ||| place reg 32

/-- One row of the opcode map (R67). -/
structure Row where
  mnemonic : String
  mask  : Cmd
  pat   : Cmd
deriving DecidableEq, Repr

/-- The opcode map (R67), in the table's order. -/
def rows : List Row :=
  [⟨"INIT", 0xFFFFFFFFFFFFFFFE#64, 0x1000000000000000#64⟩,
   ⟨"SETSCL", 0xFF00FFFF00000000#64, 0x2000000000000000#64⟩,
   ⟨"SENDBYTE", 0xFF00000000FFFFFF#64, 0x3000000000000000#64⟩,
   ⟨"RECEIVEBYTE", 0xFF000000FFFFFFFF#64, 0x4000000000000000#64⟩]

/-- `(cmd & mask) == match` (R67). -/
def Row.matches (r : Row) (w : Cmd) : Bool := w &&& r.mask == r.pat

/-- The row a command belongs to (R67). -/
def Instr.mnemonic : Instr → String
  | .init _ => "INIT"
  | .setScl _ _ => "SETSCL"
  | .sendByte _ _ _ _ => "SENDBYTE"
  | .receiveByte _ _ _ => "RECEIVEBYTE"

/-- The command word whose low `nbits` bits are those of `w` and whose other bits are 0. -/
def tableWord (nbits w : Nat) : Cmd := BitVec.ofNat 64 (w % 2 ^ nbits)

/-- What the decoder reads from a word of the opcode table.  A command is one 64-bit word, so there is nothing to lay
out in bytes (20_memory.md R58). -/
def decodeTableWord (nbits w : Nat) : Option Instr :=
  match decode (tableWord nbits w) with
  | .ok i => some i
  | .error _ => none

end Sys2Proof
end

