-- ==== Sys2Proof/Machine/State.lean ====
section
/-! DEFINITION. The machine's state as plain data, its inputs, and the state after reset (10_state.md).

`State` holds four groups of fields: what the spec calls sequencer state (R10 (a)), the device registers (R10 (b)),
the inputs of the other two agents (R4) as scripts of plain data, and three fields of the model's own: the parameters
the state is read under, the trace of events, and a counter for free values. -/

namespace Sys2Proof.Machine

/-- The four registers of a bus's register set (R20). -/
inductive Kind where
  | ctrl | br | stat | data
deriving DecidableEq, Repr

/-- An event: one register read or one register write by the sequencer (00_scope.md R7). -/
inductive Event where
  /-- `RegRead(bus, kind)` returned `value`. -/
  | read (bus : BitVec 8) (kind : Kind) (value : Byte)
  /-- `RegWrite(bus, kind, value)`. -/
  | write (bus : BitVec 8) (kind : Kind) (value : Byte)
deriving DecidableEq, Repr

/-- Which event of a micro-operation comes next (R13). -/
inductive Sub where
  /-- The micro-operation has not begun. -/
  | first
  /-- `RMW`: the write event is next. `POLL`: the status read of this iteration is next. -/
  | second
  /-- `POLL`: the control read of a further iteration is next. -/
  | again
deriving DecidableEq, Repr

/-- The micro-program counter (R13): `IDLE`, or the index of a micro-operation and the event that comes next.  The
iteration count and the table index stand in the latches `cnt` and `idx`. -/
inductive Upc where
  | idle
  | pos (op : Nat) (sub : Sub)
deriving DecidableEq, Repr

/-- What the other agents do at one point where they may move, the moment before an event (20_memory.md R47). -/
structure Move where
  /-- The environment's changes of device registers, in order: location and new content. -/
  cells : List Host.Cell
  /-- A word the host presents on the command port while the sequencer is busy (30_encoding.md R61). -/
  offered : Option Cmd
deriving DecidableEq, Repr

/-- What the host does while the sequencer is idle (00_scope.md R4). -/
inductive HostAct where
  /-- It presents a command word (30_encoding.md R60). -/
  | present (w : Cmd)
  /-- It asserts reset (70_reset_and_hazards.md R170). -/
  | reset
deriving DecidableEq, Repr

/-- The contents of the device registers that are known, by location, addresses strictly rising (`Memory.wf`). -/
abbrev Memory := List Host.Cell

/-- Why a step stops. -/
inductive Fault where
  /-- Raised by `step` alone, on a state whose `upc` is no position of the command in flight or whose bus is out of
  range there.  No run reaches such a state, and the spec gives it no step.  Safe. -/
  | strayPosition
deriving DecidableEq, Repr

/-- Why an instruction has no meaning. -/
inductive Refusal where
  /-- Raised by `exec` alone, for an instruction that has no meaning yet; no arm raises it in this model.  Safe. -/
  | notModelled (mnemonic : String)
deriving DecidableEq, Repr

structure State where
  /-- `upc` (R13). -/
  upc : Upc
  /-- The operand latches (R12). -/
  opL   : BitVec 4
  busL  : BitVec 8
  devL  : BitVec 8
  regL  : BitVec 8
  datL  : BitVec 8
  freqL : BitVec 32
  cfgpL : BitVec 1
  /-- The scratch latches (R16). -/
  tmp   : BitVec 8
  doneL : Bool
  cnt   : BitVec 32
  idx   : BitVec 9
  psL   : BitVec 2
  brL   : BitVec 8
  /-- The response registers (R18). -/
  rspValid : Bool
  rspCode  : BitVec 8
  rspDv    : Bool
  rspData  : BitVec 8
  /-- The device registers (R20), as far as anything is known of them. -/
  dev : Memory
  /-- The host's coming actions at an idle sequencer, first first. -/
  host : List HostAct
  /-- The other agents' coming moves, one before each event, first first. -/
  env : List Move
  /-- The reset line while a command runs, one value before each micro-operation and each event of one, first first
  (70_reset_and_hazards.md R172); past the end reset is not asserted. -/
  resetLine : List Bool
  /-- The parameters (00_scope.md R1), which nothing changes (R27). -/
  par : Config.Params
  /-- Every event so far, oldest first (00_scope.md R7). -/
  trace : List Event
  /-- How many free values have been used. -/
  free : Nat
deriving DecidableEq, Repr

/-- The state after reset (70_reset_and_hazards.md R170, R171): idle, no response pending, no event made.  R171 gives
no value for the other latches; 0 is the model's choice (log entry 6).  Of the device registers nothing is known
(R174). -/
def State.reset : State where
  upc := .idle
  opL := 0#4
  busL := 0#8
  devL := 0#8
  regL := 0#8
  datL := 0#8
  freqL := 0#32
  cfgpL := 0#1
  tmp := 0#8
  doneL := false
  cnt := 0#32
  idx := 0#9
  psL := 0#2
  brL := 0#8
  rspValid := false
  rspCode := 0#8
  rspDv := false
  rspData := 0#8
  dev := []
  host := []
  env := []
  resetLine := []
  par := Config.params
  trace := []
  free := 0

end Sys2Proof.Machine
end

