-- ==== Sys2Proof/Machine/Ops.lean ====
section
/-! DEFINITION. The named operations: device registers, events, acceptance, the response and the abort, reset. -/

namespace Sys2Proof.Machine

/-! ### Device registers -/

/-- The content known of a location; `none` where nothing is known of it (log entry 3). -/
def Memory.get? : Memory → Nat → Option Byte
  | [], _ => none
  | c :: rest, a => if c.1 = a then some c.2 else Memory.get? rest a

/-- Record the content of a location, keeping the locations strictly rising. -/
def Memory.set : Memory → Nat → Byte → Memory
  | [], a, v => [(a, v)]
  | c :: rest, a, v =>
    if a < c.1 then (a, v) :: c :: rest
    else if a = c.1 then (a, v) :: rest
    else c :: Memory.set rest a v

/-- The canonical form: locations strictly rising, so that equal contents are equal lists. -/
def Memory.wf : Memory → Bool
  | [] => true
  | [_] => true
  | c :: d :: rest => c.1 < d.1 && Memory.wf (d :: rest)

/-- The environment's changes at one point, those that name a location below `limit`. -/
def Memory.apply (limit : Nat) (m : Memory) : List Host.Cell → Memory
  | [] => m
  | c :: rest => Memory.apply limit (if c.1 < limit then Memory.set m c.1 c.2 else m) rest

/-- Every known location is below `limit`. -/
def Memory.within (limit : Nat) (m : Memory) : Bool := m.all fun c => c.1 < limit

/-- A kind's place in its register set. -/
def Kind.index : Kind → Nat
  | .ctrl => 0
  | .br => 1
  | .stat => 2
  | .data => 3

/-- The location of a register: the register space is indexed by (bus, kind), as 20_memory.md R40 allows
(log entry 5). -/
def loc (bus : BitVec 8) (k : Kind) : Nat := 4 * bus.toNat + k.index

/-- How many locations the register space has (20_memory.md R40). -/
def State.locations (s : State) : Nat := 4 * s.par.nBus

/-! ### Events -/

/-- `RegRead(bus, k)` (00_scope.md R6): the value, and the state after the event.  The environment's script decides
the value; where it says nothing of the location, the value is free (20_memory.md R43; log entry 3). -/
def regRead (bus : BitVec 8) (k : Kind) (s : State) : Byte × State :=
  match s.dev.get? (loc bus k) with
  | some v => (v, { s with trace := s.trace ++ [.read bus k v] })
  | none =>
    let v := Config.freeRead s.free
    (v, { s with trace := s.trace ++ [.read bus k v], free := s.free + 1 })

/-- `RegWrite(bus, k, v)` (00_scope.md R6).  The value is delivered to the environment, whose next move decides what
the register then holds (10_state.md R21; log entry 2). -/
def regWrite (bus : BitVec 8) (k : Kind) (v : Byte) (s : State) : State :=
  { s with dev := s.dev.set (loc bus k) v, trace := s.trace ++ [.write bus k v] }

/-- Reset (70_reset_and_hazards.md R170 to R173): every piece of sequencer state as after reset; the device, the other
agents' scripts and what has been observed stay. -/
def resetInput (s : State) : State :=
  { State.reset with
    dev := s.dev, host := s.host, env := s.env, resetLine := s.resetLine, par := s.par, trace := s.trace,
    free := s.free }

/-- The other agents' move before an event (20_memory.md R47): the environment changes what it will.  Past the end of
its script nothing is known of any register any more (log entry 3). -/
def envMove (s : State) : State :=
  match s.env with
  | [] => { s with dev := [] }
  | m :: rest => { s with env := rest, dev := Memory.apply s.locations s.dev m.cells }

/-- One event of the sequencer with the move before it: `act` is the event. -/
def event (act : State → State) (s : State) : State := act (envMove s)

/-- Is reset asserted where the command in flight stands? (70_reset_and_hazards.md R172) -/
def State.resetNow (s : State) : Bool := s.resetLine.headD false

/-- The reset line has been looked at. -/
def sampled (s : State) : State := { s with resetLine := s.resetLine.tail }

/-! ### Result codes (60_exceptions.md R150) -/

/-- 0x00, OutOfRange. -/
def codeOutOfRange : Byte := 0x00#8
/-- 0x01, Success. -/
def codeSuccess : Byte := 0x01#8
/-- 0x02, StartError. -/
def codeStartError : Byte := 0x02#8
/-- 0x03, AddressError. -/
def codeAddressError : Byte := 0x03#8
/-- 0x04, RegisterError or DataError. -/
def codeRegisterError : Byte := 0x04#8
/-- 0x05, ReceiveError. -/
def codeReceiveError : Byte := 0x05#8
/-- 0x10, InvalidFrequency. -/
def codeInvalidFrequency : Byte := 0x10#8
/-- 0x11, NoPrescalerFits. -/
def codeNoPrescalerFits : Byte := 0x11#8
/-- 0x12, NullConfig. -/
def codeNullConfig : Byte := 0x12#8
/-- 0xFF, IllegalCommand. -/
def codeIllegalCommand : Byte := 0xFF#8

/-! ### Acceptance, response, abort -/

/-- Acceptance of a command word (30_encoding.md R60): every operand latch takes its slice of the word (10_state.md
R12), `rsp_valid` is cleared, `upc` is the first micro-operation.  While `rsp_valid` is 0 the other response registers
are unspecified (10_state.md R18), which is three free values (log entry 10). -/
def accept (w : Cmd) (s : State) : State :=
  { s with
    opL := opField w, busL := busField w, devL := devField w, regL := regField w, datL := dataField w,
    freqL := freqField w, cfgpL := cfgpField w, rspValid := false, upc := .pos 0 .first,
    rspCode := Config.freeRspCode s.free, rspDv := Config.freeRspDv s.free, rspData := Config.freeRspData s.free,
    free := s.free + 1 }

/-- `respond(code)` (00_scope.md R6): `rsp_data` becomes unspecified, which is a free value (log entry 4). -/
def respond (code : Byte) (s : State) : State :=
  { s with
    rspCode := code, rspDv := false, rspData := Config.freeRspData s.free, free := s.free + 1,
    rspValid := true, upc := .idle }

/-- `respond(code, data)` (00_scope.md R6). -/
def respondData (code data : Byte) (s : State) : State :=
  { s with rspCode := code, rspDv := true, rspData := data, rspValid := true, upc := .idle }

/-- `raise Abort(code)`, what takes the place of an exception (60_exceptions.md R156): nothing is saved, no clean-up
event is made.  There is no return from it (R157). -/
def raiseAbort (code : Byte) (s : State) : State := respond code s

/-- `raise Abort(code)` for a failing entry of `INIT`: the failing index is recorded (60_exceptions.md R156). -/
def raiseAbortAt (code : Byte) (s : State) : State := respondData code (s.idx.truncate 8) s

/-- An illegal word is accepted and answered at once, with no other state change (30_encoding.md R69). -/
def rejectIllegal (s : State) : State := respond codeIllegalCommand s

/-- The response word `rsp[16:0]` (30_encoding.md R70), meaningful while `rspValid`. -/
def State.rspWord (s : State) : BitVec 17 := BitVec.ofBool s.rspDv ++ s.rspCode ++ s.rspData

end Sys2Proof.Machine
end

