-- ==== Sys2Proof/Machine/Operands.lean ====
section
/-! DEFINITION. Operand forms: which bus an access names, what a `WR` writes, which bits an `RMW` changes. -/

namespace Sys2Proof.Machine

/-- `bus < N_BUS`, an unsigned comparison (41_transaction_engine.md R105; 40_clock_configurator.md R81, R89 (b)). -/
def busInRange (p : Config.Params) (bus : BitVec 8) : Bool := bus.toNat < p.nBus

/-- `CfgRead(idx)`, not an event (20_memory.md R54).  Past the end of the table there is no entry. -/
def cfgRead (s : State) : Option Config.CfgEntry := s.par.cfg[s.idx.toNat]?

/-- Whose bus and frequency a micro-operation means. -/
inductive Source where
  /-- The command's operand latches. -/
  | operand
  /-- The configuration entry `INIT` is working on (42_init.md R142). -/
  | entry
deriving DecidableEq, Repr

/-- The bus of an access.  Where `INIT` stands past the table, no access is made and the latch stands in. -/
def Source.bus (src : Source) (s : State) : BitVec 8 :=
  match src with
  | .operand => s.busL
  | .entry => match cfgRead s with
    | some e => e.bus
    | none => s.busL

/-- The requested frequency (40_clock_configurator.md, `SetScl(b, f)`). -/
def Source.freq (src : Source) (s : State) : BitVec 32 :=
  match src with
  | .operand => s.freqL
  | .entry => match cfgRead s with
    | some e => e.freq
    | none => s.freqL

/-- The address byte `((dev << 1) | d) mod 256` (41_transaction_engine.md R119). -/
def addressByte (dev : BitVec 8) (read : Bool) : Byte := (dev <<< 1) ||| (BitVec.ofBool read).zeroExtend 8

/-- What a `WR` writes, computed from latches only (41_transaction_engine.md R101). -/
inductive WrVal where
  /-- The address byte with direction 0 or 1. -/
  | address (read : Bool)
  /-- `reg_l`. -/
  | reg
  /-- `dat_l`. -/
  | dat
  /-- `br_l`. -/
  | bitrate
deriving DecidableEq, Repr

def WrVal.value (v : WrVal) (s : State) : Byte :=
  match v with
  | .address read => addressByte s.devL read
  | .reg => s.regL
  | .dat => s.datL
  | .bitrate => s.brL

/-- The mask of one bit of the control register (00_scope.md R3). -/
def bitMask (i : Fin 8) : Byte := 1#8 <<< i.val

/-- What an `RMW` is for. -/
inductive Update where
  /-- Start phase (41_transaction_engine.md R107). -/
  | start
  /-- Address phase (R108). -/
  | address
  /-- Register-select phase, and payload phase of a write (R109, R110). -/
  | clearDone
  /-- Payload phase of a read (R111). -/
  | nack
  /-- Stop phase (R113). -/
  | stop
  /-- Enable (42_init.md R143). -/
  | enable
  /-- Prescaler select (40_clock_configurator.md R86). -/
  | prescaler
deriving DecidableEq, Repr

/-- The bits an `RMW` writes as 1. -/
def Update.set (u : Update) (s : State) : Byte :=
  let b := s.par.bits
  match u with
  | .start => bitMask b.start ||| bitMask b.intf
  | .address => bitMask b.intf
  | .clearDone => bitMask b.intf
  | .nack => bitMask b.intf ||| (if s.par.nackLevel then bitMask b.ackc else 0#8)
  | .stop => bitMask b.stop ||| bitMask b.intf
  | .enable => bitMask b.en
  | .prescaler => s.psL.zeroExtend 8

/-- The bits an `RMW` writes as 0, but for those it writes as 1. -/
def Update.clr (u : Update) (p : Config.Params) : Byte :=
  match u with
  | .start => 0#8
  | .address => bitMask p.bits.start
  | .clearDone => 0#8
  | .nack => if p.nackLevel then 0#8 else bitMask p.bits.ackc
  | .stop => 0#8
  | .enable => 0#8
  | .prescaler => 0x03#8

/-- `(tmp & ~clr) | set` (41_transaction_engine.md R103). -/
def rmwValue (u : Update) (s : State) : Byte := (s.tmp &&& ~~~ u.clr s.par) ||| u.set s

end Sys2Proof.Machine
end

