-- ==== Sys2Proof/Machine/Bitrate.lean ====
section
/-! DEFINITION. The clock configurator's arithmetic (40_clock_configurator.md R81 to R85, R89): no event. -/

namespace Sys2Proof.Machine

/-- What the configurator's checks and search find. -/
inductive SclResult where
  /-- It returns this failure code. -/
  | fail (code : Byte)
  /-- It goes on to its register writes with this bitrate and this select code. -/
  | found (br : BitVec 8) (ps : BitVec 2)
deriving DecidableEq, Repr

/-- `n = (F_SYS div freq) - 16` as a signed number that does not wrap (R84). -/
def sclNumerator (fSys freq : BitVec 32) : Int := ((fSys.toNat / freq.toNat : Nat) : Int) - 16

/-- `v = n div (2 * prescaler)` (R85), for `n` not negative. -/
def sclCandidate (n : Nat) (prescaler : Nat) : Nat := n / (2 * prescaler)

/-- The prescaler search (R85): the first candidate, in the order of the list, whose value is below the limit; `c` is
the select code of the list's head. -/
def sclSearch (n : Nat) : List Nat → Nat → SclResult
  | [], _ => .fail codeNoPrescalerFits
  | prescaler :: rest, c =>
    if sclCandidate n prescaler < Config.brLimit then
      .found (BitVec.ofNat 8 (sclCandidate n prescaler)) (BitVec.ofNat 2 c)
    else sclSearch n rest (c + 1)

/-- `SetScl` up to its first event (R80): bus range, ceiling, zero frequency, negative numerator, search. -/
def sclCompute (p : Config.Params) (bus : BitVec 8) (freq : BitVec 32) : SclResult :=
  if busInRange p bus then
    if freq.toNat > Config.fMax then .fail codeInvalidFrequency
    else if freq = 0#32 then .fail codeNoPrescalerFits
    else
      let n := sclNumerator p.fSys freq
      if n < 0 then .fail codeNoPrescalerFits
      else sclSearch n.toNat Config.prescalers 0
  else .fail codeOutOfRange

end Sys2Proof.Machine
end

