-- ==== Sys2Proof/Machine/Flags.lean ====
section
/-! DEFINITION. The two device flags the sequencer tests (10_state.md R19) and the codes each phase expects.

The sequencer has no flags of its own.  Both are sampled anew in every poll iteration. -/

namespace Sys2Proof.Machine

/-- The done flag: bit `INTF_BIT` of a control-register value (10_state.md R22). -/
def doneFlag (p : Config.Params) (c : Byte) : Bool := c.getLsbD p.bits.intf.val

/-- The status code: `STAT[7:3]` (10_state.md R24); the low three bits are masked off (41_transaction_engine.md
R104). -/
def statusCode (st : Byte) : BitVec 5 := st.extractLsb' 3 5

/-- What a phase waits for (41_transaction_engine.md R117). -/
inductive Expect where
  | start | slaWAck | slaRAck | dataTxAck | dataRxNack
deriving DecidableEq, Repr

/-- The set `E` of a phase (41_transaction_engine.md R117): both start codes count in every Start phase (R107). -/
def Expect.codes (p : Config.Params) : Expect → List (BitVec 5)
  | .start => [p.codes.start, p.codes.rstart]
  | .slaWAck => [p.codes.slaWAck]
  | .slaRAck => [p.codes.slaRAck]
  | .dataTxAck => [p.codes.dataTxAck]
  | .dataRxNack => [p.codes.dataRxNack]

/-- A poll iteration succeeds: the done flag read in it is 1 and the status code read in it is in `E` (R104). -/
def pollMatches (p : Config.Params) (e : Expect) (done : Bool) (st : Byte) : Bool :=
  done && (e.codes p).contains (statusCode st)

end Sys2Proof.Machine
end

