-- ==== Sys2Proof/Machine/Micro.lean ====
section
/-! DEFINITION. Micro-operations, and the sequencer that runs a micro-program one event at a time.

The first six micro-operations are those of 41_transaction_engine.md R100; the last four are the lines of the
pseudocode of `SETSCL` (40_clock_configurator.md R80) and `INIT` (42_init.md R140) that make no event. -/

namespace Sys2Proof.Machine

inductive MicroOp where
  /-- `CHK code` (R105). -/
  | chk (code : Byte)
  /-- `WR k, v` (R101), on the bus of `src`. -/
  | wr (src : Source) (k : Kind) (v : WrVal)
  /-- `RD k` (R102). -/
  | rd (k : Kind)
  /-- `RMW k, set, clr` (R103), on the bus of `src`. -/
  | rmw (src : Source) (k : Kind) (u : Update)
  /-- `POLL E, code` (R104). -/
  | poll (e : Expect) (code : Byte)
  /-- `RET code` (R106). -/
  | ret (code : Byte)
  /-- `RET code, v` (R106): `v` is the value an earlier `RD` saved. -/
  | retData (code : Byte)
  /-- The checks and the search of `SetScl` (40_clock_configurator.md R80). -/
  | setScl (src : Source)
  /-- The head of `INIT`: the null-table test, and `idx <- 0` (42_init.md R140, R141). -/
  | initStart
  /-- `while idx < N_BUS` (42_init.md R140), with the response after the loop (R145). -/
  | initLoop
  /-- `idx <- idx + 1` (42_init.md R140), back to the loop's test, which is micro-operation 1 of `INIT`. -/
  | initNext
deriving DecidableEq, Repr

/-- On to the next micro-operation (10_state.md R14). -/
def advance (i : Nat) (s : State) : State := { s with upc := .pos (i + 1) .first }

/-- First event of a `POLL` iteration: the control read, which latches the done flag (R104). -/
def pollControl (i : Nat) (s : State) : State :=
  let r := regRead s.busL .ctrl s
  { r.2 with doneL := doneFlag s.par r.1, upc := .pos i .second }

/-- Second event of a `POLL` iteration: the status read, and the end of the iteration (R104). -/
def pollStatus (e : Expect) (code : Byte) (i : Nat) (s : State) : State :=
  let r := regRead s.busL .stat s
  let t := { r.2 with cnt := s.cnt + 1#32 }
  if pollMatches s.par e s.doneL r.1 then advance i t
  else if t.cnt.toNat = s.par.tPoll then raiseAbort code t
  else { t with upc := .pos i .again }

/-- First event of an `RMW` (R103). -/
def rmwRead (src : Source) (k : Kind) (i : Nat) (s : State) : State :=
  let r := regRead (src.bus s) k s
  { r.2 with tmp := r.1, upc := .pos i .second }

/-- Second event of an `RMW` (R103): computed from the value read before, whatever the register holds by now
(10_state.md R17). -/
def rmwWrite (src : Source) (k : Kind) (u : Update) (i : Nat) (s : State) : State :=
  advance i (regWrite (src.bus s) k (rmwValue u s) s)

/-- The event of a `RD` (R102).  The value is kept in `rsp_data` too, across the Stop phase, as the text after R115
allows (log entry 8). -/
def rdRead (k : Kind) (i : Nat) (s : State) : State :=
  let r := regRead s.busL k s
  advance i { r.2 with tmp := r.1, rspData := r.1 }

/-- One micro-operation, or one event of it, at index `i`. -/
def MicroOp.run (op : MicroOp) (i : Nat) (sub : Sub) (s : State) : State :=
  match op with
  | .chk code => if busInRange s.par s.busL then advance i s else raiseAbort code s
  | .wr src k v => event (fun t => advance i (regWrite (src.bus t) k (v.value t) t)) s
  | .rd k => event (rdRead k i) s
  | .rmw src k u => match sub with
    | .second => event (rmwWrite src k u i) s
    | _ => event (rmwRead src k i) s
  | .poll e code => match sub with
    | .first => event (pollControl i) { s with cnt := 0#32 }
    | .again => event (pollControl i) s
    | .second => event (pollStatus e code i) s
  | .ret code => respond code s
  | .retData code => respondData code s.rspData s
  | .setScl src => match sclCompute s.par (src.bus s) (src.freq s) with
    | .found br ps => advance i { s with brL := br, psL := ps }
    | .fail code => match src with
      | .operand => raiseAbort code s
      | .entry => raiseAbortAt code s
  | .initStart => if s.cfgpL = 0#1 then raiseAbort codeNullConfig s else advance i { s with idx := 0#9 }
  | .initLoop => if s.idx.toNat < s.par.nBus then advance i s else respond codeSuccess s
  | .initNext => { s with idx := s.idx + 1#9, upc := .pos 1 .first }

/-- Wherever the command in flight stands, an asserted reset abandons it there (70_reset_and_hazards.md R172); where it
is not asserted, one micro-operation or one event of it.  At an idle sequencer nothing happens. -/
def tick (prog : List MicroOp) (s : State) : State :=
  match s.upc with
  | .idle => s
  | .pos i sub =>
    if s.resetNow then resetInput (sampled s)
    else match prog[i]? with
      | some op => op.run i sub (sampled s)
      | none => sampled s

/-- At most `n` of them, ending when the sequencer is idle. -/
def run (prog : List MicroOp) : Nat → State → State
  | 0, s => s
  | n + 1, s => match s.upc with
    | .idle => s
    | .pos _ _ => run prog n (tick prog s)

/-- More micro-operations and events than any command has (R123; 70_reset_and_hazards.md R185). -/
def commandBound (p : Config.Params) : Nat := 20 + 12 * p.tPoll + 8 * p.nBus

/-- A command presented: at an idle sequencer it is accepted (30_encoding.md R60) and runs to its response; at a busy
one it is neither accepted nor remembered (R61). -/
def issue (prog : List MicroOp) (i : Instr) (s : State) : Host.Outcome State Fault Refusal :=
  match s.upc with
  | .idle => .next (run prog (commandBound s.par) (accept (encode i) s))
  | .pos _ _ => .next s

end Sys2Proof.Machine
end

