-- ==== Sys2Proof/Machine/Clock.lean ====
section
/-! DEFINITION. `SETSCL` (40_clock_configurator.md). -/

namespace Sys2Proof.Machine

/-- `SetScl(b, f)` (40_clock_configurator.md R80, R86): the checks and the search, then bitrate write, status read,
status write. -/
def setSclOps (src : Source) : List MicroOp :=
  [.setScl src, .wr src .br .bitrate, .rmw src .stat .prescaler]

/-- `SETSCL`: `SetScl` on the operands, then `respond(0x01)` (R80, R87). -/
def setSclProgram : List MicroOp := setSclOps .operand ++ [.ret codeSuccess]

/-- `SETSCL bus, freq` (40_clock_configurator.md R80). -/
def execSetScl (bus : BitVec 8) (freq : BitVec 32) (s : State) : Host.Outcome State Fault Refusal :=
  issue setSclProgram (.setScl bus freq) s

end Sys2Proof.Machine
end

