-- ==== Sys2Proof/Machine/Init.lean ====
section
/-! DEFINITION. `INIT` (42_init.md). -/

namespace Sys2Proof.Machine

/-- `INIT` (42_init.md R140): per entry the clock configurator (R142), then the enable update (R143). -/
def initProgram : List MicroOp :=
  [.initStart, .initLoop] ++ setSclOps .entry ++ [.rmw .entry .ctrl .enable, .initNext]

/-- `INIT cfgp` (42_init.md R140). -/
def execInit (cfgp : BitVec 1) (s : State) : Host.Outcome State Fault Refusal :=
  issue initProgram (.init cfgp) s

end Sys2Proof.Machine
end

