-- ==== Sys2Proof/Machine/Transaction.lean ====
section
/-! DEFINITION. `SENDBYTE` and `RECEIVEBYTE` (41_transaction_engine.md). -/

namespace Sys2Proof.Machine

/-- Start phase (R107). -/
def startPhase : List MicroOp := [.rmw .operand .ctrl .start, .poll .start codeStartError]

/-- Address phase (R108). -/
def addressPhase (read : Bool) : List MicroOp :=
  [.wr .operand .data (.address read), .rmw .operand .ctrl .address,
   .poll (if read then .slaRAck else .slaWAck) codeAddressError]

/-- Register-select phase (R109). -/
def registerPhase : List MicroOp :=
  [.wr .operand .data .reg, .rmw .operand .ctrl .clearDone, .poll .dataTxAck codeRegisterError]

/-- Payload phase of a write (R110). -/
def payloadPhase : List MicroOp :=
  [.wr .operand .data .dat, .rmw .operand .ctrl .clearDone, .poll .dataTxAck codeRegisterError]

/-- Payload phase of a read (R111), with the data read (R112). -/
def receivePhase : List MicroOp :=
  [.rmw .operand .ctrl .nack, .poll .dataRxNack codeReceiveError, .rd .data]

/-- Stop phase (R113). -/
def stopPhase : List MicroOp := [.rmw .operand .ctrl .stop]

/-- S0 to S13 (R114). -/
def sendByteProgram : List MicroOp :=
  [.chk codeOutOfRange] ++ startPhase ++ addressPhase false ++ registerPhase ++ payloadPhase ++ stopPhase ++
    [.ret codeSuccess]

/-- V0 to V17 (R115); V14a and V14b are two micro-operations. -/
def receiveByteProgram : List MicroOp :=
  [.chk codeOutOfRange] ++ startPhase ++ addressPhase false ++ registerPhase ++ startPhase ++ addressPhase true ++
    receivePhase ++ stopPhase ++ [.retData codeSuccess]

/-- `SENDBYTE bus, dev, reg, data` (41_transaction_engine.md R114). -/
def execSendByte (bus dev reg data : BitVec 8) (s : State) : Host.Outcome State Fault Refusal :=
  issue sendByteProgram (.sendByte bus dev reg data) s

/-- `RECEIVEBYTE bus, dev, reg` (41_transaction_engine.md R115). -/
def execReceiveByte (bus dev reg : BitVec 8) (s : State) : Host.Outcome State Fault Refusal :=
  issue receiveByteProgram (.receiveByte bus dev reg) s

end Sys2Proof.Machine
end

