-- ==== Sys2Proof/Machine/Position.lean ====
section
/-! DEFINITION. Positions in a micro-program (10_state.md R13): which micro-program `op_l` selects, which positions a
command in flight can be at, going on from one, and the source's names for some of them (R15). -/

namespace Sys2Proof.Machine

/-- The micro-program of an opcode (30_encoding.md R67); `op_l` is read by this dispatch only (10_state.md R12). -/
def programOf (op : BitVec 4) : List MicroOp :=
  if op = 0x1#4 then initProgram
  else if op = 0x2#4 then setSclProgram
  else if op = 0x3#4 then sendByteProgram
  else if op = 0x4#4 then receiveByteProgram
  else []

/-- The bus a micro-operation's events go to; `none` for one that makes no event. -/
def MicroOp.source : MicroOp → Option Source
  | .wr src _ _ => some src
  | .rmw src _ _ => some src
  | .rd _ => some .operand
  | .poll _ _ => some .operand
  | .chk _ | .ret _ | .retData _ | .setScl _ | .initStart | .initLoop | .initNext => none

/-- Which events can come next inside a micro-operation (10_state.md R13). -/
def MicroOp.subFits (op : MicroOp) (sub : Sub) : Bool :=
  match op with
  | .rmw _ _ _ => sub ≠ .again
  | .poll _ _ => true
  | _ => sub = .first

/-- `INIT` works on an entry of the table wherever it stands past its loop's test (42_init.md R140). -/
def MicroOp.onEntry : MicroOp → Bool
  | .setScl .entry | .wr .entry _ _ | .rmw .entry _ _ | .initNext => true
  | _ => false

/-- A micro-operation of the command in flight that the sequencer can be at: the event that comes next is one of its
events, every access is to an existing bus (20_memory.md R42), a poll that goes on has iterations left
(41_transaction_engine.md R104), and `INIT` stands at an entry. -/
def MicroOp.ready (op : MicroOp) (sub : Sub) (s : State) : Bool :=
  op.subFits sub &&
  (match op.source with
    | some src => busInRange s.par (src.bus s)
    | none => true) &&
  (match op, sub with
    | .poll _ _, .second => s.cnt.toNat < s.par.tPoll
    | .poll _ _, .again => s.cnt.toNat < s.par.tPoll
    | .initLoop, _ => s.idx.toNat ≤ s.par.nBus
    | _, _ => true) &&
  (!op.onEntry || s.idx.toNat < s.par.nBus)

/-- `upc` is `IDLE` or a position of the command in flight. -/
def State.positionOk (s : State) : Bool :=
  match s.upc with
  | .idle => true
  | .pos i sub => match (programOf s.opL)[i]? with
    | some op => op.ready sub s
    | none => false

/-- Going on with the command in flight, from any position it can be at. -/
def resume (s : State) : Host.Outcome State Fault Refusal :=
  if s.positionOk then .next (run (programOf s.opL) (commandBound s.par) s) else .fault .strayPosition

/-- The source's state names (10_state.md R15). -/
inductive SourceState where
  | idle | startSent | addressSent | registerSent | dataSent | dataReceived | stopSent
deriving DecidableEq, Repr

/-- The source's name of a position, where it has one (10_state.md R15): just after a phase's `POLL` succeeded, and
just after the Stop phase's write event. -/
def State.sourceState (s : State) : Option SourceState :=
  match s.upc with
  | .pos i .first =>
    if s.opL = 0x3#4 then
      match i with
      | 3 => some .startSent
      | 6 => some .addressSent
      | 9 => some .registerSent
      | 12 => some .dataSent
      | 13 => some .stopSent
      | _ => none
    else if s.opL = 0x4#4 then
      match i with
      | 3 | 11 => some .startSent
      | 6 | 14 => some .addressSent
      | 9 => some .registerSent
      | 16 => some .dataReceived
      | 18 => some .stopSent
      | _ => none
    else none
  | .pos _ _ => none
  | .idle => some .idle

end Sys2Proof.Machine
end

