-- ==== Sys2Proof/Machine/Dispatch.lean ====
section
/-! DEFINITION. The meaning of each command. -/

namespace Sys2Proof.Machine

def exec (i : Instr) (s : State) : Host.Outcome State Fault Refusal :=
  match i with
  | .init cfgp => Sys2Proof.Machine.execInit cfgp s
  | .setScl bus freq => Sys2Proof.Machine.execSetScl bus freq s
  | .sendByte bus dev reg data => Sys2Proof.Machine.execSendByte bus dev reg data s
  | .receiveByte bus dev reg => Sys2Proof.Machine.execReceiveByte bus dev reg s

end Sys2Proof.Machine
end

