-- ==== Sys2Proof/Machine/Step.lean ====
section
/-! DEFINITION. One step: the host's next action at an idle sequencer, or the command in flight.

A step runs a command from acceptance to response, event by event, the other agents moving before each event
(log entry 7). -/

namespace Sys2Proof.Machine

/-- A word the host presents (30_encoding.md R60, R69). -/
def stepWord (w : Cmd) (s : State) : Host.Outcome State Fault Refusal :=
  match decode w with
  | .ok i => exec i s
  | .error _ => .next (rejectIllegal s)

def step (s : State) : Host.Outcome State Fault Refusal :=
  match s.upc with
  | .pos _ _ => resume s
  | .idle => match s.host with
    | [] => .next s
    | .reset :: rest => .next (resetInput { s with host := rest })
    | .present w :: rest => stepWord w { s with host := rest }

/-- The sequencer idle and the host about to present this word: what the block has in place of an instruction fetch
(20_memory.md R53; log entry 9). -/
def State.withFetchWord (s : State) (nbits w : Nat) : State :=
  { s with upc := .idle, host := .present (tableWord nbits w) :: s.host }

end Sys2Proof.Machine
end

