-- ==== Sys2Proof/Safety.lean ====
section
/-! DEFINITION. What the claims call safe: the invariant of the machine, and the words in which a command's outcome
is stated. -/

namespace Sys2Proof.Machine

/-- The invariant: legal parameters (00_scope.md R1, R2), register contents in canonical form and inside the register
space (20_memory.md R40), and `upc` idle or at a position of the command in flight (10_state.md R13). -/
def State.Inv (s : State) : Prop :=
  s.par.legal = true ∧ s.dev.wf = true ∧ s.dev.within s.locations = true ∧ s.positionOk = true

/-- The host asserts no reset while a command runs. -/
def State.Undisturbed (s : State) : Prop := ∀ b ∈ s.resetLine, b = false

/-- A response without data (30_encoding.md R70). -/
def State.Answered (t : State) (code : Byte) : Prop :=
  t.upc = .idle ∧ t.rspValid = true ∧ t.rspCode = code ∧ t.rspDv = false

/-- A response with data (30_encoding.md R70). -/
def State.AnsweredWith (t : State) (code data : Byte) : Prop :=
  t.upc = .idle ∧ t.rspValid = true ∧ t.rspCode = code ∧ t.rspDv = true ∧ t.rspData = data

/-- Nothing was read or written from `s` to `t`, and the other agents have not moved. -/
def NoEvent (s t : State) : Prop := t.trace = s.trace ∧ t.dev = s.dev ∧ t.env = s.env

/-- The host's and the platform's side is untouched: the parameters and the host's coming actions. -/
def SamePlatform (s t : State) : Prop := t.par = s.par ∧ t.host = s.host

/-- The events from `s` to `t`. -/
def newEvents (s t : State) : List Event := t.trace.drop s.trace.length

/-- An event's register set, register and direction. -/
def Event.bus : Event → BitVec 8
  | .read b _ _ => b
  | .write b _ _ => b

def Event.kind : Event → Kind
  | .read _ k _ => k
  | .write _ k _ => k

def Event.isWrite : Event → Bool
  | .read _ _ _ => false
  | .write _ _ _ => true

/-- No event of `evs` wrote the location. -/
def NotWritten (evs : List Event) (a : Nat) : Prop := ∀ ev ∈ evs, ev.isWrite = true → a ≠ loc ev.bus ev.kind

/-- What the environment's own first `n` moves leave in the device registers, the sequencer writing nothing. -/
def devAfter : Nat → State → Memory
  | 0, s => s.dev
  | n + 1, s => devAfter n (envMove s)

/-- The move of an environment that gives the next event this answer: before a read the register takes the value, before
a write nothing changes. -/
def answerMove : Event → Move
  | .read bus k v => { cells := [(loc bus k, v)], offered := none }
  | .write _ _ _ => { cells := [], offered := none }

/-- The script of an environment that answers the reads of `evs`, one move before each event. -/
def answering (evs : List Event) : List Move := evs.map answerMove

/-! ### The events of the transaction commands

Written from 41_transaction_engine.md R103 to R115, not from the micro-programs: what a host on the register-access
port sees.  `its` are the iterations of a poll, each the control and the status value it read; `c` is the value an
update of the control register read. -/

/-- The events of poll iterations (R104). -/
def pollEvents (bus : BitVec 8) (its : List (Byte × Byte)) : List Event :=
  its.flatMap fun it => [.read bus .ctrl it.1, .read bus .stat it.2]

/-- The iteration sees the done flag set and a status code of the phase (R104). -/
def Hit (p : Config.Params) (e : Expect) (it : Byte × Byte) : Prop :=
  doneFlag p it.1 = true ∧ statusCode it.2 ∈ e.codes p

/-- A poll that ends in success: the last iteration hits, none before it does, and they are at most `T_POLL` (R104). -/
def PollSucceeds (p : Config.Params) (e : Expect) (its : List (Byte × Byte)) : Prop :=
  ∃ misses hit, its = misses ++ [hit] ∧ (∀ m ∈ misses, ¬ Hit p e m) ∧ Hit p e hit ∧ its.length ≤ p.tPoll

/-- A poll that times out: exactly `T_POLL` iterations, none of which hits (R104). -/
def PollTimesOut (p : Config.Params) (e : Expect) (its : List (Byte × Byte)) : Prop :=
  its.length = p.tPoll ∧ ∀ m ∈ its, ¬ Hit p e m

def maskINTF (p : Config.Params) : Byte := bitMask p.bits.intf
def maskACKC (p : Config.Params) : Byte := bitMask p.bits.ackc
def maskSTART (p : Config.Params) : Byte := bitMask p.bits.start
def maskSTOP (p : Config.Params) : Byte := bitMask p.bits.stop
def maskEN (p : Config.Params) : Byte := bitMask p.bits.en

/-- The update of a Start phase (R107). -/
def startEvents (p : Config.Params) (bus : BitVec 8) (c : Byte) : List Event :=
  [.read bus .ctrl c, .write bus .ctrl (c ||| (maskSTART p ||| maskINTF p))]

/-- The writes of an Address phase (R108, R119). -/
def addressEvents (p : Config.Params) (bus dev : BitVec 8) (d : BitVec 1) (c : Byte) : List Event :=
  [.write bus .data (dev.extractLsb' 0 7 ++ d), .read bus .ctrl c,
   .write bus .ctrl ((c &&& ~~~ maskSTART p) ||| maskINTF p)]

/-- The writes of a Register-select phase, and of the payload phase of a write (R109, R110). -/
def byteEvents (p : Config.Params) (bus : BitVec 8) (v c : Byte) : List Event :=
  [.write bus .data v, .read bus .ctrl c, .write bus .ctrl (c ||| maskINTF p)]

/-- The update of the payload phase of a read (R111). -/
def nackEvents (p : Config.Params) (bus : BitVec 8) (c : Byte) : List Event :=
  [.read bus .ctrl c,
   .write bus .ctrl
     (if p.nackLevel then c ||| (maskINTF p ||| maskACKC p) else (c &&& ~~~ maskACKC p) ||| maskINTF p)]

/-- The update of the Stop phase (R113). -/
def stopEvents (p : Config.Params) (bus : BitVec 8) (c : Byte) : List Event :=
  [.read bus .ctrl c, .write bus .ctrl (c ||| (maskSTOP p ||| maskINTF p))]

/-- The events of one entry of `INIT` (42_init.md R140): those of `SetScl` with this bitrate and select code, then the
enable update; `x` is what the status register and the control register answered. -/
def entryEvents (p : Config.Params) (e : Config.CfgEntry) (x : Byte × Byte) : List Event :=
  match sclCompute p e.bus e.freq with
  | .found br ps =>
    [.write e.bus .br br, .read e.bus .stat x.1, .write e.bus .stat ((x.1 &&& 0xFC#8) ||| ps.zeroExtend 8),
     .read e.bus .ctrl x.2, .write e.bus .ctrl (x.2 ||| maskEN p)]
  | .fail _ => []

end Sys2Proof.Machine
end

