-- ==== Sys2Proof/Certificates/Slice0/Obligations.lean ====
section
/-! DEFINITION. The statements for the provers.  Each docstring names the rule of spec/ it formalises. -/

open Sys2Proof Sys2Proof.Machine

/-! ### Encoding (30_encoding.md) -/

/-- R63 to R66: no bit of an operand is lost between a command and its word. -/
def Obligations.DecodeOfEncode : Prop := ∀ i : Instr, decode (encode i) = .ok i

/-- R62 to R66, R69: a legal word is the word of its command, so the formats have no free bit. -/
def Obligations.EncodeOfDecode : Prop := ∀ (w : Cmd) (i : Instr), decode w = .ok i → encode i = w

/-- R67: the decoder accepts exactly the words that match a row, as that row's command; the patterns are disjoint. -/
def Obligations.DecodeFollowsTheOpcodeMap : Prop :=
  (∀ w i, decode w = .ok i → ∃ r ∈ rows, r.matches w = true ∧ r.mnemonic = i.mnemonic) ∧
  (∀ w, ∀ r ∈ rows, r.matches w = true → ∃ i, decode w = .ok i ∧ i.mnemonic = r.mnemonic) ∧
  (∀ w, ∀ r ∈ rows, ∀ r' ∈ rows, r.matches w = true → r'.matches w = true → r = r') ∧
  (∀ w, (∀ r ∈ rows, r.matches w = false) → ∃ e, decode w = .error e)

/-- The words of 30_encoding.md section 9. -/
def Obligations.WorkedEncodingsDecode : Prop :=
  decode 0x1000000000000001#64 = .ok (.init 1#1) ∧
  decode 0x1000000000000000#64 = .ok (.init 0#1) ∧
  decode 0x20000000000186A0#64 = .ok (.setScl 0#8 100000#32) ∧
  decode 0x2001000000061A80#64 = .ok (.setScl 1#8 400000#32) ∧
  decode 0x30005010AB000000#64 = .ok (.sendByte 0#8 0x50#8 0x10#8 0xAB#8) ∧
  decode 0x4000501000000000#64 = .ok (.receiveByte 0#8 0x50#8 0x10#8) ∧
  decode 0x40C8501000000000#64 = .ok (.receiveByte 200#8 0x50#8 0x10#8) ∧
  decode 0x0000000000000000#64 = .error .unassignedOp ∧
  decode 0x30005010AB000001#64 = .error .reservedBit ∧
  decode 0x31005010AB000000#64 = .error .reservedNibble

/-- R71, R63 to R66: a written command whose operands fit their fields is assembled, and its word decodes to the
command with those operands; one that does not fit is refused. -/
def Obligations.WrittenCommandsAssemble : Prop :=
  (∀ cfgp, (Written.mk "INIT" [cfgp]).assemble =
    if cfgp < 2 then some (.init (BitVec.ofNat 1 cfgp)) else none) ∧
  (∀ bus freq, (Written.mk "SETSCL" [bus, freq]).assemble =
    if bus < 256 ∧ freq < 4294967296 then some (.setScl (BitVec.ofNat 8 bus) (BitVec.ofNat 32 freq)) else none) ∧
  (∀ bus dev reg data, (Written.mk "SENDBYTE" [bus, dev, reg, data]).assemble =
    if bus < 256 ∧ dev < 256 ∧ reg < 256 ∧ data < 256 then
      some (.sendByte (BitVec.ofNat 8 bus) (BitVec.ofNat 8 dev) (BitVec.ofNat 8 reg) (BitVec.ofNat 8 data))
    else none) ∧
  (∀ bus dev reg, (Written.mk "RECEIVEBYTE" [bus, dev, reg]).assemble =
    if bus < 256 ∧ dev < 256 ∧ reg < 256 then
      some (.receiveByte (BitVec.ofNat 8 bus) (BitVec.ofNat 8 dev) (BitVec.ofNat 8 reg))
    else none)

/-! ### The command port (30_encoding.md R60, R61, R69) -/

/-- A step at an idle sequencer runs the command whose word the host presents, and nothing is added around it. -/
def Obligations.StepRunsThePresentedCommand : Prop :=
  (∀ (s : State) (w : Cmd) (rest : List HostAct) (i : Instr),
    s.upc = .idle → s.host = .present w :: rest → decode w = .ok i → step s = exec i { s with host := rest }) ∧
  (∀ (s : State) (nbits w : Nat) (i : Instr), decodeTableWord nbits w = some i →
    step (s.withFetchWord nbits w) = exec i { s with upc := .idle })

/-- R60: acceptance copies the fields into the operand latches, clears `rsp_valid`, sets `upc` to the first
micro-operation, and touches no device register. -/
def Obligations.AcceptanceLoadsTheLatches : Prop :=
  ∀ (i : Instr) (s : State),
    let t := accept (encode i) s
    t.upc = .pos 0 .first ∧ t.rspValid = false ∧ NoEvent s t ∧ SamePlatform s t ∧
    match i with
    | .init cfgp => t.opL = 1#4 ∧ t.cfgpL = cfgp
    | .setScl bus freq => t.opL = 2#4 ∧ t.busL = bus ∧ t.freqL = freq
    | .sendByte bus dev reg data => t.opL = 3#4 ∧ t.busL = bus ∧ t.devL = dev ∧ t.regL = reg ∧ t.datL = data
    | .receiveByte bus dev reg => t.opL = 4#4 ∧ t.busL = bus ∧ t.devL = dev ∧ t.regL = reg

/-- R12: an operand latch is written when the command is accepted, and no command writes it again.  That a latch the
command's format does not define takes its slice of the word too is the model's reading (log entry 15). -/
def Obligations.OperandLatchesAreWrittenOnce : Prop :=
  ∀ (i : Instr) (s t : State), s.upc = .idle → s.Undisturbed → exec i s = .next t →
    t.opL = opField (encode i) ∧ t.busL = busField (encode i) ∧ t.devL = devField (encode i) ∧
    t.regL = regField (encode i) ∧ t.datL = dataField (encode i) ∧ t.freqL = freqField (encode i) ∧
    t.cfgpL = cfgpField (encode i)

/-- R69: which words match no row of R67, and that such a word, presented at an idle sequencer, is answered at once with
0xFF: no event, no other state change.  The free counter moves because `rsp_data` becomes unspecified (log
entry 4). -/
def Obligations.IllegalWordsAreAnswered : Prop :=
  (∀ w : Cmd, (∀ r ∈ rows, r.matches w = false) ↔
    opField w = 0x0#4 ∨ 0x5#4 ≤ opField w ∨ rsvField w ≠ 0#4 ∨
      (opField w = 0x1#4 ∧ field w 1 55 ≠ 0#55) ∨ (opField w = 0x2#4 ∧ field w 32 16 ≠ 0#16) ∨
      (opField w = 0x3#4 ∧ field w 0 24 ≠ 0#24) ∨ (opField w = 0x4#4 ∧ field w 0 32 ≠ 0#32)) ∧
  (∀ (s : State) (w : Cmd) (rest : List HostAct), s.upc = .idle → s.host = .present w :: rest →
    (∀ r ∈ rows, r.matches w = false) →
    ∃ t, step s = .next t ∧ t.Answered 0xFF#8 ∧
      t = { s with host := rest, rspCode := t.rspCode, rspDv := t.rspDv, rspData := t.rspData, rspValid := t.rspValid,
                   free := t.free })

/-- R61: a command presented while the sequencer is busy has no effect at all, and words offered on the command port
while a command runs change nothing but the script they stand in. -/
def Obligations.OfferedWordsHaveNoEffect : Prop :=
  (∀ (i : Instr) (s : State), s.upc ≠ .idle → exec i s = .next s) ∧
  ∀ (s : State) (env' : List Move),
    env'.map (fun m => { m with offered := none }) = s.env.map (fun m => { m with offered := none }) →
    (∀ t, step s = .next t → ∃ rest', step { s with env := env' } = .next { t with env := rest' } ∧
      rest'.map (fun m => { m with offered := none }) = t.env.map (fun m => { m with offered := none })) ∧
    (∀ r, step s = .fault r → step { s with env := env' } = .fault r) ∧
    (∀ r, step s = .refused r → step { s with env := env' } = .refused r)

/-- A command in flight, looked at after any number of events, goes on to the same end (R13: where `upc` stands is all
that a command needs to be gone on with).  That `exec` runs a whole command is the model's choice (log entry 7). -/
def Obligations.CommandsGoOnFromAnyPosition : Prop :=
  ∀ (i : Instr) (k : Nat) (s : State), s.par.legal = true → s.upc = .idle →
    let a := accept (encode i) s
    let m := run (programOf a.opL) k a
    m.upc ≠ .idle → step m = exec i s

/-- An idle sequencer to which the host does nothing stays as it is (model: log entry 9). -/
def Obligations.IdleSequencerWaits : Prop :=
  ∀ s : State, s.upc = .idle → s.host = [] → step s = .next s

/-- R70: the layout of the response word. -/
def Obligations.ResponseWordLayout : Prop :=
  ∀ s : State, s.rspWord.extractLsb' 0 8 = s.rspData ∧ s.rspWord.extractLsb' 8 8 = s.rspCode ∧
    s.rspWord.getLsbD 16 = s.rspDv

/-- R150, R70: which codes a command can end with, and exactly when the response carries data. -/
def Obligations.ResponseCodesAreTheListedOnes : Prop :=
  ∀ (i : Instr) (s t : State), s.par.legal = true → s.upc = .idle → s.Undisturbed → exec i s = .next t →
    t.upc = .idle ∧ t.rspValid = true ∧
    match i with
    | .init _ => t.rspCode ∈ [0x00#8, 0x01#8, 0x10#8, 0x11#8, 0x12#8] ∧
        (t.rspDv = true ↔ t.rspCode ∈ [0x00#8, 0x10#8, 0x11#8])
    | .setScl _ _ => t.rspCode ∈ [0x00#8, 0x01#8, 0x10#8, 0x11#8] ∧ t.rspDv = false
    | .sendByte _ _ _ _ => t.rspCode ∈ [0x00#8, 0x01#8, 0x02#8, 0x03#8, 0x04#8] ∧ t.rspDv = false
    | .receiveByte _ _ _ => t.rspCode ∈ [0x00#8, 0x01#8, 0x02#8, 0x03#8, 0x04#8, 0x05#8] ∧
        (t.rspDv = true ↔ t.rspCode = 0x01#8)

/-! ### The clock configurator (40_clock_configurator.md) -/

/-- R81: a bus out of range, whatever the frequency. -/
def Obligations.SetSclBusOutOfRange : Prop :=
  ∀ (bus : BitVec 8) (freq : BitVec 32) (s : State), s.upc = .idle → s.Undisturbed → s.par.nBus ≤ bus.toNat →
    sclCompute s.par bus freq = .fail 0x00#8 ∧
    ∃ t, exec (.setScl bus freq) s = .next t ∧ t.Answered 0x00#8 ∧ NoEvent s t ∧ SamePlatform s t

/-- R82: a frequency above 400 000, compared as an unsigned 32-bit number; 400 000 itself and anything below passes. -/
def Obligations.SetSclFrequencyCeiling : Prop :=
  ∀ (bus : BitVec 8) (freq : BitVec 32) (s : State), s.upc = .idle → s.Undisturbed → bus.toNat < s.par.nBus →
    (400000 < freq.toNat → sclCompute s.par bus freq = .fail 0x10#8 ∧
      ∃ t, exec (.setScl bus freq) s = .next t ∧ t.Answered 0x10#8 ∧ NoEvent s t ∧ SamePlatform s t) ∧
    (freq.toNat ≤ 400000 →
      ∃ t, exec (.setScl bus freq) s = .next t ∧ t.rspValid = true ∧ t.rspCode ≠ 0x10#8)

/-- R83, R84, R85: no candidate fits: frequency 0, a negative numerator, or a numerator of 32768 or more. -/
def Obligations.SetSclNoPrescalerFits : Prop :=
  ∀ (bus : BitVec 8) (freq : BitVec 32) (s : State), s.upc = .idle → s.Undisturbed → bus.toNat < s.par.nBus →
    freq.toNat ≤ 400000 →
    (freq = 0#32 ∨ s.par.fSys.toNat / freq.toNat < 16 ∨ 32768 + 16 ≤ s.par.fSys.toNat / freq.toNat) →
    sclCompute s.par bus freq = .fail 0x11#8 ∧
    ∃ t, exec (.setScl bus freq) s = .next t ∧ t.Answered 0x11#8 ∧ NoEvent s t ∧ SamePlatform s t

/-- R85, R86, R87: the closed form of the search, the three events in order, and the success code.  The status value
written back is the one the status register answered, which is what the environment's own moves had put there where
that is known. -/
def Obligations.SetSclWritesBitrateAndPrescaler : Prop :=
  ∀ (bus : BitVec 8) (freq : BitVec 32) (n : Nat) (s : State), s.upc = .idle → s.Undisturbed →
    bus.toNat < s.par.nBus → freq ≠ 0#32 → freq.toNat ≤ 400000 → s.par.fSys.toNat / freq.toNat = n + 16 → n ≤ 32767 →
    let c := if n ≤ 511 then 0 else if n ≤ 2047 then 1 else if n ≤ 8191 then 2 else 3
    let v := BitVec.ofNat 8 (n / (2 * 4 ^ c))
    ∃ t x, exec (.setScl bus freq) s = .next t ∧ t.Answered 0x01#8 ∧ t.brL = v ∧ t.psL = BitVec.ofNat 2 c ∧ t.tmp = x ∧
      t.trace = s.trace ++ [.write bus .br v, .read bus .stat x,
        .write bus .stat ((x &&& 0xFC#8) ||| BitVec.ofNat 8 c)] ∧
      (∀ y, (devAfter 2 s).get? (loc bus .stat) = some y → x = y) ∧ t.env = s.env.drop 3

/-- R85: the chosen candidate is the first that fits, in the order 1, 4, 16, 64, and the search fails only where none
does. -/
def Obligations.SearchPicksTheFirstThatFits : Prop :=
  ∀ (p : Config.Params) (bus : BitVec 8) (freq : BitVec 32) (n : Nat), bus.toNat < p.nBus → freq ≠ 0#32 →
    freq.toNat ≤ 400000 → p.fSys.toNat / freq.toNat = n + 16 →
    (∀ br ps, sclCompute p bus freq = .found br ps →
      br.toNat = n / (2 * 4 ^ ps.toNat) ∧ ∀ c, c < ps.toNat → 256 ≤ n / (2 * 4 ^ c)) ∧
    (∀ code, sclCompute p bus freq = .fail code → code = 0x11#8 ∧ ∀ c, c ≤ 3 → 256 ≤ n / (2 * 4 ^ c))

/-- R153, R88, with the frame: `SETSCL` touches only the bitrate and the status register of its own bus, every register
it does not write is as the environment's own moves left it, and one that fails makes no event, so that every device
register is as it was. -/
def Obligations.SetSclFrame : Prop :=
  ∀ (bus : BitVec 8) (freq : BitVec 32) (s t : State), s.upc = .idle → s.Undisturbed →
    exec (.setScl bus freq) s = .next t →
    SamePlatform s t ∧ t.cnt = s.cnt ∧ t.doneL = s.doneL ∧ t.idx = s.idx ∧
    (∀ ev ∈ newEvents s t, ev.bus = bus ∧ (ev.kind = .br ∨ ev.kind = .stat)) ∧
    (t.rspCode ≠ 0x01#8 → NoEvent s t ∧ t.tmp = s.tmp ∧ t.psL = s.psL ∧ t.brL = s.brL) ∧
    (∀ a, NotWritten (newEvents s t) a → t.dev.get? a = (devAfter (newEvents s t).length s).get? a)

/-! ### Micro-operations (41_transaction_engine.md section 1) -/

/-- R103, R17: the read event of an `RMW`, and its write event, which uses the value read before the other agents
moved, whatever the register holds by then. -/
def Obligations.RmwIsTwoEvents : Prop :=
  ∀ (prog : List MicroOp) (i : Nat) (src : Source) (k : Kind) (u : Update) (s : State),
    prog[i]? = some (.rmw src k u) → s.resetNow = false →
    (s.upc = .pos i .first → ∃ v, (tick prog s).trace = s.trace ++ [.read (src.bus s) k v] ∧ (tick prog s).tmp = v ∧
      (tick prog s).upc = .pos i .second ∧
      ∀ y, (envMove s).dev.get? (loc (src.bus s) k) = some y → v = y) ∧
    (s.upc = .pos i .second → (tick prog s).upc = .pos (i + 1) .first ∧
      (tick prog s).trace =
        s.trace ++ [.write (src.bus s) k ((s.tmp &&& ~~~ u.clr s.par) ||| u.set s)])

/-- R103: no bit is both set and cleared.  (The prescaler update of `SETSCL` replaces a field and is not one of
these.) -/
def Obligations.UpdateMasksAreDisjoint : Prop :=
  ∀ (u : Update) (s : State), s.par.legal = true → u ≠ .prescaler → u.set s &&& u.clr s.par = 0#8

/-- R22: field by field, what each control update writes: what it names is driven, every other bit is as read. -/
def Obligations.ControlUpdatesDriveNamedBitsOnly : Prop :=
  ∀ (u : Update) (s : State) (i : Fin 8), s.par.legal = true → u ≠ .prescaler →
    (rmwValue u s).getLsbD i.val =
      if i = s.par.bits.intf ∧ u ≠ .enable then true
      else if i = s.par.bits.ackc ∧ u = .nack then s.par.nackLevel
      else if i = s.par.bits.start ∧ u = .start then true
      else if i = s.par.bits.start ∧ u = .address then false
      else if i = s.par.bits.stop ∧ u = .stop then true
      else if i = s.par.bits.en ∧ u = .enable then true
      else s.tmp.getLsbD i.val

/-- R104: a poll, in any micro-program, that the environment answers within the ceiling: two events an iteration, and
on to the next micro-operation. -/
def Obligations.PollEndsOnAHit : Prop :=
  ∀ (prog : List MicroOp) (i : Nat) (e : Expect) (code : Byte) (its : List (Byte × Byte)) (rest : List Move)
    (s : State), s.par.legal = true → s.busL.toNat < s.par.nBus → prog[i]? = some (.poll e code) → s.upc = .pos i .first →
    s.Undisturbed →
    PollSucceeds s.par e its → s.env = answering (pollEvents s.busL its) ++ rest →
    let t := run prog (2 * its.length) s
    t.upc = .pos (i + 1) .first ∧ t.trace = s.trace ++ pollEvents s.busL its ∧ t.env = rest ∧
      t.cnt.toNat = its.length ∧ t.rspValid = s.rspValid ∧ t.tmp = s.tmp

/-- R104, R116: a poll that is never answered: exactly `T_POLL` iterations, `2 * T_POLL` events, and the abort. -/
def Obligations.PollTimesOutAtTheCeiling : Prop :=
  ∀ (prog : List MicroOp) (i : Nat) (e : Expect) (code : Byte) (its : List (Byte × Byte)) (rest : List Move)
    (s : State), s.par.legal = true → s.busL.toNat < s.par.nBus → prog[i]? = some (.poll e code) → s.upc = .pos i .first →
    s.Undisturbed →
    PollTimesOut s.par e its → s.env = answering (pollEvents s.busL its) ++ rest →
    let t := run prog (2 * s.par.tPoll) s
    t.Answered code ∧ t.trace = s.trace ++ pollEvents s.busL its ∧ t.env = rest

/-- R179: an iteration whose control read saw the done flag clear does not succeed, even where the status register
answers an expected code. -/
def Obligations.TornPollDoesNotMatch : Prop :=
  ∀ (prog : List MicroOp) (i : Nat) (e : Expect) (code : Byte) (s : State),
    prog[i]? = some (.poll e code) → s.upc = .pos i .second → s.doneL = false → s.resetNow = false →
    (tick prog s).upc = .pos i .again ∨
      (s.cnt + 1#32).toNat = s.par.tPoll ∧ (tick prog s).Answered code

/-- R119: the address byte, bit by bit; the top bit of the operand does not reach the bus. -/
def Obligations.AddressByteLayout : Prop :=
  ∀ (dev : BitVec 8) (d : Bool), (addressByte dev d).getLsbD 0 = d ∧
    (∀ k, k < 7 → (addressByte dev d).getLsbD (k + 1) = dev.getLsbD k) ∧
    addressByte (dev ||| 0x80#8) d = addressByte dev d ∧
    addressByte 0x50#8 false = 0xA0#8 ∧ addressByte 0x50#8 true = 0xA1#8 ∧ addressByte 0xD0#8 false = 0xA0#8

/-- R43: at any read, any of the 256 values is one the environment can answer, whatever the sequencer wrote before. -/
def Obligations.EnvironmentDecidesEveryRead : Prop :=
  ∀ (bus : BitVec 8) (k : Kind) (v : Byte) (rest : List Move) (s : State), bus.toNat < s.par.nBus →
    (regRead bus k (envMove { s with env := answerMove (.read bus k v) :: rest })).1 = v

/-! ### SENDBYTE and RECEIVEBYTE (41_transaction_engine.md) -/

/-- R105: `CHK` is the first micro-operation of both commands, its code is 0x00; a bus out of range ends the command
there, one in range goes on to the next micro-operation without an event. -/
def Obligations.TransactionBusOutOfRange : Prop :=
  sendByteProgram[0]? = some (.chk 0x00#8) ∧ receiveByteProgram[0]? = some (.chk 0x00#8) ∧
  (∀ (bus dev reg data : BitVec 8) (s : State), s.upc = .idle → s.Undisturbed → s.par.nBus ≤ bus.toNat →
    (∃ t, exec (.sendByte bus dev reg data) s = .next t ∧ t.Answered 0x00#8 ∧ NoEvent s t ∧ SamePlatform s t) ∧
    (∃ t, exec (.receiveByte bus dev reg) s = .next t ∧ t.Answered 0x00#8 ∧ NoEvent s t ∧ SamePlatform s t)) ∧
  (∀ (prog : List MicroOp) (i : Nat) (code : Byte) (s : State), prog[i]? = some (.chk code) → s.upc = .pos i .first →
    s.busL.toNat < s.par.nBus → s.resetNow = false →
    tick prog s = { s with upc := .pos (i + 1) .first, resetLine := s.resetLine.tail })

/-- R114: with an environment that answers every poll within the ceiling, `SENDBYTE` makes these events and no other,
and responds 0x01. -/
def Obligations.SendByteSucceeds : Prop :=
  ∀ (bus dev reg data c1 c2 c3 c4 c5 : BitVec 8) (its1 its2 its3 its4 : List (Byte × Byte)) (rest : List Move)
    (s : State), s.par.legal = true → s.upc = .idle → s.Undisturbed → bus.toNat < s.par.nBus →
    PollSucceeds s.par .start its1 → PollSucceeds s.par .slaWAck its2 → PollSucceeds s.par .dataTxAck its3 →
    PollSucceeds s.par .dataTxAck its4 →
    let evs := startEvents s.par bus c1 ++ pollEvents bus its1 ++ addressEvents s.par bus dev 0#1 c2 ++
      pollEvents bus its2 ++ byteEvents s.par bus reg c3 ++ pollEvents bus its3 ++ byteEvents s.par bus data c4 ++
      pollEvents bus its4 ++ stopEvents s.par bus c5
    s.env = answering evs ++ rest →
    ∃ t, exec (.sendByte bus dev reg data) s = .next t ∧ t.Answered 0x01#8 ∧ t.trace = s.trace ++ evs ∧
      t.env = rest ∧ SamePlatform s t

/-- R114, R116: with an environment that lets one poll run out, `SENDBYTE` makes the events up to and including that
poll, and responds that poll's code. -/
def Obligations.SendByteTimesOut : Prop :=
  ∀ (bus dev reg data c1 c2 c3 c4 : BitVec 8) (its1 its2 its3 its4 : List (Byte × Byte)) (rest : List Move)
    (s : State), s.par.legal = true → s.upc = .idle → s.Undisturbed → bus.toNat < s.par.nBus →
    let ends := fun (evs : List Event) (code : Byte) => s.env = answering evs ++ rest →
      ∃ t, exec (.sendByte bus dev reg data) s = .next t ∧ t.Answered code ∧ t.trace = s.trace ++ evs ∧ t.env = rest ∧
        SamePlatform s t
    let upTo1 := startEvents s.par bus c1 ++ pollEvents bus its1
    let upTo2 := upTo1 ++ addressEvents s.par bus dev 0#1 c2 ++ pollEvents bus its2
    let upTo3 := upTo2 ++ byteEvents s.par bus reg c3 ++ pollEvents bus its3
    let upTo4 := upTo3 ++ byteEvents s.par bus data c4 ++ pollEvents bus its4
    (PollTimesOut s.par .start its1 → ends upTo1 0x02#8) ∧
    (PollSucceeds s.par .start its1 → PollTimesOut s.par .slaWAck its2 → ends upTo2 0x03#8) ∧
    (PollSucceeds s.par .start its1 → PollSucceeds s.par .slaWAck its2 → PollTimesOut s.par .dataTxAck its3 →
      ends upTo3 0x04#8) ∧
    (PollSucceeds s.par .start its1 → PollSucceeds s.par .slaWAck its2 → PollSucceeds s.par .dataTxAck its3 →
      PollTimesOut s.par .dataTxAck its4 → ends upTo4 0x04#8)

/-- R115, R112: with an environment that answers every poll within the ceiling, `RECEIVEBYTE` makes these events and
no other, and responds 0x01 with the byte it read from the data register. -/
def Obligations.ReceiveByteSucceeds : Prop :=
  ∀ (bus dev reg c1 c2 c3 c4 c5 c6 c7 v : BitVec 8) (its1 its2 its3 its4 its5 its6 : List (Byte × Byte))
    (rest : List Move) (s : State), s.par.legal = true → s.upc = .idle → s.Undisturbed → bus.toNat < s.par.nBus →
    PollSucceeds s.par .start its1 → PollSucceeds s.par .slaWAck its2 → PollSucceeds s.par .dataTxAck its3 →
    PollSucceeds s.par .start its4 → PollSucceeds s.par .slaRAck its5 → PollSucceeds s.par .dataRxNack its6 →
    let evs := startEvents s.par bus c1 ++ pollEvents bus its1 ++ addressEvents s.par bus dev 0#1 c2 ++
      pollEvents bus its2 ++ byteEvents s.par bus reg c3 ++ pollEvents bus its3 ++ startEvents s.par bus c4 ++
      pollEvents bus its4 ++ addressEvents s.par bus dev 1#1 c5 ++ pollEvents bus its5 ++ nackEvents s.par bus c6 ++
      pollEvents bus its6 ++ [.read bus .data v] ++ stopEvents s.par bus c7
    s.env = answering evs ++ rest →
    ∃ t, exec (.receiveByte bus dev reg) s = .next t ∧ t.AnsweredWith 0x01#8 v ∧ t.trace = s.trace ++ evs ∧
      t.env = rest ∧ SamePlatform s t

/-- R115, R116, R121: with an environment that lets one poll run out, `RECEIVEBYTE` makes the events up to and
including that poll, and responds that poll's code; both Start phases report 0x02, both Address phases 0x03. -/
def Obligations.ReceiveByteTimesOut : Prop :=
  ∀ (bus dev reg c1 c2 c3 c4 c5 c6 : BitVec 8) (its1 its2 its3 its4 its5 its6 : List (Byte × Byte))
    (rest : List Move) (s : State), s.par.legal = true → s.upc = .idle → s.Undisturbed → bus.toNat < s.par.nBus →
    let ends := fun (evs : List Event) (code : Byte) => s.env = answering evs ++ rest →
      ∃ t, exec (.receiveByte bus dev reg) s = .next t ∧ t.Answered code ∧ t.trace = s.trace ++ evs ∧ t.env = rest ∧
        SamePlatform s t
    let upTo1 := startEvents s.par bus c1 ++ pollEvents bus its1
    let upTo2 := upTo1 ++ addressEvents s.par bus dev 0#1 c2 ++ pollEvents bus its2
    let upTo3 := upTo2 ++ byteEvents s.par bus reg c3 ++ pollEvents bus its3
    let upTo4 := upTo3 ++ startEvents s.par bus c4 ++ pollEvents bus its4
    let upTo5 := upTo4 ++ addressEvents s.par bus dev 1#1 c5 ++ pollEvents bus its5
    let upTo6 := upTo5 ++ nackEvents s.par bus c6 ++ pollEvents bus its6
    (PollTimesOut s.par .start its1 → ends upTo1 0x02#8) ∧
    (PollSucceeds s.par .start its1 → PollTimesOut s.par .slaWAck its2 → ends upTo2 0x03#8) ∧
    (PollSucceeds s.par .start its1 → PollSucceeds s.par .slaWAck its2 → PollTimesOut s.par .dataTxAck its3 →
      ends upTo3 0x04#8) ∧
    (PollSucceeds s.par .start its1 → PollSucceeds s.par .slaWAck its2 → PollSucceeds s.par .dataTxAck its3 →
      PollTimesOut s.par .start its4 → ends upTo4 0x02#8) ∧
    (PollSucceeds s.par .start its1 → PollSucceeds s.par .slaWAck its2 → PollSucceeds s.par .dataTxAck its3 →
      PollSucceeds s.par .start its4 → PollTimesOut s.par .slaRAck its5 → ends upTo5 0x03#8) ∧
    (PollSucceeds s.par .start its1 → PollSucceeds s.par .slaWAck its2 → PollSucceeds s.par .dataTxAck its3 →
      PollSucceeds s.par .start its4 → PollSucceeds s.par .slaRAck its5 → PollTimesOut s.par .dataRxNack its6 →
      ends upTo6 0x05#8)

/-- R114: whatever the environment does, a `SENDBYTE` that responds 0x01 made exactly the events of the micro-program:
the source's eight writes, in order, between its polls. -/
def Obligations.SendByteSuccessMadeTheExactWrites : Prop :=
  ∀ (bus dev reg data : BitVec 8) (s t : State), s.par.legal = true → s.upc = .idle → s.Undisturbed →
    exec (.sendByte bus dev reg data) s = .next t → t.rspCode = 0x01#8 →
    ∃ c1 c2 c3 c4 c5 its1 its2 its3 its4,
      PollSucceeds s.par .start its1 ∧ PollSucceeds s.par .slaWAck its2 ∧ PollSucceeds s.par .dataTxAck its3 ∧
      PollSucceeds s.par .dataTxAck its4 ∧
      t.trace = s.trace ++ (startEvents s.par bus c1 ++ pollEvents bus its1 ++ addressEvents s.par bus dev 0#1 c2 ++
        pollEvents bus its2 ++ byteEvents s.par bus reg c3 ++ pollEvents bus its3 ++ byteEvents s.par bus data c4 ++
        pollEvents bus its4 ++ stopEvents s.par bus c5)

/-- R115: whatever the environment does, a `RECEIVEBYTE` that responds 0x01 made exactly the events of the
micro-program, each poll ending on its first hit, and responds the byte its read of the data register returned. -/
def Obligations.ReceiveByteSuccessMadeTheExactEvents : Prop :=
  ∀ (bus dev reg : BitVec 8) (s t : State), s.par.legal = true → s.upc = .idle → s.Undisturbed →
    exec (.receiveByte bus dev reg) s = .next t → t.rspCode = 0x01#8 →
    ∃ c1 c2 c3 c4 c5 c6 c7 its1 its2 its3 its4 its5 its6,
      PollSucceeds s.par .start its1 ∧ PollSucceeds s.par .slaWAck its2 ∧ PollSucceeds s.par .dataTxAck its3 ∧
      PollSucceeds s.par .start its4 ∧ PollSucceeds s.par .slaRAck its5 ∧ PollSucceeds s.par .dataRxNack its6 ∧
      t.trace = s.trace ++ (startEvents s.par bus c1 ++ pollEvents bus its1 ++ addressEvents s.par bus dev 0#1 c2 ++
        pollEvents bus its2 ++ byteEvents s.par bus reg c3 ++ pollEvents bus its3 ++ startEvents s.par bus c4 ++
        pollEvents bus its4 ++ addressEvents s.par bus dev 1#1 c5 ++ pollEvents bus its5 ++ nackEvents s.par bus c6 ++
        pollEvents bus its6 ++ [.read bus .data t.rspData] ++ stopEvents s.par bus c7)

/-- R115, R112: whatever the environment does, a `RECEIVEBYTE` that fails has not read the data register, and one that
succeeds has read it exactly once and responds what it read. -/
def Obligations.ReceiveByteReadsDataOnce : Prop :=
  ∀ (bus dev reg : BitVec 8) (s t : State), s.par.legal = true → s.upc = .idle → s.Undisturbed →
    exec (.receiveByte bus dev reg) s = .next t →
    (newEvents s t).filter (fun ev => !ev.isWrite && ev.kind == .data) =
      if t.rspCode = 0x01#8 then [.read bus .data t.rspData] else []

/-- The frame of the two transaction commands, with R46: they touch only the control, status and data registers of
their own bus, write only the control and data registers, leave `idx`, `ps_l`, `br_l` alone, and every register that no
event of them wrote is as the environment's own moves left it. -/
def Obligations.TransactionFrame : Prop :=
  ∀ (i : Instr) (bus dev reg : BitVec 8) (s t : State),
    (i = .receiveByte bus dev reg ∨ ∃ data, i = .sendByte bus dev reg data) → s.upc = .idle → s.Undisturbed →
    exec i s = .next t →
    SamePlatform s t ∧ t.idx = s.idx ∧ t.psL = s.psL ∧ t.brL = s.brL ∧
    (∀ ev ∈ newEvents s t, ev.bus = bus ∧ ev.kind ≠ .br ∧ (ev.isWrite = true → ev.kind = .ctrl ∨ ev.kind = .data)) ∧
    (∀ a, NotWritten (newEvents s t) a → t.dev.get? a = (devAfter (newEvents s t).length s).get? a)

/-! ### INIT (42_init.md) -/

/-- R141: the null table. -/
def Obligations.InitWithoutTable : Prop :=
  ∀ s : State, s.upc = .idle → s.Undisturbed →
    ∃ t, exec (.init 0#1) s = .next t ∧ t.Answered 0x12#8 ∧ NoEvent s t ∧ SamePlatform s t

/-- R140, R142, R143, R145: every entry in index order, on the bus it names, clock then enable; five events an entry,
and the response 0x01. -/
def Obligations.InitConfiguresEveryEntry : Prop :=
  ∀ s : State, s.par.legal = true → s.upc = .idle → s.Undisturbed →
    (∀ e ∈ s.par.cfg, ∃ br ps, sclCompute s.par e.bus e.freq = .found br ps) →
    ∃ t, ∃ xs : List (Byte × Byte), exec (.init 1#1) s = .next t ∧ t.Answered 0x01#8 ∧ SamePlatform s t ∧
      xs.length = s.par.nBus ∧
      t.trace = s.trace ++ (s.par.cfg.zip xs).flatMap (fun ex => entryEvents s.par ex.1 ex.2) ∧
      (newEvents s t).length = 5 * s.par.nBus

/-- R144: the first failing entry ends `INIT`: its code, its index, no event of it or of a later entry, and the events
of the entries before it. -/
def Obligations.InitAbandonsAtTheFirstFailure : Prop :=
  ∀ (before after : List Config.CfgEntry) (e : Config.CfgEntry) (code : Byte) (s : State), s.par.legal = true →
    s.upc = .idle → s.Undisturbed → s.par.cfg = before ++ e :: after →
    (∀ x ∈ before, ∃ br ps, sclCompute s.par x.bus x.freq = .found br ps) →
    sclCompute s.par e.bus e.freq = .fail code →
    ∃ t, ∃ xs : List (Byte × Byte), exec (.init 1#1) s = .next t ∧
      t.AnsweredWith code (BitVec.ofNat 8 before.length) ∧ SamePlatform s t ∧ xs.length = before.length ∧
      t.trace = s.trace ++ (before.zip xs).flatMap (fun ex => entryEvents s.par ex.1 ex.2)

/-- The frame of `INIT`, with R46: it touches no data register and no bus that no entry names, leaves `cnt` and `done_l`
alone, and every register that no event of it wrote, those of the entries an abandoned `INIT` did not come to among them,
is as the environment's own moves left it. -/
def Obligations.InitFrame : Prop :=
  ∀ (cfgp : BitVec 1) (s t : State), s.par.legal = true → s.upc = .idle → s.Undisturbed →
    exec (.init cfgp) s = .next t →
    SamePlatform s t ∧ t.cnt = s.cnt ∧ t.doneL = s.doneL ∧
    (∀ ev ∈ newEvents s t, (∃ e ∈ s.par.cfg, ev.bus = e.bus) ∧ ev.kind ≠ .data) ∧
    (∀ a, NotWritten (newEvents s t) a → t.dev.get? a = (devAfter (newEvents s t).length s).get? a)

/-! ### Reset (70_reset_and_hazards.md) -/

/-- R170: after reset the sequencer is idle, no response is pending, and no event has been made. -/
def Obligations.ResetIsIdle : Prop :=
  State.reset.upc = .idle ∧ State.reset.rspValid = false ∧ State.reset.trace = []

/-- R170, R173: reset asserted at an idle sequencer makes no event and leaves the device registers alone. -/
def Obligations.ResetOfAnIdleSequencer : Prop :=
  ∀ (s : State) (rest : List HostAct), s.upc = .idle → s.host = .reset :: rest →
    ∃ t, step s = .next t ∧ t.upc = .idle ∧ t.rspValid = false ∧ NoEvent s t ∧ t.par = s.par ∧ t.host = rest

/-- R172: reset asserted where a command stands after `before.length` micro-operations and events.  Where it has not yet
responded, a command without events or with all its events made included, it is abandoned there: no further event, no
response, the device registers as they are.  Where it has, it is as it ended. -/
def Obligations.ResetAbandonsTheCommand : Prop :=
  ∀ (i : Instr) (before after : List Bool) (s : State), s.par.legal = true → s.upc = .idle →
    s.resetLine = before ++ true :: after → (∀ b ∈ before, b = false) →
    let a := accept (encode i) s
    let m := run (programOf a.opL) before.length a
    (m.upc ≠ .idle → ∃ t, exec i s = .next t ∧ t.upc = .idle ∧ t.rspValid = false ∧ NoEvent m t ∧ SamePlatform s t ∧
      t.resetLine = after) ∧
    (m.upc = .idle → exec i s = .next m ∧ m.rspValid = true)

/-! ### The whole machine -/

/-- The invariant holds after reset. -/
def Obligations.ResetMeetsTheInvariant : Prop := State.reset.Inv

/-- The invariant: legal parameters, register contents in canonical form inside the register space, `upc` idle or at a
position of the command in flight.  From every state that meets it, not only from those a run reaches, a step gives one
that meets it. -/
def Obligations.StepKeepsTheInvariant : Prop :=
  ∀ s t : State, s.Inv → step s = .next t → t.Inv

/-- R157: no error is fatal: from every state that meets the invariant a step answers a next state. -/
def Obligations.StepNeverStops : Prop := ∀ s : State, s.Inv → ∃ t, step s = .next t

/-- R14: every command returns to `IDLE`. -/
def Obligations.EveryCommandReturnsToIdle : Prop :=
  ∀ s t : State, s.Inv → step s = .next t → t.upc = .idle

/-- R185: every command ends, after a bounded number of events. -/
def Obligations.EventsAreBounded : Prop :=
  ∀ (i : Instr) (s : State), s.par.legal = true → s.upc = .idle → ∃ t, exec i s = .next t ∧ t.upc = .idle ∧
    match i with
    | .init _ => (newEvents s t).length ≤ 5 * s.par.nBus
    | .setScl _ _ => (newEvents s t).length ≤ 3
    | .sendByte _ _ _ _ => (newEvents s t).length ≤ 13 + 8 * s.par.tPoll
    | .receiveByte _ _ _ => (newEvents s t).length ≤ 18 + 12 * s.par.tPoll

/-- R48: a step only adds events, after those already made. -/
def Obligations.EventsAreNeverUnmade : Prop :=
  ∀ s t : State, step s = .next t → ∃ evs, t.trace = s.trace ++ evs

/-- R42: every access is to an existing bus. -/
def Obligations.AccessesAreToExistingBuses : Prop :=
  ∀ s t : State, s.Inv → step s = .next t → ∀ ev ∈ newEvents s t, ev.bus.toNat < s.par.nBus

/-- R27: the parameters and the configuration table do not change while the block runs. -/
def Obligations.ParametersNeverChange : Prop := ∀ s t : State, step s = .next t → t.par = s.par

/-- R11, R118: what a command does depends on no latch and no response register an earlier command left behind: with
the same parameters, device registers, environment and reset line, the same events, the same device registers after it,
and the same response.  That the two runs meet the same answers is said by the same script and the same count of free
values, which is the model's choice (log entries 11, 12). -/
def Obligations.NoHiddenState : Prop :=
  ∀ (i : Instr) (s s' t t' : State), s.par.legal = true → s.upc = .idle → s'.upc = .idle → s'.par = s.par →
    s'.dev = s.dev → s'.env = s.env → s'.resetLine = s.resetLine → s'.free = s.free →
    exec i s = .next t → exec i s' = .next t' →
    t'.upc = t.upc ∧ newEvents s' t' = newEvents s t ∧ t'.dev = t.dev ∧ t'.env = t.env ∧ t'.rspValid = t.rspValid ∧
      (t.rspValid = true → t'.rspCode = t.rspCode ∧ t'.rspDv = t.rspDv ∧ (t.rspDv = true → t'.rspData = t.rspData))

/-- R15: the source's state names fall just after each phase's poll and just after the Stop phase's write, and along
each micro-program they make the source's chain. -/
def Obligations.SourceStateNames : Prop :=
  (∀ s : State, s.upc = .idle → s.sourceState = some .idle) ∧
  (∀ (s : State) (i : Nat) (e : Expect) (code : Byte), s.opL = 3#4 → s.upc = .pos (i + 1) .first →
    sendByteProgram[i]? = some (.poll e code) →
    s.sourceState = match i with
      | 2 => some .startSent
      | 5 => some .addressSent
      | 8 => some .registerSent
      | _ => some .dataSent) ∧
  (∀ (s : State) (i : Nat) (e : Expect) (code : Byte), s.opL = 4#4 → s.upc = .pos (i + 1) .first →
    receiveByteProgram[i]? = some (.poll e code) →
    s.sourceState = match i with
      | 2 | 10 => some .startSent
      | 5 | 13 => some .addressSent
      | 8 => some .registerSent
      | _ => some .dataReceived) ∧
  (∀ (s : State) (i : Nat), s.opL = 3#4 ∨ s.opL = 4#4 → s.upc = .pos (i + 1) .first →
    (programOf s.opL)[i]? = some (.rmw .operand .ctrl .stop) → s.sourceState = some .stopSent) ∧
  (List.range sendByteProgram.length).filterMap
      (fun i => State.sourceState { State.reset with opL := 3#4, upc := .pos i .first }) =
    [.startSent, .addressSent, .registerSent, .dataSent, .stopSent] ∧
  (List.range receiveByteProgram.length).filterMap
      (fun i => State.sourceState { State.reset with opL := 4#4, upc := .pos i .first }) =
    [.startSent, .addressSent, .registerSent, .startSent, .addressSent, .dataReceived, .stopSent]
end

