-- ==== Sys2Proof/Laws/Encoding.lean ====
section
/-! SUPPORT. Fields of words put together from fields. -/

namespace Sys2Proof

theorem field_or (x y : Cmd) (lo len : Nat) : field (x ||| y) lo len = field x lo len ||| field y lo len := by
  simp [field, BitVec.extractLsb'_or]

/-- A field read back from its place. -/
theorem field_place_self {n : Nat} (v : BitVec n) (lo : Nat) (h : lo + n ≤ 64) : field (place v lo) lo n = v := by
  ext i hi
  have : lo + i < 64 := by omega
  simp [field, place, this, BitVec.getLsbD_eq_getElem hi]

/-- A field read where another one stands. -/
theorem field_place_apart {n : Nat} (v : BitVec n) (a lo len : Nat) (h : lo + len ≤ a ∨ a + n ≤ lo) :
    field (place v a) lo len = 0#len := by
  ext i hi
  simp [field, place]
  intro h1 h2
  have : n ≤ lo + i - a := by omega
  simp [BitVec.getLsbD_of_ge _ _ this]

theorem field_bit (w : Cmd) (lo len k : Nat) :
    (field w lo len).getLsbD k = (decide (k < len) && w.getLsbD (lo + k)) := by
  simp [field]

theorem place_bit {n : Nat} (v : BitVec n) (lo k : Nat) :
    (place v lo).getLsbD k = (decide (k < 64 ∧ lo ≤ k) && v.getLsbD (k - lo)) := by
  simp only [place, BitVec.getLsbD_shiftLeft, BitVec.getLsbD_setWidth]
  by_cases h1 : k < 64 <;> by_cases h2 : lo ≤ k
  · have h3 : ¬ k < lo := by omega
    have h4 : k - lo < 64 := by omega
    simp [h1, h2, h3, h4]
  all_goals simp [h1, h2]

/-- Every bit of a field that is known. -/
theorem bit_of_field {w : Cmd} {lo len : Nat} {c : BitVec len} (h : field w lo len = c) (k : Nat) (h1 : lo ≤ k)
    (h2 : k < lo + len) : w.getLsbD k = c.getLsbD (k - lo) := by
  have h3 : k - lo < len := by omega
  have h4 : lo + (k - lo) = k := by omega
  rw [← h, field_bit]
  simp [h3, h4]

theorem field_and (x y : Cmd) (lo len : Nat) : field (x &&& y) lo len = field x lo len &&& field y lo len := by
  simp [field, BitVec.extractLsb'_and]

/-- Words with the same field have the same bits there. -/
theorem bit_eq_of_field {w v : Cmd} {lo len : Nat} (h : field w lo len = field v lo len) (k : Nat) (h1 : lo ≤ k)
    (h2 : k < lo + len) : w.getLsbD k = v.getLsbD k := by
  rw [bit_of_field h k h1 h2, field_bit]
  have e : lo + (k - lo) = k := by omega
  have : k - lo < len := by omega
  simp [this, e]

/-- Everything that is known of a word the decoder accepts. -/
theorem decode_cases {w : Cmd} {i : Instr} (h : decode w = .ok i) :
    rsvField w = 0#4 ∧
   ((opField w = 1#4 ∧ field w 1 55 = 0#55 ∧ i = .init (cfgpField w)) ∨
    (opField w = 2#4 ∧ field w 32 16 = 0#16 ∧ i = .setScl (busField w) (freqField w)) ∨
    (opField w = 3#4 ∧ field w 0 24 = 0#24 ∧ i = .sendByte (busField w) (devField w) (regField w) (dataField w)) ∨
    (opField w = 4#4 ∧ field w 0 32 = 0#32 ∧ i = .receiveByte (busField w) (devField w) (regField w))) := by
  unfold decode at h
  split at h
  · cases h
  rename_i hr
  refine ⟨by simpa using hr, ?_⟩
  split at h
  · split at h <;> cases h; simp [*]
  split at h
  · split at h <;> cases h; simp [*]
  split at h
  · split at h <;> cases h; simp [*]
  split at h
  · split at h <;> cases h; simp [*]
  · cases h

end Sys2Proof
end

