-- ==== Sys2Proof/Laws/Memory.lean ====
section
/-! SUPPORT. The memory operations keep the canonical form, and the read-after-write laws. -/

namespace Sys2Proof.Machine

namespace Memory

theorem wf_tail {c : Host.Cell} {m : Memory} (h : wf (c :: m) = true) : wf m = true := by
  cases m with
  | nil => rfl
  | cons d m => simp [wf] at h; exact h.2

theorem wf_cons {c : Host.Cell} {m : Memory} (h : wf m = true) (hc : ∀ d ∈ m.head?, c.1 < d.1) :
    wf (c :: m) = true := by
  cases m with
  | nil => rfl
  | cons d m => simp [wf, h]; exact hc d (by simp)

/-- In canonical form every later location is above the first. -/
theorem lt_of_mem {c d : Host.Cell} {m : Memory} (h : wf (c :: m) = true) (hd : d ∈ m) : c.1 < d.1 := by
  induction m generalizing c with
  | nil => cases hd
  | cons e m ih =>
    have hce : c.1 < e.1 := by simp [wf] at h; exact h.1
    rcases List.mem_cons.1 hd with rfl | hd
    · exact hce
    · exact lt_trans hce (ih (wf_tail h) hd)

theorem set_head (m : Memory) (a : Nat) (v : Byte) (c : Nat) (ha : c < a) (hm : ∀ d ∈ m.head?, c < d.1) :
    ∀ d ∈ (set m a v).head?, c < d.1 := by
  cases m with
  | nil => simp [set, ha]
  | cons e m =>
    simp only [set]
    split
    · simp [ha]
    · split
      · simp [ha]
      · simpa using hm

/-- Recording a register's content keeps the canonical form. -/
theorem wf_set {m : Memory} (h : wf m = true) (a : Nat) (v : Byte) : wf (set m a v) = true := by
  induction m with
  | nil => rfl
  | cons c m ih =>
    simp only [set]
    split
    · rename_i hlt; exact wf_cons h (by simpa using hlt)
    · rename_i hge
      split
      · rename_i heq
        refine wf_cons (wf_tail h) ?_
        intro d hd
        have : d ∈ m := List.mem_of_mem_head? hd
        have := lt_of_mem h this
        simpa [heq] using this
      · rename_i hne
        refine wf_cons (ih (wf_tail h)) ?_
        refine set_head m a v c.1 (by omega) ?_
        intro d hd
        exact lt_of_mem h (List.mem_of_mem_head? hd)

/-- The environment's changes keep the canonical form. -/
theorem wf_apply {m : Memory} (h : wf m = true) (n : Nat) (cells : List Host.Cell) :
    wf (apply n m cells) = true := by
  induction cells generalizing m with
  | nil => exact h
  | cons c cells ih =>
    simp only [apply]
    split
    · exact ih (wf_set h _ _)
    · exact ih h

theorem within_set {n : Nat} {m : Memory} (h : within n m = true) {a : Nat} (ha : a < n) (v : Byte) :
    within n (set m a v) = true := by
  induction m with
  | nil => simp [set, within, ha]
  | cons c m ih =>
    simp only [within, List.all_cons, Bool.and_eq_true, decide_eq_true_eq] at h ih
    simp only [set]
    split
    · simp [within, ha, h.1]; simpa using h.2
    · split
      · simp [within, ha]; simpa using h.2
      · simp [within, h.1]; simpa [within] using ih h.2

theorem within_apply {n : Nat} {m : Memory} (h : within n m = true) (cells : List Host.Cell) :
    within n (apply n m cells) = true := by
  induction cells generalizing m with
  | nil => exact h
  | cons c cells ih =>
    simp only [apply]
    split
    · rename_i hc; exact ih (within_set h hc _)
    · exact ih h

/-- Reading the location just written gives what was written; this holds of any list. -/
@[simp] theorem get?_set_self (m : Memory) (a : Nat) (v : Byte) : get? (set m a v) a = some v := by
  induction m with
  | nil => simp [set, get?]
  | cons c m ih =>
    simp only [set]
    split
    · simp [get?]
    · split
      · simp [get?]
      · rename_i h; simp [get?, ih, Ne.symm h]

/-- Writing a location leaves every other one alone. -/
theorem get?_set_ne (m : Memory) (a b : Nat) (v : Byte) (hab : b ≠ a) : get? (set m a v) b = get? m b := by
  induction m with
  | nil => simp [set, get?, Ne.symm hab]
  | cons c m ih =>
    simp only [set]
    split
    · simp [get?, Ne.symm hab]
    · split
      · rename_i _ h; simp [get?, ← h, Ne.symm hab]
      · simp [get?, ih]

/-- Two memories that agree on a location still agree on it after the environment's changes. -/
theorem get?_apply_congr (n : Nat) (cells : List Host.Cell) (m m' : Memory) (a : Nat)
    (h : get? m a = get? m' a) : get? (apply n m cells) a = get? (apply n m' cells) a := by
  induction cells generalizing m m' with
  | nil => exact h
  | cons c cells ih =>
    simp only [apply]
    apply ih
    split
    · by_cases hc : a = c.1
      · subst hc; simp
      · rw [get?_set_ne _ _ _ _ hc, get?_set_ne _ _ _ _ hc, h]
    · exact h

end Memory

/-- A register of an existing bus lies in the register space (20_memory.md R40). -/
theorem loc_lt (s : State) (b : BitVec 8) (k : Kind) (h : b.toNat < s.par.nBus) : loc b k < s.locations := by
  have : k.index < 4 := by cases k <;> simp [Kind.index]
  simp [loc, State.locations]; omega

/-- `loc` is injective (20_memory.md R40). -/
theorem loc_injective {b b' : BitVec 8} {k k' : Kind} (h : loc b k = loc b' k') : b = b' ∧ k = k' := by
  have hb : b.toNat = b'.toNat ∧ k.index = k'.index := by
    have : k.index < 4 := by cases k <;> simp [Kind.index]
    have : k'.index < 4 := by cases k' <;> simp [Kind.index]
    simp [loc] at h; omega
  refine ⟨BitVec.eq_of_toNat_eq hb.1, ?_⟩
  cases k <;> cases k' <;> simp_all [Kind.index]

end Sys2Proof.Machine
end

