-- ==== Sys2Proof/Laws/State.lean ====
section
/-! SUPPORT. One lemma per field per update of the state, so that no proof unfolds a record update. -/

namespace Sys2Proof.Machine

/-! ### `accept` -/

@[simp] theorem accept_upc (w : Cmd) (s : State) : (accept w s).upc = .pos 0 .first := rfl
@[simp] theorem accept_opL (w : Cmd) (s : State) : (accept w s).opL = opField w := rfl
@[simp] theorem accept_busL (w : Cmd) (s : State) : (accept w s).busL = busField w := rfl
@[simp] theorem accept_devL (w : Cmd) (s : State) : (accept w s).devL = devField w := rfl
@[simp] theorem accept_regL (w : Cmd) (s : State) : (accept w s).regL = regField w := rfl
@[simp] theorem accept_datL (w : Cmd) (s : State) : (accept w s).datL = dataField w := rfl
@[simp] theorem accept_freqL (w : Cmd) (s : State) : (accept w s).freqL = freqField w := rfl
@[simp] theorem accept_cfgpL (w : Cmd) (s : State) : (accept w s).cfgpL = cfgpField w := rfl
@[simp] theorem accept_tmp (w : Cmd) (s : State) : (accept w s).tmp = s.tmp := rfl
@[simp] theorem accept_doneL (w : Cmd) (s : State) : (accept w s).doneL = s.doneL := rfl
@[simp] theorem accept_cnt (w : Cmd) (s : State) : (accept w s).cnt = s.cnt := rfl
@[simp] theorem accept_idx (w : Cmd) (s : State) : (accept w s).idx = s.idx := rfl
@[simp] theorem accept_psL (w : Cmd) (s : State) : (accept w s).psL = s.psL := rfl
@[simp] theorem accept_brL (w : Cmd) (s : State) : (accept w s).brL = s.brL := rfl
@[simp] theorem accept_rspValid (w : Cmd) (s : State) : (accept w s).rspValid = false := rfl
@[simp] theorem accept_rspCode (w : Cmd) (s : State) : (accept w s).rspCode = Config.freeRspCode s.free := rfl
@[simp] theorem accept_rspDv (w : Cmd) (s : State) : (accept w s).rspDv = Config.freeRspDv s.free := rfl
@[simp] theorem accept_rspData (w : Cmd) (s : State) : (accept w s).rspData = Config.freeRspData s.free := rfl
@[simp] theorem accept_dev (w : Cmd) (s : State) : (accept w s).dev = s.dev := rfl
@[simp] theorem accept_host (w : Cmd) (s : State) : (accept w s).host = s.host := rfl
@[simp] theorem accept_env (w : Cmd) (s : State) : (accept w s).env = s.env := rfl
@[simp] theorem accept_resetLine (w : Cmd) (s : State) : (accept w s).resetLine = s.resetLine := rfl
@[simp] theorem accept_par (w : Cmd) (s : State) : (accept w s).par = s.par := rfl
@[simp] theorem accept_trace (w : Cmd) (s : State) : (accept w s).trace = s.trace := rfl
@[simp] theorem accept_free (w : Cmd) (s : State) : (accept w s).free = s.free + 1 := rfl

/-! ### `respond` -/

@[simp] theorem respond_upc (c : Byte) (s : State) : (respond c s).upc = .idle := rfl
@[simp] theorem respond_opL (c : Byte) (s : State) : (respond c s).opL = s.opL := rfl
@[simp] theorem respond_busL (c : Byte) (s : State) : (respond c s).busL = s.busL := rfl
@[simp] theorem respond_devL (c : Byte) (s : State) : (respond c s).devL = s.devL := rfl
@[simp] theorem respond_regL (c : Byte) (s : State) : (respond c s).regL = s.regL := rfl
@[simp] theorem respond_datL (c : Byte) (s : State) : (respond c s).datL = s.datL := rfl
@[simp] theorem respond_freqL (c : Byte) (s : State) : (respond c s).freqL = s.freqL := rfl
@[simp] theorem respond_cfgpL (c : Byte) (s : State) : (respond c s).cfgpL = s.cfgpL := rfl
@[simp] theorem respond_tmp (c : Byte) (s : State) : (respond c s).tmp = s.tmp := rfl
@[simp] theorem respond_doneL (c : Byte) (s : State) : (respond c s).doneL = s.doneL := rfl
@[simp] theorem respond_cnt (c : Byte) (s : State) : (respond c s).cnt = s.cnt := rfl
@[simp] theorem respond_idx (c : Byte) (s : State) : (respond c s).idx = s.idx := rfl
@[simp] theorem respond_psL (c : Byte) (s : State) : (respond c s).psL = s.psL := rfl
@[simp] theorem respond_brL (c : Byte) (s : State) : (respond c s).brL = s.brL := rfl
@[simp] theorem respond_rspValid (c : Byte) (s : State) : (respond c s).rspValid = true := rfl
@[simp] theorem respond_rspCode (c : Byte) (s : State) : (respond c s).rspCode = c := rfl
@[simp] theorem respond_rspDv (c : Byte) (s : State) : (respond c s).rspDv = false := rfl
@[simp] theorem respond_rspData (c : Byte) (s : State) : (respond c s).rspData = Config.freeRspData s.free := rfl
@[simp] theorem respond_dev (c : Byte) (s : State) : (respond c s).dev = s.dev := rfl
@[simp] theorem respond_host (c : Byte) (s : State) : (respond c s).host = s.host := rfl
@[simp] theorem respond_env (c : Byte) (s : State) : (respond c s).env = s.env := rfl
@[simp] theorem respond_resetLine (c : Byte) (s : State) : (respond c s).resetLine = s.resetLine := rfl
@[simp] theorem respond_par (c : Byte) (s : State) : (respond c s).par = s.par := rfl
@[simp] theorem respond_trace (c : Byte) (s : State) : (respond c s).trace = s.trace := rfl
@[simp] theorem respond_free (c : Byte) (s : State) : (respond c s).free = s.free + 1 := rfl

/-! ### `respondData` -/

@[simp] theorem respondData_upc (c d : Byte) (s : State) : (respondData c d s).upc = .idle := rfl
@[simp] theorem respondData_opL (c d : Byte) (s : State) : (respondData c d s).opL = s.opL := rfl
@[simp] theorem respondData_busL (c d : Byte) (s : State) : (respondData c d s).busL = s.busL := rfl
@[simp] theorem respondData_devL (c d : Byte) (s : State) : (respondData c d s).devL = s.devL := rfl
@[simp] theorem respondData_regL (c d : Byte) (s : State) : (respondData c d s).regL = s.regL := rfl
@[simp] theorem respondData_datL (c d : Byte) (s : State) : (respondData c d s).datL = s.datL := rfl
@[simp] theorem respondData_freqL (c d : Byte) (s : State) : (respondData c d s).freqL = s.freqL := rfl
@[simp] theorem respondData_cfgpL (c d : Byte) (s : State) : (respondData c d s).cfgpL = s.cfgpL := rfl
@[simp] theorem respondData_tmp (c d : Byte) (s : State) : (respondData c d s).tmp = s.tmp := rfl
@[simp] theorem respondData_doneL (c d : Byte) (s : State) : (respondData c d s).doneL = s.doneL := rfl
@[simp] theorem respondData_cnt (c d : Byte) (s : State) : (respondData c d s).cnt = s.cnt := rfl
@[simp] theorem respondData_idx (c d : Byte) (s : State) : (respondData c d s).idx = s.idx := rfl
@[simp] theorem respondData_psL (c d : Byte) (s : State) : (respondData c d s).psL = s.psL := rfl
@[simp] theorem respondData_brL (c d : Byte) (s : State) : (respondData c d s).brL = s.brL := rfl
@[simp] theorem respondData_rspValid (c d : Byte) (s : State) : (respondData c d s).rspValid = true := rfl
@[simp] theorem respondData_rspCode (c d : Byte) (s : State) : (respondData c d s).rspCode = c := rfl
@[simp] theorem respondData_rspDv (c d : Byte) (s : State) : (respondData c d s).rspDv = true := rfl
@[simp] theorem respondData_rspData (c d : Byte) (s : State) : (respondData c d s).rspData = d := rfl
@[simp] theorem respondData_dev (c d : Byte) (s : State) : (respondData c d s).dev = s.dev := rfl
@[simp] theorem respondData_host (c d : Byte) (s : State) : (respondData c d s).host = s.host := rfl
@[simp] theorem respondData_env (c d : Byte) (s : State) : (respondData c d s).env = s.env := rfl
@[simp] theorem respondData_resetLine (c d : Byte) (s : State) : (respondData c d s).resetLine = s.resetLine := rfl
@[simp] theorem respondData_par (c d : Byte) (s : State) : (respondData c d s).par = s.par := rfl
@[simp] theorem respondData_trace (c d : Byte) (s : State) : (respondData c d s).trace = s.trace := rfl
@[simp] theorem respondData_free (c d : Byte) (s : State) : (respondData c d s).free = s.free := rfl

/-! ### `advance` -/

@[simp] theorem advance_upc (i : Nat) (s : State) : (advance i s).upc = .pos (i + 1) .first := rfl
@[simp] theorem advance_opL (i : Nat) (s : State) : (advance i s).opL = s.opL := rfl
@[simp] theorem advance_busL (i : Nat) (s : State) : (advance i s).busL = s.busL := rfl
@[simp] theorem advance_devL (i : Nat) (s : State) : (advance i s).devL = s.devL := rfl
@[simp] theorem advance_regL (i : Nat) (s : State) : (advance i s).regL = s.regL := rfl
@[simp] theorem advance_datL (i : Nat) (s : State) : (advance i s).datL = s.datL := rfl
@[simp] theorem advance_freqL (i : Nat) (s : State) : (advance i s).freqL = s.freqL := rfl
@[simp] theorem advance_cfgpL (i : Nat) (s : State) : (advance i s).cfgpL = s.cfgpL := rfl
@[simp] theorem advance_tmp (i : Nat) (s : State) : (advance i s).tmp = s.tmp := rfl
@[simp] theorem advance_doneL (i : Nat) (s : State) : (advance i s).doneL = s.doneL := rfl
@[simp] theorem advance_cnt (i : Nat) (s : State) : (advance i s).cnt = s.cnt := rfl
@[simp] theorem advance_idx (i : Nat) (s : State) : (advance i s).idx = s.idx := rfl
@[simp] theorem advance_psL (i : Nat) (s : State) : (advance i s).psL = s.psL := rfl
@[simp] theorem advance_brL (i : Nat) (s : State) : (advance i s).brL = s.brL := rfl
@[simp] theorem advance_rspValid (i : Nat) (s : State) : (advance i s).rspValid = s.rspValid := rfl
@[simp] theorem advance_rspCode (i : Nat) (s : State) : (advance i s).rspCode = s.rspCode := rfl
@[simp] theorem advance_rspDv (i : Nat) (s : State) : (advance i s).rspDv = s.rspDv := rfl
@[simp] theorem advance_rspData (i : Nat) (s : State) : (advance i s).rspData = s.rspData := rfl
@[simp] theorem advance_dev (i : Nat) (s : State) : (advance i s).dev = s.dev := rfl
@[simp] theorem advance_host (i : Nat) (s : State) : (advance i s).host = s.host := rfl
@[simp] theorem advance_env (i : Nat) (s : State) : (advance i s).env = s.env := rfl
@[simp] theorem advance_resetLine (i : Nat) (s : State) : (advance i s).resetLine = s.resetLine := rfl
@[simp] theorem advance_par (i : Nat) (s : State) : (advance i s).par = s.par := rfl
@[simp] theorem advance_trace (i : Nat) (s : State) : (advance i s).trace = s.trace := rfl
@[simp] theorem advance_free (i : Nat) (s : State) : (advance i s).free = s.free := rfl

/-! ### `regWrite` -/

@[simp] theorem regWrite_upc (b : BitVec 8) (k : Kind) (v : Byte) (s : State) : (regWrite b k v s).upc = s.upc := rfl
@[simp] theorem regWrite_opL (b : BitVec 8) (k : Kind) (v : Byte) (s : State) : (regWrite b k v s).opL = s.opL := rfl
@[simp] theorem regWrite_busL (b : BitVec 8) (k : Kind) (v : Byte) (s : State) : (regWrite b k v s).busL = s.busL := rfl
@[simp] theorem regWrite_devL (b : BitVec 8) (k : Kind) (v : Byte) (s : State) : (regWrite b k v s).devL = s.devL := rfl
@[simp] theorem regWrite_regL (b : BitVec 8) (k : Kind) (v : Byte) (s : State) : (regWrite b k v s).regL = s.regL := rfl
@[simp] theorem regWrite_datL (b : BitVec 8) (k : Kind) (v : Byte) (s : State) : (regWrite b k v s).datL = s.datL := rfl
@[simp] theorem regWrite_freqL (b : BitVec 8) (k : Kind) (v : Byte) (s : State) : (regWrite b k v s).freqL = s.freqL := rfl
@[simp] theorem regWrite_cfgpL (b : BitVec 8) (k : Kind) (v : Byte) (s : State) : (regWrite b k v s).cfgpL = s.cfgpL := rfl
@[simp] theorem regWrite_tmp (b : BitVec 8) (k : Kind) (v : Byte) (s : State) : (regWrite b k v s).tmp = s.tmp := rfl
@[simp] theorem regWrite_doneL (b : BitVec 8) (k : Kind) (v : Byte) (s : State) : (regWrite b k v s).doneL = s.doneL := rfl
@[simp] theorem regWrite_cnt (b : BitVec 8) (k : Kind) (v : Byte) (s : State) : (regWrite b k v s).cnt = s.cnt := rfl
@[simp] theorem regWrite_idx (b : BitVec 8) (k : Kind) (v : Byte) (s : State) : (regWrite b k v s).idx = s.idx := rfl
@[simp] theorem regWrite_psL (b : BitVec 8) (k : Kind) (v : Byte) (s : State) : (regWrite b k v s).psL = s.psL := rfl
@[simp] theorem regWrite_brL (b : BitVec 8) (k : Kind) (v : Byte) (s : State) : (regWrite b k v s).brL = s.brL := rfl
@[simp] theorem regWrite_rspValid (b : BitVec 8) (k : Kind) (v : Byte) (s : State) : (regWrite b k v s).rspValid = s.rspValid := rfl
@[simp] theorem regWrite_rspCode (b : BitVec 8) (k : Kind) (v : Byte) (s : State) : (regWrite b k v s).rspCode = s.rspCode := rfl
@[simp] theorem regWrite_rspDv (b : BitVec 8) (k : Kind) (v : Byte) (s : State) : (regWrite b k v s).rspDv = s.rspDv := rfl
@[simp] theorem regWrite_rspData (b : BitVec 8) (k : Kind) (v : Byte) (s : State) : (regWrite b k v s).rspData = s.rspData := rfl
@[simp] theorem regWrite_dev (b : BitVec 8) (k : Kind) (v : Byte) (s : State) : (regWrite b k v s).dev = s.dev.set (loc b k) v := rfl
@[simp] theorem regWrite_host (b : BitVec 8) (k : Kind) (v : Byte) (s : State) : (regWrite b k v s).host = s.host := rfl
@[simp] theorem regWrite_env (b : BitVec 8) (k : Kind) (v : Byte) (s : State) : (regWrite b k v s).env = s.env := rfl
@[simp] theorem regWrite_resetLine (b : BitVec 8) (k : Kind) (v : Byte) (s : State) : (regWrite b k v s).resetLine = s.resetLine := rfl
@[simp] theorem regWrite_par (b : BitVec 8) (k : Kind) (v : Byte) (s : State) : (regWrite b k v s).par = s.par := rfl
@[simp] theorem regWrite_trace (b : BitVec 8) (k : Kind) (v : Byte) (s : State) : (regWrite b k v s).trace = s.trace ++ [.write b k v] := rfl
@[simp] theorem regWrite_free (b : BitVec 8) (k : Kind) (v : Byte) (s : State) : (regWrite b k v s).free = s.free := rfl

/-! ### `resetInput` -/

@[simp] theorem resetInput_upc (s : State) : (resetInput s).upc = .idle := rfl
@[simp] theorem resetInput_opL (s : State) : (resetInput s).opL = 0#4 := rfl
@[simp] theorem resetInput_busL (s : State) : (resetInput s).busL = 0#8 := rfl
@[simp] theorem resetInput_devL (s : State) : (resetInput s).devL = 0#8 := rfl
@[simp] theorem resetInput_regL (s : State) : (resetInput s).regL = 0#8 := rfl
@[simp] theorem resetInput_datL (s : State) : (resetInput s).datL = 0#8 := rfl
@[simp] theorem resetInput_freqL (s : State) : (resetInput s).freqL = 0#32 := rfl
@[simp] theorem resetInput_cfgpL (s : State) : (resetInput s).cfgpL = 0#1 := rfl
@[simp] theorem resetInput_tmp (s : State) : (resetInput s).tmp = 0#8 := rfl
@[simp] theorem resetInput_doneL (s : State) : (resetInput s).doneL = false := rfl
@[simp] theorem resetInput_cnt (s : State) : (resetInput s).cnt = 0#32 := rfl
@[simp] theorem resetInput_idx (s : State) : (resetInput s).idx = 0#9 := rfl
@[simp] theorem resetInput_psL (s : State) : (resetInput s).psL = 0#2 := rfl
@[simp] theorem resetInput_brL (s : State) : (resetInput s).brL = 0#8 := rfl
@[simp] theorem resetInput_rspValid (s : State) : (resetInput s).rspValid = false := rfl
@[simp] theorem resetInput_rspCode (s : State) : (resetInput s).rspCode = 0#8 := rfl
@[simp] theorem resetInput_rspDv (s : State) : (resetInput s).rspDv = false := rfl
@[simp] theorem resetInput_rspData (s : State) : (resetInput s).rspData = 0#8 := rfl
@[simp] theorem resetInput_dev (s : State) : (resetInput s).dev = s.dev := rfl
@[simp] theorem resetInput_host (s : State) : (resetInput s).host = s.host := rfl
@[simp] theorem resetInput_env (s : State) : (resetInput s).env = s.env := rfl
@[simp] theorem resetInput_resetLine (s : State) : (resetInput s).resetLine = s.resetLine := rfl
@[simp] theorem resetInput_par (s : State) : (resetInput s).par = s.par := rfl
@[simp] theorem resetInput_trace (s : State) : (resetInput s).trace = s.trace := rfl
@[simp] theorem resetInput_free (s : State) : (resetInput s).free = s.free := rfl

/-! ### `sampled` -/

@[simp] theorem sampled_upc (s : State) : (sampled s).upc = s.upc := rfl
@[simp] theorem sampled_opL (s : State) : (sampled s).opL = s.opL := rfl
@[simp] theorem sampled_busL (s : State) : (sampled s).busL = s.busL := rfl
@[simp] theorem sampled_devL (s : State) : (sampled s).devL = s.devL := rfl
@[simp] theorem sampled_regL (s : State) : (sampled s).regL = s.regL := rfl
@[simp] theorem sampled_datL (s : State) : (sampled s).datL = s.datL := rfl
@[simp] theorem sampled_freqL (s : State) : (sampled s).freqL = s.freqL := rfl
@[simp] theorem sampled_cfgpL (s : State) : (sampled s).cfgpL = s.cfgpL := rfl
@[simp] theorem sampled_tmp (s : State) : (sampled s).tmp = s.tmp := rfl
@[simp] theorem sampled_doneL (s : State) : (sampled s).doneL = s.doneL := rfl
@[simp] theorem sampled_cnt (s : State) : (sampled s).cnt = s.cnt := rfl
@[simp] theorem sampled_idx (s : State) : (sampled s).idx = s.idx := rfl
@[simp] theorem sampled_psL (s : State) : (sampled s).psL = s.psL := rfl
@[simp] theorem sampled_brL (s : State) : (sampled s).brL = s.brL := rfl
@[simp] theorem sampled_rspValid (s : State) : (sampled s).rspValid = s.rspValid := rfl
@[simp] theorem sampled_rspCode (s : State) : (sampled s).rspCode = s.rspCode := rfl
@[simp] theorem sampled_rspDv (s : State) : (sampled s).rspDv = s.rspDv := rfl
@[simp] theorem sampled_rspData (s : State) : (sampled s).rspData = s.rspData := rfl
@[simp] theorem sampled_dev (s : State) : (sampled s).dev = s.dev := rfl
@[simp] theorem sampled_host (s : State) : (sampled s).host = s.host := rfl
@[simp] theorem sampled_env (s : State) : (sampled s).env = s.env := rfl
@[simp] theorem sampled_par (s : State) : (sampled s).par = s.par := rfl
@[simp] theorem sampled_trace (s : State) : (sampled s).trace = s.trace := rfl
@[simp] theorem sampled_free (s : State) : (sampled s).free = s.free := rfl
@[simp] theorem sampled_resetLine (s : State) : (sampled s).resetLine = s.resetLine.tail := rfl

/-! ### `envMove` -/

@[simp] theorem envMove_upc (s : State) : (envMove s).upc = s.upc := by
  unfold envMove; cases s.env <;> rfl
@[simp] theorem envMove_opL (s : State) : (envMove s).opL = s.opL := by
  unfold envMove; cases s.env <;> rfl
@[simp] theorem envMove_busL (s : State) : (envMove s).busL = s.busL := by
  unfold envMove; cases s.env <;> rfl
@[simp] theorem envMove_devL (s : State) : (envMove s).devL = s.devL := by
  unfold envMove; cases s.env <;> rfl
@[simp] theorem envMove_regL (s : State) : (envMove s).regL = s.regL := by
  unfold envMove; cases s.env <;> rfl
@[simp] theorem envMove_datL (s : State) : (envMove s).datL = s.datL := by
  unfold envMove; cases s.env <;> rfl
@[simp] theorem envMove_freqL (s : State) : (envMove s).freqL = s.freqL := by
  unfold envMove; cases s.env <;> rfl
@[simp] theorem envMove_cfgpL (s : State) : (envMove s).cfgpL = s.cfgpL := by
  unfold envMove; cases s.env <;> rfl
@[simp] theorem envMove_tmp (s : State) : (envMove s).tmp = s.tmp := by
  unfold envMove; cases s.env <;> rfl
@[simp] theorem envMove_doneL (s : State) : (envMove s).doneL = s.doneL := by
  unfold envMove; cases s.env <;> rfl
@[simp] theorem envMove_cnt (s : State) : (envMove s).cnt = s.cnt := by
  unfold envMove; cases s.env <;> rfl
@[simp] theorem envMove_idx (s : State) : (envMove s).idx = s.idx := by
  unfold envMove; cases s.env <;> rfl
@[simp] theorem envMove_psL (s : State) : (envMove s).psL = s.psL := by
  unfold envMove; cases s.env <;> rfl
@[simp] theorem envMove_brL (s : State) : (envMove s).brL = s.brL := by
  unfold envMove; cases s.env <;> rfl
@[simp] theorem envMove_rspValid (s : State) : (envMove s).rspValid = s.rspValid := by
  unfold envMove; cases s.env <;> rfl
@[simp] theorem envMove_rspCode (s : State) : (envMove s).rspCode = s.rspCode := by
  unfold envMove; cases s.env <;> rfl
@[simp] theorem envMove_rspDv (s : State) : (envMove s).rspDv = s.rspDv := by
  unfold envMove; cases s.env <;> rfl
@[simp] theorem envMove_rspData (s : State) : (envMove s).rspData = s.rspData := by
  unfold envMove; cases s.env <;> rfl
theorem envMove_dev_nil (s : State) (h : s.env = []) : (envMove s).dev = [] := by
  simp [envMove, h]
theorem envMove_dev_cons (s : State) (m : Move) (rest : List Move) (h : s.env = m :: rest) :
    (envMove s).dev = Memory.apply s.locations s.dev m.cells := by
  simp [envMove, h]
@[simp] theorem envMove_host (s : State) : (envMove s).host = s.host := by
  unfold envMove; cases s.env <;> rfl
@[simp] theorem envMove_env (s : State) : (envMove s).env = s.env.tail := by
  unfold envMove; cases s.env <;> rfl
@[simp] theorem envMove_resetLine (s : State) : (envMove s).resetLine = s.resetLine := by
  unfold envMove; cases s.env <;> rfl
@[simp] theorem envMove_par (s : State) : (envMove s).par = s.par := by
  unfold envMove; cases s.env <;> rfl
@[simp] theorem envMove_trace (s : State) : (envMove s).trace = s.trace := by
  unfold envMove; cases s.env <;> rfl
@[simp] theorem envMove_free (s : State) : (envMove s).free = s.free := by
  unfold envMove; cases s.env <;> rfl

theorem envMove_sampled (s : State) : envMove (sampled s) = sampled (envMove s) := by
  unfold envMove; cases h : s.env <;> simp only [sampled_env, h] <;> rfl

/-! ### `regRead` -/

@[simp] theorem regRead_upc (b : BitVec 8) (k : Kind) (s : State) : (regRead b k s).2.upc = s.upc := by
  unfold regRead; cases s.dev.get? (loc b k) <;> rfl
@[simp] theorem regRead_opL (b : BitVec 8) (k : Kind) (s : State) : (regRead b k s).2.opL = s.opL := by
  unfold regRead; cases s.dev.get? (loc b k) <;> rfl
@[simp] theorem regRead_busL (b : BitVec 8) (k : Kind) (s : State) : (regRead b k s).2.busL = s.busL := by
  unfold regRead; cases s.dev.get? (loc b k) <;> rfl
@[simp] theorem regRead_devL (b : BitVec 8) (k : Kind) (s : State) : (regRead b k s).2.devL = s.devL := by
  unfold regRead; cases s.dev.get? (loc b k) <;> rfl
@[simp] theorem regRead_regL (b : BitVec 8) (k : Kind) (s : State) : (regRead b k s).2.regL = s.regL := by
  unfold regRead; cases s.dev.get? (loc b k) <;> rfl
@[simp] theorem regRead_datL (b : BitVec 8) (k : Kind) (s : State) : (regRead b k s).2.datL = s.datL := by
  unfold regRead; cases s.dev.get? (loc b k) <;> rfl
@[simp] theorem regRead_freqL (b : BitVec 8) (k : Kind) (s : State) : (regRead b k s).2.freqL = s.freqL := by
  unfold regRead; cases s.dev.get? (loc b k) <;> rfl
@[simp] theorem regRead_cfgpL (b : BitVec 8) (k : Kind) (s : State) : (regRead b k s).2.cfgpL = s.cfgpL := by
  unfold regRead; cases s.dev.get? (loc b k) <;> rfl
@[simp] theorem regRead_tmp (b : BitVec 8) (k : Kind) (s : State) : (regRead b k s).2.tmp = s.tmp := by
  unfold regRead; cases s.dev.get? (loc b k) <;> rfl
@[simp] theorem regRead_doneL (b : BitVec 8) (k : Kind) (s : State) : (regRead b k s).2.doneL = s.doneL := by
  unfold regRead; cases s.dev.get? (loc b k) <;> rfl
@[simp] theorem regRead_cnt (b : BitVec 8) (k : Kind) (s : State) : (regRead b k s).2.cnt = s.cnt := by
  unfold regRead; cases s.dev.get? (loc b k) <;> rfl
@[simp] theorem regRead_idx (b : BitVec 8) (k : Kind) (s : State) : (regRead b k s).2.idx = s.idx := by
  unfold regRead; cases s.dev.get? (loc b k) <;> rfl
@[simp] theorem regRead_psL (b : BitVec 8) (k : Kind) (s : State) : (regRead b k s).2.psL = s.psL := by
  unfold regRead; cases s.dev.get? (loc b k) <;> rfl
@[simp] theorem regRead_brL (b : BitVec 8) (k : Kind) (s : State) : (regRead b k s).2.brL = s.brL := by
  unfold regRead; cases s.dev.get? (loc b k) <;> rfl
@[simp] theorem regRead_rspValid (b : BitVec 8) (k : Kind) (s : State) : (regRead b k s).2.rspValid = s.rspValid := by
  unfold regRead; cases s.dev.get? (loc b k) <;> rfl
@[simp] theorem regRead_rspCode (b : BitVec 8) (k : Kind) (s : State) : (regRead b k s).2.rspCode = s.rspCode := by
  unfold regRead; cases s.dev.get? (loc b k) <;> rfl
@[simp] theorem regRead_rspDv (b : BitVec 8) (k : Kind) (s : State) : (regRead b k s).2.rspDv = s.rspDv := by
  unfold regRead; cases s.dev.get? (loc b k) <;> rfl
@[simp] theorem regRead_rspData (b : BitVec 8) (k : Kind) (s : State) : (regRead b k s).2.rspData = s.rspData := by
  unfold regRead; cases s.dev.get? (loc b k) <;> rfl
@[simp] theorem regRead_dev (b : BitVec 8) (k : Kind) (s : State) : (regRead b k s).2.dev = s.dev := by
  unfold regRead; cases s.dev.get? (loc b k) <;> rfl
@[simp] theorem regRead_host (b : BitVec 8) (k : Kind) (s : State) : (regRead b k s).2.host = s.host := by
  unfold regRead; cases s.dev.get? (loc b k) <;> rfl
@[simp] theorem regRead_env (b : BitVec 8) (k : Kind) (s : State) : (regRead b k s).2.env = s.env := by
  unfold regRead; cases s.dev.get? (loc b k) <;> rfl
@[simp] theorem regRead_resetLine (b : BitVec 8) (k : Kind) (s : State) :
    (regRead b k s).2.resetLine = s.resetLine := by
  unfold regRead; cases s.dev.get? (loc b k) <;> rfl
@[simp] theorem regRead_par (b : BitVec 8) (k : Kind) (s : State) : (regRead b k s).2.par = s.par := by
  unfold regRead; cases s.dev.get? (loc b k) <;> rfl
@[simp] theorem regRead_trace (b : BitVec 8) (k : Kind) (s : State) :
    (regRead b k s).2.trace = s.trace ++ [.read b k (regRead b k s).1] := by
  unfold regRead; cases s.dev.get? (loc b k) <;> rfl

/-- What is known of a register is what a read of it returns. -/
theorem regRead_value (b : BitVec 8) (k : Kind) (s : State) (v : Byte) (h : s.dev.get? (loc b k) = some v) :
    (regRead b k s).1 = v := by
  simp [regRead, h]

/-- The answer depends on what is known and on the free counter alone. -/
theorem regRead_congr (b : BitVec 8) (k : Kind) (s t : State) (hd : s.dev = t.dev) (hf : s.free = t.free) :
    (regRead b k s).1 = (regRead b k t).1 ∧ (regRead b k s).2.free = (regRead b k t).2.free := by
  unfold regRead
  rw [hd]
  cases t.dev.get? (loc b k) <;> simp [hf]

/-! ### Abbreviations of a response -/

@[simp] theorem raiseAbort_eq (c : Byte) (s : State) : raiseAbort c s = respond c s := rfl
@[simp] theorem raiseAbortAt_eq (c : Byte) (s : State) :
    raiseAbortAt c s = respondData c (s.idx.truncate 8) s := rfl
@[simp] theorem rejectIllegal_eq (s : State) : rejectIllegal s = respond codeIllegalCommand s := rfl

end Sys2Proof.Machine
end

