-- ==== Sys2Proof/Laws/Run.lean ====
section
/-! SUPPORT. Running a micro-program: one tick, several, and what no tick changes. -/

namespace Sys2Proof.Machine

/-! ### `tick` and `run` -/

theorem tick_idle (prog : List MicroOp) (s : State) (h : s.upc = .idle) : tick prog s = s := by
  simp [tick, h]

/-- A tick that reset does not take the place of. -/
theorem tick_at {prog : List MicroOp} {s : State} {i : Nat} {sub : Sub} {op : MicroOp} (h : s.upc = .pos i sub)
    (ho : prog[i]? = some op) (hr : s.resetNow = false) : tick prog s = op.run i sub (sampled s) := by
  simp [tick, h, ho, hr]

/-- Reset where the command stands. -/
theorem tick_reset {prog : List MicroOp} {s : State} (h : s.upc ≠ .idle) (hr : s.resetNow = true) :
    tick prog s = resetInput (sampled s) := by
  unfold tick
  split
  · rename_i hu; exact absurd hu h
  · rw [if_pos hr]

/-- Everything a tick can be. -/
theorem tick_cases (prog : List MicroOp) (s : State) :
    tick prog s = s ∨ tick prog s = sampled s ∨ (s.resetNow = true ∧ tick prog s = resetInput (sampled s)) ∨
      ∃ i sub op, s.upc = .pos i sub ∧ prog[i]? = some op ∧ s.resetNow = false ∧
        tick prog s = op.run i sub (sampled s) := by
  cases hu : s.upc with
  | idle => exact .inl (tick_idle _ _ hu)
  | pos i sub =>
    cases hr : s.resetNow with
    | true => exact .inr (.inr (.inl ⟨rfl, tick_reset (by simp [hu]) hr⟩))
    | false =>
      cases ho : prog[i]? with
      | none => exact .inr (.inl (by simp [tick, hu, hr, ho]))
      | some op => exact .inr (.inr (.inr ⟨i, sub, op, rfl, ho, rfl, tick_at hu ho hr⟩))

theorem run_idle (prog : List MicroOp) (n : Nat) (s : State) (h : s.upc = .idle) : run prog n s = s := by
  cases n <;> simp [run, h]

theorem run_at {prog : List MicroOp} {s : State} {i : Nat} {sub : Sub} (n : Nat) (h : s.upc = .pos i sub) :
    run prog (n + 1) s = run prog n (tick prog s) := by
  simp [run, h]

theorem run_succ (prog : List MicroOp) (n : Nat) (s : State) : run prog (n + 1) s = run prog n (tick prog s) := by
  cases h : s.upc with
  | idle => rw [tick_idle _ _ h, run_idle _ _ _ h, run_idle _ _ _ h]
  | pos i sub => exact run_at n h

theorem run_add (prog : List MicroOp) (m n : Nat) (s : State) : run prog (m + n) s = run prog n (run prog m s) := by
  induction m generalizing s with
  | zero => simp [run]
  | succ m ih => rw [Nat.succ_add, run_succ, run_succ, ih]

/-- What every tick keeps, a run keeps. -/
theorem run_keeps {prog : List MicroOp} {P : State → Prop} (hP : ∀ s, P s → P (tick prog s)) (n : Nat) (s : State)
    (h : P s) : P (run prog n s) := by
  induction n generalizing s with
  | zero => exact h
  | succ n ih => rw [run_succ]; exact ih _ (hP s h)

end Sys2Proof.Machine
end

