-- ==== Sys2Proof/Laws/Tick.lean ====
section
/-! SUPPORT. What one tick can do, said once: no event, or one event of the micro-operation the sequencer stands at. -/

namespace Sys2Proof.Machine

/-! ### Events and the other agents' moves -/

@[simp] theorem event_eq (act : State → State) (s : State) : event act s = act (envMove s) := rfl

theorem State.Undisturbed.resetNow {s : State} (h : s.Undisturbed) : s.resetNow = false := by
  unfold State.resetNow
  cases he : s.resetLine with
  | nil => rfl
  | cons b rest => exact h b (by simp [he])

/-- Being undisturbed is a matter of the reset line alone, and passes on to any later part of it. -/
theorem State.Undisturbed.of_suffix {s t : State} (h : s.Undisturbed) (ht : t.resetLine <:+ s.resetLine) :
    t.Undisturbed :=
  fun b hb => h b (ht.subset hb)

theorem State.Undisturbed.of_eq {s t : State} (h : s.Undisturbed) (ht : t.resetLine = s.resetLine) : t.Undisturbed :=
  h.of_suffix (by rw [ht])

theorem State.Undisturbed.sampled {s : State} (h : s.Undisturbed) : (sampled s).Undisturbed :=
  h.of_suffix (List.tail_suffix _)

@[simp] theorem Source.bus_envMove (src : Source) (s : State) : src.bus (envMove s) = src.bus s := by
  cases src <;> simp [Source.bus, cfgRead]

@[simp] theorem WrVal.value_envMove (v : WrVal) (s : State) : v.value (envMove s) = v.value s := by
  cases v <;> simp [WrVal.value]

@[simp] theorem Update.set_envMove (u : Update) (s : State) : u.set (envMove s) = u.set s := by
  cases u <;> simp [Update.set]

@[simp] theorem rmwValue_envMove (u : Update) (s : State) : rmwValue u (envMove s) = rmwValue u s := by
  simp [rmwValue]

/-! ### The event a micro-operation makes -/

/-- `ev` is an event that the micro-operation makes in state `s`. -/
def MicroOp.Emits (op : MicroOp) (s : State) (ev : Event) : Prop :=
  match op with
  | .wr src k v => ev = .write (src.bus s) k (v.value s)
  | .rd k => ∃ v, ev = .read s.busL k v
  | .rmw src k u => (∃ v, ev = .read (src.bus s) k v) ∨ ev = .write (src.bus s) k (rmwValue u s)
  | .poll _ _ => ∃ v, ev = .read s.busL .ctrl v ∨ ev = .read s.busL .stat v
  | _ => False

/-- What does not change in a tick that reset does not cut short: the operand latches. -/
def SameLatches (s t : State) : Prop :=
  t.opL = s.opL ∧ t.busL = s.busL ∧ t.devL = s.devL ∧ t.regL = s.regL ∧ t.datL = s.datL ∧ t.freqL = s.freqL ∧
    t.cfgpL = s.cfgpL

theorem SameLatches.refl (s : State) : SameLatches s s := ⟨rfl, rfl, rfl, rfl, rfl, rfl, rfl⟩

theorem SameLatches.trans {s t u : State} (h : SameLatches s t) (h' : SameLatches t u) : SameLatches s u := by
  unfold SameLatches at *
  simp_all

/-- No event: the trace, the device registers and the scripts stay. -/
def Silent (s t : State) : Prop := t.trace = s.trace ∧ t.dev = s.dev ∧ t.env = s.env

/-- One event `ev`, after the other agents' move; only the register it names can differ from what they left. -/
def Makes (s t : State) (ev : Event) : Prop :=
  t.trace = s.trace ++ [ev] ∧ t.env = s.env.tail ∧
    (∀ a, a ≠ loc ev.bus ev.kind → t.dev.get? a = (envMove s).dev.get? a) ∧
    (ev.isWrite = false → t.dev = (envMove s).dev)

/-- Everything a micro-operation can do to what the host and the device see. -/
theorem MicroOp.run_effect (op : MicroOp) (i : Nat) (sub : Sub) (s : State) :
    SameLatches s (op.run i sub s) ∧
      (Silent s (op.run i sub s) ∨ ∃ ev, Makes s (op.run i sub s) ev ∧ op.Emits s ev) := by
  cases op with
  | chk code => simp only [MicroOp.run]; split <;> simp [SameLatches, Silent]
  | wr src k v =>
    simp only [MicroOp.run, event_eq]
    refine ⟨by simp [SameLatches], .inr ⟨.write (src.bus s) k (v.value s), ?_, rfl⟩⟩
    simp [Makes, Event.bus, Event.kind, Event.isWrite]
    intro a ha
    exact Memory.get?_set_ne _ _ _ _ ha
  | rd k =>
    simp only [MicroOp.run, event_eq]
    refine ⟨by simp [SameLatches, rdRead], .inr ⟨.read s.busL k (regRead s.busL k (envMove s)).1, ?_, ⟨_, rfl⟩⟩⟩
    simp [Makes, rdRead]
  | rmw src k u =>
    by_cases hs : sub = .second
    · subst hs
      simp only [MicroOp.run, event_eq]
      refine ⟨by simp [SameLatches, rmwWrite], .inr ⟨.write (src.bus s) k (rmwValue u s), ?_, .inr rfl⟩⟩
      simp [Makes, Event.bus, Event.kind, Event.isWrite, rmwWrite]
      intro a ha
      exact Memory.get?_set_ne _ _ _ _ ha
    · have : MicroOp.run (.rmw src k u) i sub s = event (rmwRead src k i) s := by
        cases sub <;> simp_all [MicroOp.run]
      rw [this, event_eq]
      refine ⟨by simp [SameLatches, rmwRead], .inr ⟨.read (src.bus s) k (regRead (src.bus s) k (envMove s)).1, ?_, .inl ⟨_, rfl⟩⟩⟩
      simp [Makes, rmwRead]
  | poll e code =>
    cases sub with
    | first =>
      simp only [MicroOp.run]
      rw [event_eq]
      have he : (envMove { s with cnt := 0#32 }).dev = (envMove s).dev := by
        cases hs : s.env <;> simp [envMove, hs, State.locations]
      refine ⟨by simp [SameLatches, pollControl], .inr ⟨.read s.busL .ctrl (regRead s.busL .ctrl (envMove { s with cnt := 0#32 })).1, ?_, ⟨_, .inl rfl⟩⟩⟩
      simp [Makes, pollControl, he]
    | again =>
      simp only [MicroOp.run, event_eq]
      refine ⟨by simp [SameLatches, pollControl], .inr ⟨.read s.busL .ctrl (regRead s.busL .ctrl (envMove s)).1, ?_, ⟨_, .inl rfl⟩⟩⟩
      simp [Makes, pollControl]
    | second =>
      simp only [MicroOp.run, event_eq, pollStatus]
      split
      · refine ⟨by simp [SameLatches], .inr ⟨.read s.busL .stat (regRead s.busL .stat (envMove s)).1, ?_, ⟨_, .inr rfl⟩⟩⟩
        simp [Makes]
      · split
        · refine ⟨by simp [SameLatches], .inr ⟨.read s.busL .stat (regRead s.busL .stat (envMove s)).1, ?_, ⟨_, .inr rfl⟩⟩⟩
          simp [Makes]
        · refine ⟨by simp [SameLatches], .inr ⟨.read s.busL .stat (regRead s.busL .stat (envMove s)).1, ?_, ⟨_, .inr rfl⟩⟩⟩
          simp [Makes]
  | ret code => simp [MicroOp.run, SameLatches, Silent]
  | retData code => simp [MicroOp.run, SameLatches, Silent]
  | setScl src =>
    simp only [MicroOp.run]
    split
    · simp [SameLatches, Silent]
    · cases src <;> simp [SameLatches, Silent]
  | initStart => simp only [MicroOp.run]; split <;> simp [SameLatches, Silent]
  | initLoop => simp only [MicroOp.run]; split <;> simp [SameLatches, Silent]
  | initNext => simp [MicroOp.run, SameLatches, Silent]

end Sys2Proof.Machine
end

