-- ==== Sys2Proof/Laws/History.lean ====
section
/-! SUPPORT. What a whole run of a micro-program leaves behind: its events, and a frame for everything else. -/

namespace Sys2Proof.Machine

/-! ### Parameters, host and reset line: no micro-operation changes them -/

@[simp] theorem MicroOp.run_par (op : MicroOp) (i : Nat) (sub : Sub) (s : State) : (op.run i sub s).par = s.par := by
  cases op <;> simp only [MicroOp.run] <;> (try split) <;> (try split) <;>
    simp [event_eq, rdRead, rmwRead, rmwWrite, pollControl, pollStatus] <;> (try split) <;> (try split) <;> simp

@[simp] theorem MicroOp.run_host (op : MicroOp) (i : Nat) (sub : Sub) (s : State) :
    (op.run i sub s).host = s.host := by
  cases op <;> simp only [MicroOp.run] <;> (try split) <;> (try split) <;>
    simp [event_eq, rdRead, rmwRead, rmwWrite, pollControl, pollStatus] <;> (try split) <;> (try split) <;> simp

@[simp] theorem MicroOp.run_resetLine (op : MicroOp) (i : Nat) (sub : Sub) (s : State) :
    (op.run i sub s).resetLine = s.resetLine := by
  cases op <;> simp only [MicroOp.run] <;> (try split) <;> (try split) <;>
    simp [event_eq, rdRead, rmwRead, rmwWrite, pollControl, pollStatus] <;> (try split) <;> (try split) <;> simp

@[simp] theorem tick_par (prog : List MicroOp) (s : State) : (tick prog s).par = s.par := by
  rcases tick_cases prog s with h | h | ⟨-, h⟩ | ⟨_, _, _, -, -, -, h⟩ <;> rw [h] <;> simp

@[simp] theorem tick_host (prog : List MicroOp) (s : State) : (tick prog s).host = s.host := by
  rcases tick_cases prog s with h | h | ⟨-, h⟩ | ⟨_, _, _, -, -, -, h⟩ <;> rw [h] <;> simp

/-- A tick of a command looks at the reset line once. -/
theorem tick_resetLine (prog : List MicroOp) {s : State} (hu : s.upc ≠ .idle) :
    (tick prog s).resetLine = s.resetLine.tail := by
  unfold tick
  split
  · rename_i h; exact absurd h hu
  · split
    · rfl
    · split <;> simp

@[simp] theorem run_par (prog : List MicroOp) (n : Nat) (s : State) : (run prog n s).par = s.par :=
  run_keeps (P := fun t => t.par = s.par) (fun t h => by rw [tick_par, h]) n s rfl

@[simp] theorem run_host (prog : List MicroOp) (n : Nat) (s : State) : (run prog n s).host = s.host :=
  run_keeps (P := fun t => t.host = s.host) (fun t h => by rw [tick_host, h]) n s rfl

/-! ### One tick -/

/-- Everything a tick can do when reset is not asserted. -/
theorem tick_effect (prog : List MicroOp) (s : State) (h : s.resetNow = false) :
    SameLatches s (tick prog s) ∧
      (Silent s (tick prog s) ∨ ∃ ev, Makes s (tick prog s) ev ∧
        ∃ i sub op, s.upc = .pos i sub ∧ prog[i]? = some op ∧ op.Emits s ev) := by
  rcases tick_cases prog s with ht | ht | ⟨hr, -⟩ | ⟨i, sub, op, hu, ho, -, ht⟩
  · rw [ht]; exact ⟨SameLatches.refl s, .inl ⟨rfl, rfl, rfl⟩⟩
  · rw [ht]; exact ⟨SameLatches.refl s, .inl ⟨rfl, rfl, rfl⟩⟩
  · rw [h] at hr; cases hr
  · rw [ht]
    obtain ⟨hl, he⟩ := op.run_effect i sub (sampled s)
    refine ⟨hl, he.imp_right ?_⟩
    rintro ⟨ev, hm, hev⟩
    refine ⟨ev, ?_, i, sub, op, hu, ho, ?_⟩
    · simpa only [Makes, envMove_sampled, sampled_trace, sampled_env, sampled_dev] using hm
    · cases op <;> exact hev

theorem tick_resetLine_suffix (prog : List MicroOp) (s : State) : (tick prog s).resetLine <:+ s.resetLine := by
  by_cases hu : s.upc = .idle
  · rw [tick_idle _ _ hu]
  · rw [tick_resetLine _ hu]; exact List.tail_suffix _

theorem State.Undisturbed.tick {s : State} (h : s.Undisturbed) (prog : List MicroOp) : (tick prog s).Undisturbed :=
  h.of_suffix (tick_resetLine_suffix prog s)

/-! ### The environment's own moves -/

/-- The environment's first `n` moves, the sequencer doing nothing. -/
def envAfter : Nat → State → State
  | 0, s => s
  | n + 1, s => envAfter n (envMove s)

theorem devAfter_eq (n : Nat) (s : State) : devAfter n s = (envAfter n s).dev := by
  induction n generalizing s with
  | zero => rfl
  | succ n ih => exact ih (envMove s)

theorem envAfter_succ (n : Nat) (s : State) : envAfter (n + 1) s = envMove (envAfter n s) := by
  induction n generalizing s with
  | zero => rfl
  | succ n ih => exact ih (envMove s)

theorem envAfter_env (n : Nat) (s : State) : (envAfter n s).env = s.env.drop n := by
  induction n generalizing s with
  | zero => rfl
  | succ n ih => rw [envAfter, ih, envMove_env]; cases s.env <;> simp

theorem envAfter_par (n : Nat) (s : State) : (envAfter n s).par = s.par := by
  induction n generalizing s with
  | zero => rfl
  | succ n ih => rw [envAfter, ih, envMove_par]

/-- The same move on two states that agree on a location leaves them agreeing on it. -/
theorem envMove_agree {s t : State} (he : t.env = s.env) (hp : t.par = s.par) (a : Nat)
    (h : t.dev.get? a = s.dev.get? a) : (envMove t).dev.get? a = (envMove s).dev.get? a := by
  cases hs : s.env with
  | nil => rw [envMove_dev_nil _ hs, envMove_dev_nil _ (he.trans hs)]
  | cons m rest =>
    rw [envMove_dev_cons _ _ _ hs, envMove_dev_cons _ _ _ (he.trans hs)]
    have : t.locations = s.locations := by simp [State.locations, hp]
    rw [this]
    exact Memory.get?_apply_congr _ _ _ _ _ h

/-! ### A run -/

/-- From `s` to `t`: some events, each satisfying `Q`, one move of the other agents before each; the operand latches
and the platform as before; and every location that no event wrote as the environment's own moves leave it. -/
def History (Q : Event → Prop) (s t : State) : Prop :=
  ∃ evs, t.trace = s.trace ++ evs ∧ (∀ ev ∈ evs, Q ev) ∧ t.env = s.env.drop evs.length ∧ SameLatches s t ∧
    t.par = s.par ∧ t.host = s.host ∧
    ∀ a, NotWritten evs a → t.dev.get? a = (devAfter evs.length s).get? a

theorem History.refl (Q : Event → Prop) (s : State) : History Q s s :=
  ⟨[], by simp, by simp, by simp, SameLatches.refl s, rfl, rfl, fun _ _ => rfl⟩

/-- Another tick: silent, or one more event. -/
theorem History.tick {Q : Event → Prop} {s t : State} (h : History Q s t) (prog : List MicroOp)
    (hr : t.resetNow = false)
    (hQ : ∀ ev i sub op, t.upc = .pos i sub → prog[i]? = some op → op.Emits t ev → Q ev) :
    History Q s (tick prog t) := by
  obtain ⟨evs, htr, hq, henv, hl, hp, hh, hd⟩ := h
  obtain ⟨hl', ⟨htr', hd', henv'⟩ | ⟨ev, ⟨htr', henv', hdev, hdev'⟩, i, sub, op, hi, ho, hev⟩⟩ := tick_effect prog t hr
  · exact ⟨evs, htr'.trans htr, hq, henv'.trans henv, hl.trans hl', by simp [hp], by simp [hh],
      fun a ha => by rw [hd']; exact hd a ha⟩
  · refine ⟨evs ++ [ev], by rw [htr', htr, List.append_assoc], ?_, ?_, hl.trans hl', by simp [hp], by simp [hh], ?_⟩
    · intro e he
      rcases List.mem_append.1 he with he | he
      · exact hq e he
      · rw [List.mem_singleton.1 he]; exact hQ ev i sub op hi ho hev
    · rw [henv', henv, List.tail_drop, List.length_append, List.length_singleton]
    · intro a ha
      have hda := hd a fun e he => ha e (List.mem_append_left _ he)
      have hstep : (envMove t).dev.get? a = (devAfter (evs.length + 1) s).get? a := by
        rw [devAfter_eq, envAfter_succ]
        apply envMove_agree
        · rw [envAfter_env, henv]
        · rw [envAfter_par, hp]
        · rw [hda, devAfter_eq]
      rw [List.length_append, List.length_singleton, ← hstep]
      by_cases hw : ev.isWrite = true
      · exact hdev a (ha ev (by simp) hw)
      · rw [hdev' (by simpa using hw)]

/-- A run that nothing disturbs, `P` being what the ticks keep and `Q` what the events then satisfy. -/
theorem run_history {prog : List MicroOp} {P : State → Prop} {Q : Event → Prop}
    (hP : ∀ s, s.Undisturbed → P s → P (tick prog s))
    (hQ : ∀ s ev i sub op, P s → s.upc = .pos i sub → prog[i]? = some op → op.Emits s ev → Q ev) (n : Nat) (s : State)
    (hs : P s) (hu : s.Undisturbed) :
    History Q s (run prog n s) ∧ P (run prog n s) ∧ (run prog n s).Undisturbed :=
  run_keeps (P := fun t => History Q s t ∧ P t ∧ t.Undisturbed)
    (fun t ⟨h, hp, hu⟩ =>
      ⟨h.tick prog hu.resetNow fun ev i sub op => hQ t ev i sub op hp, hP t hu hp, hu.tick prog⟩)
    n s ⟨History.refl Q s, hs, hu⟩

end Sys2Proof.Machine
end

