-- ==== Sys2Proof/Laws/Progress.lean ====
section
/-! SUPPORT. Where a tick can leave the sequencer, and how much is left of a command: it always stands at a position of
its micro-program, it always comes back to idle, and its events are bounded. -/

namespace Sys2Proof.Machine

/-! ### Positions -/

/-- What legal parameters bound (00_scope.md R1). -/
theorem legal_bounds {p : Config.Params} (h : p.legal = true) :
    1 ≤ p.tPoll ∧ p.tPoll < 4294967296 ∧ 1 ≤ p.nBus ∧ p.nBus ≤ 256 ∧ p.cfg.length = p.nBus := by
  simp [Config.Params.legal] at h
  omega

/-- `op'` may follow `op`: what `op` has checked is what `op'` needs. -/
def MicroOp.leadsTo (op op' : MicroOp) : Bool :=
  (op'.source == none || op'.source == op.source ||
    (match op with
      | .chk _ => op'.source == some .operand
      | .setScl src => op'.source == some src
      | _ => false)) &&
  (!op'.onEntry || op.onEntry || op == .initLoop) && (op' != .initLoop || op == .initStart) &&
  op' != .initStart

/-- The micro-operation never goes on to the one after it. -/
def MicroOp.last : MicroOp → Bool
  | .ret _ | .retData _ | .initNext => true
  | _ => false

/-- Every micro-operation may follow the one before it, and the last ones end the micro-program. -/
def Wired (prog : List MicroOp) : Prop :=
  (∀ i, i < prog.length → ∀ op ∈ prog[i]?, op.last = true ∨ ∃ op' ∈ prog[i + 1]?, op.leadsTo op' = true) ∧
    (.initNext ∈ prog → prog[1]? = some .initLoop)

theorem setSclProgram_wired : Wired setSclProgram := by unfold Wired; decide
theorem sendByteProgram_wired : Wired sendByteProgram := by unfold Wired; decide
theorem receiveByteProgram_wired : Wired receiveByteProgram := by unfold Wired; decide
theorem initProgram_wired : Wired initProgram := by unfold Wired; decide
theorem nil_wired : Wired [] := by unfold Wired; decide

theorem programOf_wired (op : BitVec 4) : Wired (programOf op) := by
  unfold programOf
  split
  · exact initProgram_wired
  split
  · exact setSclProgram_wired
  split
  · exact sendByteProgram_wired
  split
  · exact receiveByteProgram_wired
  · exact nil_wired

/-- The sequencer is idle, or at a position of the micro-program. -/
def Placed (prog : List MicroOp) (s : State) : Prop :=
  ∀ i sub, s.upc = .pos i sub → ∃ op, prog[i]? = some op ∧ op.ready sub s = true

theorem positionOk_iff (s : State) : s.positionOk = true ↔ Placed (programOf s.opL) s := by
  unfold State.positionOk Placed
  cases hu : s.upc with
  | idle => simp
  | pos i sub =>
    cases ho : (programOf s.opL)[i]? with
    | none => simp [ho]
    | some op => simp [ho]

/-- What a micro-operation has checked when the sequencer goes on to the next. -/
def MicroOp.Checked (op : MicroOp) (t : State) : Prop :=
  (∀ src, op.source = some src → busInRange t.par (src.bus t) = true) ∧
  (∀ c, op = .chk c → busInRange t.par t.busL = true) ∧
  (∀ src, op = .setScl src → busInRange t.par (src.bus t) = true) ∧
  (op.onEntry = true ∨ op = .initLoop → t.idx.toNat < t.par.nBus) ∧
  (op = .initStart → t.idx.toNat = 0)

/-- Where one tick leaves the sequencer, `idx` being what it was. -/
inductive Leads (op : MicroOp) (i : Nat) (idx : BitVec 9) (t : State) : Prop where
  | idle (h : t.upc = .idle)
  | stays (sub : Sub) (h : t.upc = .pos i sub) (hr : op.ready sub t = true) (hs : op.source ≠ none)
      (hi : t.idx = idx)
  | goesOn (h : t.upc = .pos (i + 1) .first) (hc : op.Checked t) (hl : op.last = false)
      (hi : op = .initStart ∨ t.idx = idx)
  | loops (h : t.upc = .pos 1 .first) (ho : op = .initNext) (hn : idx.toNat < t.par.nBus)
      (hi : t.idx.toNat = idx.toNat + 1)

theorem sclCompute_inRange {p : Config.Params} {b : BitVec 8} {f : BitVec 32} {br : BitVec 8} {ps : BitVec 2}
    (h : sclCompute p b f = .found br ps) : busInRange p b = true := by
  unfold sclCompute at h
  split at h
  · assumption
  · cases h

theorem Source.bus_congr (src : Source) {s t : State} (hb : t.busL = s.busL) (hp : t.par = s.par)
    (hi : t.idx = s.idx) : src.bus t = src.bus s := by
  cases src <;> simp [Source.bus, cfgRead, hb, hp, hi]

/-- What a micro-operation with a bus has checked, once it has run. -/
theorem MicroOp.checked_of_ready {op : MicroOp} {sub : Sub} {src : Source} {s t : State}
    (h : op.ready sub s = true) (hs : op.source = some src) (hb : t.busL = s.busL) (hp : t.par = s.par)
    (hi : t.idx = s.idx) : op.Checked t := by
  simp only [MicroOp.ready, hs, Bool.and_eq_true, Bool.or_eq_true, Bool.not_eq_true', decide_eq_true_eq] at h
  refine ⟨?_, ?_, ?_, ?_, ?_⟩
  · intro src' hs'
    obtain rfl : src = src' := by simpa [hs] using hs'
    rw [Source.bus_congr src hb hp hi, hp]
    exact h.1.1.2
  · rintro c rfl; simp [MicroOp.source] at hs
  · rintro src' rfl; simp [MicroOp.source] at hs
  · rintro (ho | rfl)
    · rw [hi, hp]
      simpa [ho] using h.2
    · simp [MicroOp.source] at hs
  · rintro rfl; simp [MicroOp.source] at hs

/-- Where one tick can leave the sequencer, said once. -/
theorem MicroOp.run_leads (op : MicroOp) (i : Nat) (sub : Sub) (s : State) (hl : s.par.legal = true)
    (h : op.ready sub s = true) : Leads op i s.idx (op.run i sub s) := by
  obtain ⟨hT1, hT, -, hN, -⟩ := legal_bounds hl
  cases op with
  | chk code =>
    simp only [MicroOp.run]
    split
    · rename_i hb
      exact .goesOn rfl ⟨by simp [MicroOp.source], fun _ _ => hb, by simp, by simp [MicroOp.onEntry], by simp⟩ rfl (by simp)
    · exact .idle rfl
  | wr src k v =>
    exact .goesOn rfl (checked_of_ready h rfl (by simp [MicroOp.run]) (by simp [MicroOp.run]) (by simp [MicroOp.run])) rfl
      (by simp [MicroOp.run])
  | rd k =>
    exact .goesOn rfl (checked_of_ready h rfl (by simp [MicroOp.run, rdRead]) (by simp [MicroOp.run, rdRead]) (by simp [MicroOp.run, rdRead])) rfl
      (by simp [MicroOp.run, rdRead])
  | rmw src k u =>
    have hread : Leads (.rmw src k u) i s.idx (rmwRead src k i (envMove s)) := by
      refine .stays .second rfl ?_ (by simp [MicroOp.source]) (by simp [rmwRead])
      simp only [MicroOp.ready, MicroOp.source, Bool.and_eq_true] at h ⊢
      rw [Source.bus_congr src (t := rmwRead src k i _) (s := s) (by simp [rmwRead]) (by simp [rmwRead])
        (by simp [rmwRead])]
      exact ⟨⟨⟨rfl, by simpa [rmwRead] using h.1.1.2⟩, trivial⟩, by simpa [rmwRead] using h.2⟩
    cases sub with
    | second =>
      exact .goesOn rfl (checked_of_ready h rfl (by simp [MicroOp.run, rmwWrite]) (by simp [MicroOp.run, rmwWrite])
        (by simp [MicroOp.run, rmwWrite])) rfl (by simp [MicroOp.run, rmwWrite])
    | first => exact hread
    | again => exact hread
  | poll e code =>
    have hb : busInRange s.par s.busL = true := by
      simp only [MicroOp.ready, MicroOp.source, Source.bus, Bool.and_eq_true] at h
      exact h.1.1.2
    cases sub with
    | first =>
      refine .stays .second rfl ?_ (by simp [MicroOp.source]) (by simp [MicroOp.run, pollControl])
      simp [MicroOp.run, MicroOp.ready, MicroOp.source, MicroOp.subFits, MicroOp.onEntry, pollControl, Source.bus, hb]
      exact hT1
    | again =>
      have hc : s.cnt.toNat < s.par.tPoll := by
        simp only [MicroOp.ready, Bool.and_eq_true, decide_eq_true_eq] at h; exact h.1.2
      refine .stays .second rfl ?_ (by simp [MicroOp.source]) (by simp [MicroOp.run, pollControl])
      simp [MicroOp.run, MicroOp.ready, MicroOp.source, MicroOp.subFits, MicroOp.onEntry, pollControl, Source.bus, hb, hc]
    | second =>
      have hc : s.cnt.toNat < s.par.tPoll := by
        simp only [MicroOp.ready, Bool.and_eq_true, decide_eq_true_eq] at h; exact h.1.2
      simp only [MicroOp.run, event_eq]
      unfold pollStatus
      dsimp only
      split
      · exact .goesOn rfl (checked_of_ready h rfl (by simp) (by simp) (by simp)) rfl (by simp)
      · split
        · exact .idle rfl
        · rename_i hne
          refine .stays .again rfl ?_ (by simp [MicroOp.source]) (by simp)
          simp [MicroOp.ready, MicroOp.source, MicroOp.subFits, MicroOp.onEntry, Source.bus, hb]
          simp at hne
          omega
  | ret code => exact .idle rfl
  | retData code => exact .idle rfl
  | setScl src =>
    simp only [MicroOp.run]
    split
    · rename_i br ps hf
      simp only [MicroOp.ready, Bool.and_eq_true, Bool.or_eq_true, Bool.not_eq_true', decide_eq_true_eq] at h
      refine .goesOn rfl ⟨by simp [MicroOp.source], by simp, ?_, ?_, by simp⟩ rfl (by simp)
      · intro src' hs
        obtain rfl : src = src' := by simpa using hs
        rw [Source.bus_congr src (t := advance i _) (s := s) (by simp) (by simp) (by simp)]
        exact sclCompute_inRange hf
      · rintro (ho | ho)
        · simpa [ho] using h.2
        · simp at ho
    · cases src <;> exact .idle rfl
  | initStart =>
    simp only [MicroOp.run]
    split
    · exact .idle rfl
    · exact .goesOn rfl ⟨by simp [MicroOp.source], by simp, by simp, by simp [MicroOp.onEntry], by simp⟩ rfl (by simp)
  | initLoop =>
    simp only [MicroOp.run]
    split
    · rename_i hi
      exact .goesOn rfl ⟨by simp [MicroOp.source], by simp, by simp, by simpa using hi, by simp⟩ rfl (by simp)
    · exact .idle rfl
  | initNext =>
    have hi : s.idx.toNat < s.par.nBus := by
      simp [MicroOp.ready, MicroOp.source, MicroOp.onEntry] at h; exact h.2
    refine .loops rfl rfl hi ?_
    simp only [MicroOp.run]
    rw [BitVec.toNat_add]
    simp
    omega

theorem MicroOp.ready_next {op op' : MicroOp} {t : State} (hc : op.Checked t) (hw : op.leadsTo op' = true) : op'.ready .first t = true := by
  obtain ⟨h1, h2, h3, h4, h5⟩ := hc
  simp only [MicroOp.leadsTo, Bool.and_eq_true, Bool.or_eq_true, beq_iff_eq, bne_iff_ne, ne_eq,
    Bool.not_eq_true'] at hw
  obtain ⟨⟨⟨hs, he⟩, hi⟩, -⟩ := hw
  simp only [MicroOp.ready, Bool.and_eq_true]
  refine ⟨⟨⟨by cases op' <;> rfl, ?_⟩, ?_⟩, ?_⟩
  · split
    · rename_i src hsrc
      rcases hs with (hs | hs) | hs
      · simp [hsrc] at hs
      · exact h1 src (by rw [← hs, hsrc])
      · split at hs
        · obtain rfl : src = .operand := by simpa [hsrc] using hs
          exact h2 _ rfl
        · rename_i src'
          obtain rfl : src = src' := by simpa [hsrc] using hs
          exact h3 _ rfl
        · cases hs
    · rfl
  · cases op' with
    | initLoop => simp [h5 (hi.resolve_left (by simp))]
    | _ => rfl
  · simp only [Bool.or_eq_true, Bool.not_eq_true', decide_eq_true_eq]
    rcases he with (he | he) | he
    · exact .inl he
    · exact .inr (h4 (.inl he))
    · exact .inr (h4 (.inr he))

/-- The reset line plays no part in whether a position is one. -/
theorem MicroOp.ready_sampled (op : MicroOp) (sub : Sub) (s : State) : op.ready sub (sampled s) = op.ready sub s := rfl

/-- Every tick keeps the sequencer at a position of its micro-program. -/
theorem Placed.tick {prog : List MicroOp} {s : State} (hw : Wired prog) (hl : s.par.legal = true)
    (h : Placed prog s) : Placed prog (tick prog s) := by
  intro j sub' hj
  rcases tick_cases prog s with ht | ht | ⟨-, ht⟩ | ⟨i, sub, op, hu, ho, -, ht⟩
  · rw [ht] at hj ⊢; exact h j sub' hj
  · rw [ht] at hj ⊢; exact h j sub' hj
  · rw [ht] at hj; cases hj
  · obtain ⟨op', ho', hr⟩ := h i sub hu
    obtain rfl : op = op' := by rw [ho] at ho'; exact Option.some.inj ho'
    rw [ht] at hj ⊢
    cases op.run_leads i sub (sampled s) hl hr with
    | idle h => rw [h] at hj; cases hj
    | stays sub'' h hr' _ _ => rw [h] at hj; cases hj; exact ⟨op, ho, hr'⟩
    | goesOn h hc hlast _ =>
      rw [h] at hj; cases hj
      have hi : i < prog.length := (List.getElem?_eq_some_iff.1 ho).1
      rcases hw.1 i hi op ho with hx | ⟨op', ho', hlead⟩
      · simp [hlast] at hx
      · exact ⟨op', ho', MicroOp.ready_next hc hlead⟩
    | loops h hop hn hi =>
      rw [h] at hj; cases hj
      subst hop
      refine ⟨_, hw.2 (List.mem_of_getElem? ho), ?_⟩
      simp [MicroOp.ready, MicroOp.subFits, MicroOp.source, MicroOp.onEntry, hi]
      simpa using hn

/-! ### How much is left of a command -/

/-- The events left in a micro-operation, each silent one counted as `w`. -/
def MicroOp.cost (w T : Nat) (op : MicroOp) (sub : Sub) (cnt : Nat) : Nat :=
  match op with
  | .wr _ _ _ | .rd _ => 1
  | .rmw _ _ _ => match sub with
    | .second => 1
    | _ => 2
  | .poll _ _ => match sub with
    | .first => 2 * T
    | .again => 2 * (T - cnt)
    | .second => 2 * (T - cnt) - 1
  | .chk _ | .ret _ | .retData _ | .setScl _ | .initStart | .initLoop | .initNext => w

/-- The costs of whole micro-operations. -/
def costs (w T : Nat) (ops : List MicroOp) : Nat := (ops.map fun op => op.cost w T .first 0).sum

/-- What the further entries of the table cost `INIT`. -/
def MicroOp.later (w n idx pass : Nat) (op : MicroOp) : Nat :=
  if op = .initStart then w + (n - 1) * pass
  else if op.onEntry = true ∨ op = .initLoop then w + (n - idx - 1) * pass
  else 0

/-- What is left of a command: with `w = 0` its events, with `w = 1` its ticks. -/
def State.left (w : Nat) (prog : List MicroOp) (s : State) : Nat :=
  match s.upc with
  | .idle => 0
  | .pos i sub => match prog[i]? with
    | none => 0
    | some op =>
      if op = .initLoop ∧ s.par.nBus ≤ s.idx.toNat then w
      else op.cost w s.par.tPoll sub s.cnt.toNat + costs w s.par.tPoll (prog.drop (i + 1)) +
        op.later w s.par.nBus s.idx.toNat (costs w s.par.tPoll (prog.drop 1))

/-- What one tick costs. -/
def spent (w : Nat) (s t : State) : Nat := if t.trace.length = s.trace.length then w else 1

theorem spent_silent (w : Nat) {s t : State} (h : t.trace = s.trace) : spent w s t = w := by simp [spent, h]

theorem spent_le (w : Nat) (hw : w ≤ 1) (s t : State) : spent w s t ≤ 1 := by unfold spent; split <;> omega

theorem MicroOp.run_trace (op : MicroOp) (i : Nat) (sub : Sub) (s : State) :
    (op.run i sub s).trace = s.trace ∨ ∃ ev, (op.run i sub s).trace = s.trace ++ [ev] := by
  obtain ⟨-, ⟨h, -⟩ | ⟨ev, ⟨h, -⟩, -⟩⟩ := op.run_effect i sub s
  · exact .inl h
  · exact .inr ⟨ev, h⟩

/-- A tick makes at most one event. -/
theorem tick_trace (prog : List MicroOp) (s : State) :
    (tick prog s).trace = s.trace ∨ ∃ ev, (tick prog s).trace = s.trace ++ [ev] := by
  rcases tick_cases prog s with h | h | ⟨-, h⟩ | ⟨i, sub, op, -, -, -, h⟩ <;> rw [h]
  · exact .inl rfl
  · exact .inl rfl
  · exact .inl rfl
  · exact op.run_trace i sub (sampled s)

/-- A micro-operation without a bus makes no event. -/
theorem MicroOp.run_silent (op : MicroOp) (i : Nat) (sub : Sub) (s : State) (hs : op.source = none) :
    (op.run i sub s).trace = s.trace := by
  cases op <;> simp [MicroOp.source] at hs <;> simp only [MicroOp.run] <;> (try split) <;> (try split) <;> simp

/-- A micro-operation that is still to run costs something: a silent one `w`, any other at least 1. -/
theorem MicroOp.cost_ge (op : MicroOp) (w : Nat) (sub : Sub) (s : State) (hl : s.par.legal = true)
    (hr : op.ready sub s = true) :
    (if op.source = none then w else 1) ≤ op.cost w s.par.tPoll sub s.cnt.toNat := by
  have := legal_bounds hl
  cases op <;> simp [MicroOp.source, MicroOp.cost]
  · cases sub <;> simp
  · cases sub <;> simp [MicroOp.ready] at hr ⊢ <;> omega

theorem MicroOp.cost_pos (op : MicroOp) (w : Nat) (hw : w ≤ 1) (i : Nat) (sub : Sub) (s : State)
    (hl : s.par.legal = true) (hr : op.ready sub s = true) :
    spent w s (op.run i sub s) ≤ op.cost w s.par.tPoll sub s.cnt.toNat := by
  refine le_trans ?_ (op.cost_ge w sub s hl hr)
  split
  · rename_i hs; rw [spent_silent w (op.run_silent i sub s hs)]
  · exact spent_le w hw _ _

theorem MicroOp.cost_stays (op : MicroOp) (w : Nat) (hw : w ≤ 1) (i : Nat) (sub sub' : Sub) (s : State)
    (hl : s.par.legal = true) (hr : op.ready sub s = true) (hn : op ≠ .initNext)
    (hu : (op.run i sub s).upc = .pos i sub') :
    spent w s (op.run i sub s) + op.cost w s.par.tPoll sub' (op.run i sub s).cnt.toNat ≤
      op.cost w s.par.tPoll sub s.cnt.toNat := by
  have hsp := spent_le w hw s (op.run i sub s)
  have hb := legal_bounds hl
  cases op with
  | initNext => exact absurd rfl hn
  | wr src k v => simp [MicroOp.run] at hu
  | rd k => simp [MicroOp.run, rdRead] at hu
  | rmw src k u =>
    cases sub with
    | second => simp [MicroOp.run, rmwWrite] at hu
    | again => simp [MicroOp.ready, MicroOp.subFits] at hr
    | first =>
      simp [MicroOp.run, rmwRead] at hu
      subst hu
      simp [MicroOp.cost]; omega
  | poll e code =>
    cases sub with
    | first =>
      simp only [MicroOp.run, event_eq] at hu hsp ⊢
      simp [pollControl] at hu
      subst hu
      simp [MicroOp.cost, pollControl] at hsp ⊢
      omega
    | again =>
      simp only [MicroOp.run, event_eq] at hu hsp ⊢
      simp [pollControl] at hu
      subst hu
      simp [MicroOp.cost, pollControl] at hsp ⊢
      simp [MicroOp.ready] at hr
      omega
    | second =>
      simp only [MicroOp.run, event_eq] at hu hsp ⊢
      unfold pollStatus at hu hsp ⊢
      dsimp only at hu hsp ⊢
      have hc : s.cnt.toNat < s.par.tPoll := by
        simp only [MicroOp.ready, Bool.and_eq_true, decide_eq_true_eq] at hr; exact hr.1.2
      split at hu
      · simp at hu
      · split at hu
        · simp at hu
        · rename_i h1 h2
          rw [if_neg h1, if_neg h2] at hsp ⊢
          simp at hu
          subst hu
          simp [MicroOp.cost] at hsp h2 ⊢
          omega
  | chk code => simp only [MicroOp.run] at hu; split at hu <;> simp at hu
  | ret code => simp [MicroOp.run] at hu
  | retData code => simp [MicroOp.run] at hu
  | setScl src =>
    simp only [MicroOp.run] at hu
    split at hu
    · simp at hu
    · cases src <;> simp at hu
  | initStart => simp only [MicroOp.run] at hu; split at hu <;> simp at hu
  | initLoop => simp only [MicroOp.run] at hu; split at hu <;> simp at hu

theorem costs_cons (w T : Nat) (op : MicroOp) (ops : List MicroOp) :
    costs w T (op :: ops) = op.cost w T .first 0 + costs w T ops := by
  simp [costs]

theorem costs_drop {prog : List MicroOp} {i : Nat} {op : MicroOp} (w T : Nat) (h : prog[i]? = some op) :
    costs w T (prog.drop i) = op.cost w T .first 0 + costs w T (prog.drop (i + 1)) := by
  obtain ⟨hi, rfl⟩ := List.getElem?_eq_some_iff.1 h
  rw [List.drop_eq_getElem_cons hi, costs_cons]

theorem MicroOp.cost_first (op : MicroOp) (w T c : Nat) : op.cost w T .first c = op.cost w T .first 0 := by
  cases op <;> rfl

/-- What the further entries cost does not grow along a micro-program. -/
theorem MicroOp.later_leadsTo {op op' : MicroOp} (w n idx idx' pass : Nat) (h : op.leadsTo op' = true)
    (hi : op = .initStart ∨ idx' = idx) (h0 : op = .initStart → idx' = 0) :
    op'.later w n idx' pass ≤ op.later w n idx pass := by
  simp only [MicroOp.leadsTo, Bool.and_eq_true, Bool.or_eq_true, beq_iff_eq, bne_iff_ne, ne_eq,
    Bool.not_eq_true'] at h
  obtain ⟨⟨⟨-, he⟩, hl⟩, hs⟩ := h
  unfold MicroOp.later
  rw [if_neg hs]
  split
  · rename_i ho
    split
    · rename_i hop
      rw [h0 hop, Nat.sub_zero]
    · rename_i hop
      obtain rfl := hi.resolve_left hop
      have : op.onEntry = true ∨ op = .initLoop := by
        rcases ho with ho | ho
        · rcases he with (he | he) | he
          · simp [he] at ho
          · exact .inl he
          · exact .inr he
        · exact absurd ho (fun h => hop (hl.resolve_left (by simpa using h)))
      rw [if_pos this]
  · exact Nat.zero_le _

/-- A micro-operation uses up some of what is left. -/
theorem MicroOp.run_left {prog : List MicroOp} (w : Nat) (hw : w ≤ 1) {s : State} (hwi : Wired prog)
    (hl : s.par.legal = true) {op : MicroOp} {i : Nat} {sub : Sub} (hi : s.upc = .pos i sub)
    (ho : prog[i]? = some op) (hr : op.ready sub s = true) :
    spent w s (op.run i sub s) + (op.run i sub s).left w prog ≤ s.left w prog := by
  have hpos := op.cost_pos w hw i sub s hl hr
  have hN : 1 ≤ s.par.nBus := (legal_bounds hl).2.2.1
  by_cases hend : op = .initLoop ∧ s.par.nBus ≤ s.idx.toNat
  · -- the loop of `INIT` is over
    obtain ⟨rfl, hge⟩ := hend
    have hrun : MicroOp.run .initLoop i sub s = respond codeSuccess s := by
      simp [MicroOp.run, Nat.not_lt.2 hge]
    rw [hrun, spent_silent _ (by simp)]
    simp [State.left, hi, ho, hge]
  · have hleft : s.left w prog = op.cost w s.par.tPoll sub s.cnt.toNat + costs w s.par.tPoll (prog.drop (i + 1)) +
        op.later w s.par.nBus s.idx.toNat (costs w s.par.tPoll (prog.drop 1)) := by
      simp only [State.left, hi, ho, if_neg hend]
    rw [hleft]
    have hpar : (op.run i sub s).par = s.par := by simp
    have hleads := op.run_leads i sub s hl hr
    have hstay := fun sub' => op.cost_stays w hw i sub sub' s hl hr
    generalize op.run i sub s = t at *
    cases hleads with
    | idle h => simp [State.left, h]; omega
    | stays sub' h hr' hs hidx =>
      have hne : op ≠ .initNext := by rintro rfl; exact hs rfl
      have := hstay sub' hne h
      simp only [State.left, h, ho, hpar, hidx, if_neg hend]
      omega
    | goesOn h hc hlast hidx =>
      have hilt : i < prog.length := (List.getElem?_eq_some_iff.1 ho).1
      rcases hwi.1 i hilt op ho with hx | ⟨op', ho', hlead⟩
      · simp [hlast] at hx
      · have hlat := MicroOp.later_leadsTo w s.par.nBus s.idx.toNat t.idx.toNat
          (costs w s.par.tPoll (prog.drop 1)) hlead (hidx.imp_right fun h => by rw [h]) hc.2.2.2.2
        have hd := costs_drop w s.par.tPoll ho'
        simp only [State.left, h, Option.mem_def.1 ho', hpar]
        split
        · rename_i hend'
          -- the loop's test is next, and cheap
          rw [hend'.1] at hd
          have : MicroOp.cost w s.par.tPoll .initLoop .first 0 = w := rfl
          omega
        · rw [op'.cost_first]; omega
    | loops h hop hn hidx =>
      subst hop
      have h1 : prog[1]? = some .initLoop := hwi.2 (List.mem_of_getElem? ho)
      have hd := costs_drop w s.par.tPoll h1
      have hc1 : MicroOp.cost w s.par.tPoll .initLoop .first 0 = w := rfl
      have hcn : MicroOp.cost w s.par.tPoll .initNext sub s.cnt.toNat = w := rfl
      have hl1 : ∀ n x p, MicroOp.later w n x p .initLoop = w + (n - x - 1) * p := by
        intros; simp [MicroOp.later, MicroOp.onEntry]
      have hl2 : ∀ n x p, MicroOp.later w n x p .initNext = w + (n - x - 1) * p := by
        intros; simp [MicroOp.later, MicroOp.onEntry]
      simp only [State.left, h, h1, hpar, hidx, hl1, hl2]
      rw [hpar] at hn
      split
      · omega
      · rename_i hlt
        simp only [true_and, not_le] at hlt
        have : s.par.nBus - s.idx.toNat - 1 = (s.par.nBus - (s.idx.toNat + 1) - 1) + 1 := by omega
        rw [this, Nat.add_mul, Nat.one_mul, MicroOp.cost_first]
        omega

/-- A tick uses up some of what is left. -/
theorem tick_left {prog : List MicroOp} (w : Nat) (hw : w ≤ 1) {s : State} (hwi : Wired prog)
    (hl : s.par.legal = true) (hp : Placed prog s) (hu : s.upc ≠ .idle) :
    spent w s (tick prog s) + (tick prog s).left w prog ≤ s.left w prog := by
  cases hi : s.upc with
  | idle => exact absurd hi hu
  | pos i sub =>
    obtain ⟨op, ho, hr⟩ := hp i sub hi
    cases hn : s.resetNow with
    | false =>
      rw [tick_at hi ho hn]
      exact MicroOp.run_left (s := sampled s) w hw hwi hl hi ho hr
    | true =>
      have hge : w ≤ op.cost w s.par.tPoll sub s.cnt.toNat :=
        le_trans (by split <;> omega) (op.cost_ge w sub s hl hr)
      rw [tick_reset hu hn, spent_silent w (s := s) (t := resetInput (sampled s)) rfl]
      simp only [State.left, resetInput_upc, hi, ho]
      split <;> omega

/-- Along a run: the events made, and how soon it ends. -/
theorem run_left {prog : List MicroOp} (hwi : Wired prog) (n : Nat) (s : State) (hl : s.par.legal = true)
    (hp : Placed prog s) :
    Placed prog (run prog n s) ∧
      (run prog n s).trace.length + (run prog n s).left 0 prog ≤ s.trace.length + s.left 0 prog ∧
      (s.left 1 prog ≤ n → (run prog n s).upc = .idle) := by
  induction n generalizing s with
  | zero =>
    refine ⟨hp, le_refl _, fun h => ?_⟩
    by_contra hu
    have := tick_left 1 (le_refl _) hwi hl hp hu
    have h1 : 1 ≤ spent 1 s (tick prog s) := by unfold spent; split <;> omega
    omega
  | succ n ih =>
    by_cases hu : s.upc = .idle
    · rw [run_idle _ _ _ hu]
      exact ⟨hp, le_refl _, fun _ => hu⟩
    · rw [run_succ]
      obtain ⟨h1, h2, h3⟩ := ih (tick prog s) (by simpa using hl) (hp.tick hwi hl)
      have ht0 := tick_left 0 (by omega) hwi hl hp hu
      have ht1 := tick_left 1 (le_refl _) hwi hl hp hu
      have hs1 : 1 ≤ spent 1 s (tick prog s) := by unfold spent; split <;> omega
      have hs0 : (tick prog s).trace.length ≤ s.trace.length + spent 0 s (tick prog s) := by
        unfold spent
        rcases tick_trace prog s with h | ⟨ev, h⟩ <;> simp [h]
      exact ⟨h1, by omega, fun hn => h3 (by omega)⟩

/-- The micro-operation is one of the loop of `INIT`. -/
def MicroOp.looping (op : MicroOp) : Bool := op == .initStart || op == .initLoop || op.onEntry

theorem MicroOp.cost_le_first (op : MicroOp) (w T c : Nat) (sub : Sub) : op.cost w T sub c ≤ op.cost w T .first 0 := by
  cases op <;> simp [MicroOp.cost] <;> cases sub <;> simp <;> omega

theorem costs_drop_le (w T : Nat) (prog : List MicroOp) (i : Nat) : costs w T (prog.drop i) ≤ costs w T prog := by
  induction i generalizing prog with
  | zero => simp
  | succ i ih =>
    cases prog with
    | nil => simp
    | cons op ops => rw [List.drop_succ_cons, costs_cons]; exact (ih ops).trans (by omega)

/-- What is left at a position is at most what a whole command takes. -/
theorem left_le (w : Nat) {prog : List MicroOp} (s : State) :
    s.left w prog ≤ costs w s.par.tPoll prog +
      if prog.any MicroOp.looping then w + (s.par.nBus - 1) * costs w s.par.tPoll (prog.drop 1) else 0 := by
  unfold State.left
  split
  · exact Nat.zero_le _
  · rename_i i sub hu
    cases ho : prog[i]? with
    | none => exact Nat.zero_le _
    | some op =>
      have hd := costs_drop w s.par.tPoll ho
      have hle := costs_drop_le w s.par.tPoll prog i
      have hc := op.cost_le_first w s.par.tPoll s.cnt.toNat sub
      dsimp only
      split
      · rename_i he
        have : MicroOp.cost w s.par.tPoll op .first 0 = w := by rw [he.1]; rfl
        omega
      · have : op.later w s.par.nBus s.idx.toNat (costs w s.par.tPoll (prog.drop 1)) ≤
            if prog.any MicroOp.looping then w + (s.par.nBus - 1) * costs w s.par.tPoll (prog.drop 1) else 0 := by
          have hm : op ∈ prog := List.mem_of_getElem? ho
          unfold MicroOp.later
          split
          · rename_i h
            rw [if_pos (List.any_eq_true.2 ⟨op, hm, by simp [MicroOp.looping, h]⟩)]
          split
          · rename_i h
            rw [if_pos (List.any_eq_true.2 ⟨op, hm, by rcases h with h | h <;> simp [MicroOp.looping, h]⟩)]
            exact Nat.add_le_add_left (Nat.mul_le_mul_right _ (by omega)) _
          · exact Nat.zero_le _
        omega

theorem left_le_linear (w : Nat) {prog : List MicroOp} (s : State) (h : prog.any MicroOp.looping = false) :
    s.left w prog ≤ costs w s.par.tPoll prog := by
  have := left_le w (prog := prog) s
  rw [if_neg (by simp [h])] at this
  exact this

theorem left_le_loop (w : Nat) {prog : List MicroOp} (s : State) (h : prog.any MicroOp.looping = true) :
    s.left w prog ≤ costs w s.par.tPoll prog + (w + (s.par.nBus - 1) * costs w s.par.tPoll (prog.drop 1)) := by
  have := left_le w (prog := prog) s
  rw [if_pos h] at this
  exact this

/-- The costs of the micro-programs (41_transaction_engine.md R123; 70_reset_and_hazards.md R185). -/
theorem costs_init (w T : Nat) : costs w T initProgram = 5 + 4 * w ∧ costs w T (initProgram.drop 1) = 5 + 3 * w := by
  simp [costs, initProgram, setSclOps, MicroOp.cost]; omega

theorem costs_setScl (w T : Nat) : costs w T setSclProgram = 3 + 2 * w := by
  simp [costs, setSclProgram, setSclOps, MicroOp.cost]; omega

theorem costs_append (w T : Nat) (a b : List MicroOp) : costs w T (a ++ b) = costs w T a + costs w T b := by
  simp [costs]

theorem costs_startPhase (w T : Nat) : costs w T startPhase = 2 + 2 * T := by
  simp [costs, startPhase, MicroOp.cost]
theorem costs_addressPhase (w T : Nat) (r : Bool) : costs w T (addressPhase r) = 3 + 2 * T := by
  simp [costs, addressPhase, MicroOp.cost]; omega
theorem costs_registerPhase (w T : Nat) : costs w T registerPhase = 3 + 2 * T := by
  simp [costs, registerPhase, MicroOp.cost]; omega
theorem costs_payloadPhase (w T : Nat) : costs w T payloadPhase = 3 + 2 * T := by
  simp [costs, payloadPhase, MicroOp.cost]; omega
theorem costs_receivePhase (w T : Nat) : costs w T receivePhase = 3 + 2 * T := by
  simp [costs, receivePhase, MicroOp.cost]; omega
theorem costs_stopPhase (w T : Nat) : costs w T stopPhase = 2 := by
  simp [costs, stopPhase, MicroOp.cost]
theorem costs_singleton (w T : Nat) (op : MicroOp) : costs w T [op] = op.cost w T .first 0 := by
  simp [costs]

theorem costs_sendByte (w T : Nat) : costs w T sendByteProgram = 13 + 8 * T + 2 * w := by
  simp only [sendByteProgram, costs_append, costs_startPhase, costs_addressPhase, costs_registerPhase,
    costs_payloadPhase, costs_stopPhase, costs_singleton, MicroOp.cost]
  omega

theorem costs_receiveByte (w T : Nat) : costs w T receiveByteProgram = 18 + 12 * T + 2 * w := by
  simp only [receiveByteProgram, costs_append, costs_startPhase, costs_addressPhase, costs_registerPhase,
    costs_receivePhase, costs_stopPhase, costs_singleton, MicroOp.cost]
  omega

/-- The fuel of `issue` and `resume` is enough (10_state.md R14). -/
theorem left_le_commandBound (op : BitVec 4) (s : State) (hl : s.par.legal = true) :
    s.left 1 (programOf op) ≤ commandBound s.par := by
  obtain ⟨h1, -, h2, -⟩ := legal_bounds hl
  unfold programOf commandBound
  split
  · have := left_le_loop 1 s (prog := initProgram) (by decide)
    rw [(costs_init _ _).1, (costs_init _ _).2] at this
    omega
  split
  · have := left_le_linear 1 s (prog := setSclProgram) (by decide)
    rw [costs_setScl] at this
    omega
  split
  · have := left_le_linear 1 s (prog := sendByteProgram) (by decide)
    rw [costs_sendByte] at this
    omega
  split
  · have := left_le_linear 1 s (prog := receiveByteProgram) (by decide)
    rw [costs_receiveByte] at this
    omega
  · have := left_le_linear 1 s (prog := []) (by decide)
    simp [costs] at this
    omega

end Sys2Proof.Machine
end

