-- ==== Sys2Proof/Laws/Command.lean ====
section
/-! SUPPORT. A whole command: the register contents it keeps in order, the micro-program it runs, the responses it can
end with, and what a step does. -/

namespace Sys2Proof.Machine

/-! ### Device registers -/

/-- What a micro-operation can do to the device registers. -/
theorem MicroOp.run_dev (op : MicroOp) (i : Nat) (sub : Sub) (s : State) :
    (op.run i sub s).dev = s.dev ∨ (op.run i sub s).dev = (envMove s).dev ∨
      ∃ src k v, op.source = some src ∧ (op.run i sub s).dev = (envMove s).dev.set (loc (src.bus s) k) v := by
  have hc : (envMove { s with cnt := 0#32 }).dev = (envMove s).dev := by
    cases hs : s.env <;> simp [envMove, hs, State.locations]
  cases op with
  | wr src k v => exact .inr (.inr ⟨src, k, v.value s, rfl, by simp [MicroOp.run]⟩)
  | rd k => exact .inr (.inl (by simp [MicroOp.run, rdRead]))
  | rmw src k u =>
    cases sub with
    | second => exact .inr (.inr ⟨src, k, rmwValue u s, rfl, by simp [MicroOp.run, rmwWrite]⟩)
    | first => exact .inr (.inl (by simp [MicroOp.run, rmwRead]))
    | again => exact .inr (.inl (by simp [MicroOp.run, rmwRead]))
  | poll e code =>
    refine .inr (.inl ?_)
    cases sub with
    | first => simp [MicroOp.run, pollControl, hc]
    | again => simp [MicroOp.run, pollControl]
    | second =>
      simp only [MicroOp.run, event_eq]
      unfold pollStatus
      dsimp only
      split
      · simp
      · split <;> simp
  | chk code => left; simp only [MicroOp.run]; split <;> simp
  | ret code => left; simp [MicroOp.run]
  | retData code => left; simp [MicroOp.run]
  | setScl src => left; simp only [MicroOp.run]; split <;> (try (cases src)) <;> simp
  | initStart => left; simp only [MicroOp.run]; split <;> simp
  | initLoop => left; simp only [MicroOp.run]; split <;> simp
  | initNext => left; simp [MicroOp.run]

/-- The register contents are in canonical form and inside the register space. -/
def State.DevOk (s : State) : Prop := s.dev.wf = true ∧ s.dev.within s.locations = true

theorem State.DevOk.envMove {s : State} (h : s.DevOk) : (envMove s).DevOk := by
  unfold State.DevOk at *
  have hl : (Machine.envMove s).locations = s.locations := by simp [State.locations]
  rw [hl]
  cases hs : s.env with
  | nil => rw [envMove_dev_nil _ hs]; exact ⟨rfl, rfl⟩
  | cons m rest =>
    rw [envMove_dev_cons _ _ _ hs]
    exact ⟨Memory.wf_apply h.1 _ _, Memory.within_apply h.2 _⟩

theorem State.DevOk.run {s : State} (h : s.DevOk) {op : MicroOp} {i : Nat} {sub : Sub} (hr : op.ready sub s = true) :
    (op.run i sub s).DevOk := by
  have hl : (op.run i sub s).locations = s.locations := by simp [State.locations]
  have hl' : (Machine.envMove s).locations = s.locations := by simp [State.locations]
  have he := h.envMove
  unfold State.DevOk at *
  rw [hl]
  rw [hl'] at he
  rcases op.run_dev i sub s with hd | hd | ⟨src, k, v, hsrc, hd⟩ <;> rw [hd]
  · exact h
  · exact he
  · refine ⟨Memory.wf_set he.1 _ _, Memory.within_set he.2 (loc_lt s _ k ?_) _⟩
    simp only [MicroOp.ready, hsrc, Bool.and_eq_true] at hr
    simpa [busInRange] using hr.1.1.2

theorem State.DevOk.tick {prog : List MicroOp} {s : State} (h : s.DevOk) (hp : Placed prog s) :
    (tick prog s).DevOk := by
  rcases tick_cases prog s with ht | ht | ⟨-, ht⟩ | ⟨i, sub, op, hu, ho, -, ht⟩ <;> rw [ht]
  · exact h
  · exact h
  · exact h
  · obtain ⟨op', ho', hr⟩ := hp i sub hu
    obtain rfl : op = op' := by rw [ho] at ho'; exact Option.some.inj ho'
    exact State.DevOk.run (s := sampled s) h hr

/-! ### A whole command -/

theorem opField_encode (i : Instr) : opField (encode i) =
    match i with
    | .init _ => 1#4
    | .setScl _ _ => 2#4
    | .sendByte _ _ _ _ => 3#4
    | .receiveByte _ _ _ => 4#4 := by
  cases i <;> simp only [encode, opField, field_or] <;>
    rw [field_place_self _ _ (by omega)] <;> simp [field_place_apart]

/-- The micro-program of a command. -/
def programFor : Instr → List MicroOp
  | .init _ => initProgram
  | .setScl _ _ => setSclProgram
  | .sendByte _ _ _ _ => sendByteProgram
  | .receiveByte _ _ _ => receiveByteProgram

@[simp] theorem programOf_accept (i : Instr) (s : State) :
    programOf (accept (encode i) s).opL = programFor i := by
  cases i <;> simp [opField_encode, programOf, programFor]

theorem programFor_wired (i : Instr) : Wired (programFor i) := by
  rw [← programOf_accept i State.reset]; exact programOf_wired _

/-- An idle sequencer runs the micro-program of the command from acceptance on. -/
theorem exec_idle (i : Instr) {s : State} (h : s.upc = .idle) :
    exec i s = .next (run (programFor i) (commandBound s.par) (accept (encode i) s)) := by
  cases i <;> simp [exec, execInit, execSetScl, execSendByte, execReceiveByte, issue, h, programFor]

theorem accept_placed (i : Instr) (s : State) : Placed (programFor i) (accept (encode i) s) := by
  intro j sub hu
  cases hu
  cases i
  · exact ⟨.initStart, rfl, rfl⟩
  · exact ⟨.setScl .operand, rfl, rfl⟩
  · exact ⟨.chk codeOutOfRange, rfl, rfl⟩
  · exact ⟨.chk codeOutOfRange, rfl, rfl⟩

/-! ### The operand fields of a command's word -/

theorem encode_setScl_fields (bus : BitVec 8) (freq : BitVec 32) :
    busField (encode (.setScl bus freq)) = bus ∧ freqField (encode (.setScl bus freq)) = freq := by
  simp only [encode, busField, freqField, field_or]
  simp [field_place_apart, field_place_self (n := 8) _ 48 (by omega), field_place_self (n := 32) _ 0 (by omega)]

theorem encode_sendByte_fields (bus dev reg data : BitVec 8) :
    busField (encode (.sendByte bus dev reg data)) = bus ∧ devField (encode (.sendByte bus dev reg data)) = dev ∧
      regField (encode (.sendByte bus dev reg data)) = reg ∧
      dataField (encode (.sendByte bus dev reg data)) = data := by
  simp only [encode, busField, devField, regField, dataField, field_or]
  simp [field_place_apart, field_place_self (n := 8) _ 48 (by omega), field_place_self (n := 8) _ 40 (by omega),
    field_place_self (n := 8) _ 32 (by omega), field_place_self (n := 8) _ 24 (by omega)]

theorem encode_receiveByte_fields (bus dev reg : BitVec 8) :
    busField (encode (.receiveByte bus dev reg)) = bus ∧ devField (encode (.receiveByte bus dev reg)) = dev ∧
      regField (encode (.receiveByte bus dev reg)) = reg := by
  simp only [encode, busField, devField, regField, field_or]
  simp [field_place_apart, field_place_self (n := 8) _ 48 (by omega), field_place_self (n := 8) _ 40 (by omega),
    field_place_self (n := 8) _ 32 (by omega)]

theorem encode_init_field (cfgp : BitVec 1) : cfgpField (encode (.init cfgp)) = cfgp := by
  simp only [encode, cfgpField, field_or]
  simp [field_place_apart, field_place_self (n := 1) _ 0 (by omega)]

/-- The responses a micro-operation can end the command with: code, and whether data comes with it. -/
def MicroOp.answers : MicroOp → List (Byte × Bool)
  | .chk c | .poll _ c | .ret c => [(c, false)]
  | .retData c => [(c, true)]
  | .setScl src => [codeOutOfRange, codeInvalidFrequency, codeNoPrescalerFits].map fun c => (c, src == .entry)
  | .initStart => [(codeNullConfig, false)]
  | .initLoop => [(codeSuccess, false)]
  | .wr _ _ _ | .rd _ | .rmw _ _ _ | .initNext => []

theorem sclSearch_fail {n : Nat} {l : List Nat} {c : Nat} {code : Byte} (h : sclSearch n l c = .fail code) :
    code = codeNoPrescalerFits := by
  induction l generalizing c with
  | nil => simp [sclSearch] at h; exact h.symm
  | cons p l ih =>
    simp only [sclSearch] at h
    split at h
    · cases h
    · exact ih h

theorem sclCompute_fail {p : Config.Params} {b : BitVec 8} {f : BitVec 32} {code : Byte}
    (h : sclCompute p b f = .fail code) :
    code ∈ [codeOutOfRange, codeInvalidFrequency, codeNoPrescalerFits] := by
  unfold sclCompute at h
  split at h
  · split at h
    · cases h; simp
    split at h
    · cases h; simp
    dsimp only at h
    split at h
    · cases h; simp
    · rw [sclSearch_fail h]; simp
  · cases h; simp

theorem MicroOp.run_answers (op : MicroOp) (i : Nat) (sub : Sub) (s : State)
    (hu : (op.run i sub s).upc = .idle) :
    (op.run i sub s).rspValid = true ∧ ((op.run i sub s).rspCode, (op.run i sub s).rspDv) ∈ op.answers := by
  cases op with
  | chk code =>
    simp only [MicroOp.run] at hu ⊢
    split at hu
    · simp at hu
    · rename_i h; rw [if_neg h]; simp [MicroOp.answers]
  | wr src k v => simp [MicroOp.run, event_eq] at hu
  | rd k => simp [MicroOp.run, event_eq, rdRead] at hu
  | rmw src k u =>
    cases sub <;> simp [MicroOp.run, event_eq, rmwRead, rmwWrite] at hu
  | poll e code =>
    cases sub with
    | first => simp [MicroOp.run, pollControl] at hu
    | again => simp [MicroOp.run, event_eq, pollControl] at hu
    | second =>
      simp only [MicroOp.run, event_eq] at hu ⊢
      unfold pollStatus at hu ⊢
      dsimp only at hu ⊢
      split at hu
      · simp at hu
      · split at hu
        · rename_i h1 h2
          rw [if_neg h1, if_pos h2]; simp [MicroOp.answers]
        · simp at hu
  | ret code => simp [MicroOp.run, MicroOp.answers]
  | retData code => simp [MicroOp.run, MicroOp.answers]
  | setScl src =>
    simp only [MicroOp.run] at hu ⊢
    split at hu
    · simp at hu
    · rename_i code hc
      have := sclCompute_fail hc
      cases src <;> simp [MicroOp.answers] at this ⊢ <;> exact this
  | initStart =>
    simp only [MicroOp.run] at hu ⊢
    split at hu
    · rename_i h; rw [if_pos h]; simp [MicroOp.answers]
    · simp at hu
  | initLoop =>
    simp only [MicroOp.run] at hu ⊢
    split at hu
    · simp at hu
    · rename_i h; rw [if_neg h]; simp [MicroOp.answers]
  | initNext => simp [MicroOp.run] at hu

/-- A command that nothing disturbs ends with one of its micro-program's responses. -/
theorem run_answers {prog : List MicroOp} (n : Nat) (s : State) (hu : s.Undisturbed) (hs : s.upc ≠ .idle)
    (hi : (run prog n s).upc = .idle) :
    (run prog n s).rspValid = true ∧
      ∃ op ∈ prog, ((run prog n s).rspCode, (run prog n s).rspDv) ∈ op.answers := by
  refine (run_keeps (P := fun t => t.Undisturbed ∧ (t.upc = .idle → t.rspValid = true ∧
    ∃ op ∈ prog, (t.rspCode, t.rspDv) ∈ op.answers)) ?_ n s ⟨hu, fun h => absurd h hs⟩).2 hi
  rintro t ⟨h1, h2⟩
  refine ⟨h1.tick prog, fun h => ?_⟩
  rcases tick_cases prog t with ht | ht | ⟨hr, -⟩ | ⟨i, sub, op, -, ho, -, ht⟩
  · rw [ht] at h ⊢; exact h2 h
  · rw [ht] at h ⊢; exact h2 h
  · rw [h1.resetNow] at hr; cases hr
  · rw [ht] at h ⊢
    obtain ⟨hv, ha⟩ := op.run_answers i sub (sampled t) h
    exact ⟨hv, op, List.mem_of_getElem? ho, ha⟩

/-- A command run from acceptance comes back to an idle sequencer. -/
theorem exec_returns {i : Instr} {s : State} (hl : s.par.legal = true) :
    (run (programFor i) (commandBound s.par) (accept (encode i) s)).upc = .idle := by
  refine (run_left (programFor_wired i) (commandBound s.par) (accept (encode i) s) hl (accept_placed i s)).2.2 ?_
  have := left_le_commandBound (accept (encode i) s).opL (accept (encode i) s) hl
  rwa [programOf_accept] at this

/-! ### A step -/

/-- What a run keeps, reset or not: parameters, register contents in order, a position, and the opcode while it lasts. -/
theorem run_keeps_placed {prog : List MicroOp} (hw : Wired prog) (n : Nat) (s : State) (hl : s.par.legal = true)
    (hd : s.DevOk) (hp : Placed prog s) :
    (run prog n s).par = s.par ∧ (run prog n s).DevOk ∧ Placed prog (run prog n s) ∧
      ((run prog n s).upc = .idle ∨ (run prog n s).opL = s.opL) := by
  refine run_keeps (P := fun t => t.par = s.par ∧ t.DevOk ∧ Placed prog t ∧ (t.upc = .idle ∨ t.opL = s.opL)) ?_ n s ⟨rfl, hd, hp, .inr rfl⟩
  rintro t ⟨h1, h2, h3, h4⟩
  refine ⟨by simp [h1], h2.tick h3, h3.tick hw (by rw [h1]; exact hl), ?_⟩
  rcases tick_cases prog t with ht | ht | ⟨-, ht⟩ | ⟨i, sub, op, hu, -, -, ht⟩ <;> rw [ht]
  · exact h4
  · exact h4
  · exact .inl rfl
  · exact .inr ((op.run_effect i sub (sampled t)).1.1.trans (h4.resolve_left (by simp [hu])))

/-- What a step does in a state that meets the invariant: it runs a command on from a position of it, or it ends at an
idle sequencer without an event. -/
theorem step_cases (s : State) (hi : s.Inv) :
    (∃ a : State, a.par = s.par ∧ a.DevOk ∧ Placed (programOf a.opL) a ∧ a.trace = s.trace ∧
      step s = .next (run (programOf a.opL) (commandBound a.par) a)) ∨
    (∃ t, step s = .next t ∧ t.upc = .idle ∧ t.par = s.par ∧ t.DevOk ∧ t.trace = s.trace) := by
  obtain ⟨hl, hw, hwi, hp⟩ := hi
  have hd : s.DevOk := ⟨hw, hwi⟩
  unfold step
  cases hu : s.upc with
  | pos i sub =>
    left
    refine ⟨s, rfl, hd, (positionOk_iff s).1 hp, rfl, ?_⟩
    simp [resume, hp]
  | idle =>
    cases hh : s.host with
    | nil => right; exact ⟨s, rfl, hu, rfl, hd, rfl⟩
    | cons a rest =>
      cases a with
      | reset => right; exact ⟨_, rfl, rfl, rfl, hd, rfl⟩
      | present w =>
        cases hdec : decode w with
        | error e => right; exact ⟨rejectIllegal { s with host := rest }, by simp only [stepWord, hdec, ← hu], rfl, rfl, hd, rfl⟩
        | ok i =>
          left
          refine ⟨accept (encode i) { s with host := rest }, rfl, hd, by rw [programOf_accept]; exact accept_placed i _, rfl, ?_⟩
          simp only [stepWord, hdec, programOf_accept]
          rw [exec_idle i rfl, ← hu]; rfl

end Sys2Proof.Machine
end

