-- ==== Sys2Proof/Laws/Frame.lean ====
section
/-! SUPPORT. Which scratch latches a run leaves alone, and when two states' environments leave the same behind. -/

namespace Sys2Proof.Machine

/-- Which scratch latches a micro-operation can change. -/
theorem MicroOp.run_frame (op : MicroOp) (i : Nat) (sub : Sub) (s : State) :
    ((op.run i sub s).cnt = s.cnt ∧ (op.run i sub s).doneL = s.doneL ∨ ∃ e c, op = .poll e c) ∧
    ((op.run i sub s).idx = s.idx ∨ op = .initStart ∨ op = .initNext) ∧
    ((op.run i sub s).psL = s.psL ∧ (op.run i sub s).brL = s.brL ∨ ∃ src, op = .setScl src) := by
  cases op with
  | poll e code =>
    refine ⟨.inr ⟨e, code, rfl⟩, .inl ?_, .inl ?_⟩ <;> cases sub <;> simp only [MicroOp.run]
    all_goals rw [event_eq]
    all_goals try simp [pollControl]
    all_goals (unfold pollStatus; dsimp only; split <;> (try split) <;> simp)
  | setScl src =>
    refine ⟨.inl ?_, .inl ?_, .inr ⟨src, rfl⟩⟩ <;> simp only [MicroOp.run] <;> split <;> (try cases src) <;> simp
  | initStart =>
    refine ⟨.inl ?_, .inr (.inl rfl), .inl ?_⟩ <;> simp only [MicroOp.run] <;> split <;> simp
  | initNext => refine ⟨.inl ?_, .inr (.inr rfl), .inl ?_⟩ <;> simp [MicroOp.run]
  | chk code => refine ⟨.inl ?_, .inl ?_, .inl ?_⟩ <;> simp only [MicroOp.run] <;> split <;> simp
  | initLoop => refine ⟨.inl ?_, .inl ?_, .inl ?_⟩ <;> simp only [MicroOp.run] <;> split <;> simp
  | wr src k v => refine ⟨.inl ?_, .inl ?_, .inl ?_⟩ <;> simp [MicroOp.run, event_eq]
  | rd k => refine ⟨.inl ?_, .inl ?_, .inl ?_⟩ <;> simp [MicroOp.run, event_eq, rdRead]
  | rmw src k u => refine ⟨.inl ?_, .inl ?_, .inl ?_⟩ <;> cases sub <;> simp [MicroOp.run, event_eq, rmwRead, rmwWrite]
  | ret c => refine ⟨.inl ?_, .inl ?_, .inl ?_⟩ <;> simp [MicroOp.run]
  | retData c => refine ⟨.inl ?_, .inl ?_, .inl ?_⟩ <;> simp [MicroOp.run]

/-- What a run of a micro-program without polls, without an index update, or without a search keeps. -/
theorem run_frame {prog : List MicroOp} (n : Nat) (s : State) (hd : s.Undisturbed) :
    ((∀ e c, .poll e c ∉ prog) → (run prog n s).cnt = s.cnt ∧ (run prog n s).doneL = s.doneL) ∧
    (.initStart ∉ prog → .initNext ∉ prog → (run prog n s).idx = s.idx) ∧
    ((∀ src, .setScl src ∉ prog) → (run prog n s).psL = s.psL ∧ (run prog n s).brL = s.brL) := by
  refine (run_keeps (P := fun t => t.Undisturbed ∧ ((∀ e c, .poll e c ∉ prog) → t.cnt = s.cnt ∧ t.doneL = s.doneL) ∧
    (.initStart ∉ prog → .initNext ∉ prog → t.idx = s.idx) ∧
    ((∀ src, .setScl src ∉ prog) → t.psL = s.psL ∧ t.brL = s.brL)) ?_ n s ⟨hd, fun _ => ⟨rfl, rfl⟩, fun _ _ => rfl, fun _ => ⟨rfl, rfl⟩⟩).2
  rintro t ⟨hu, h1, h2, h3⟩
  refine ⟨hu.tick prog, ?_⟩
  rcases tick_cases prog t with ht | ht | ⟨hr, -⟩ | ⟨i, sub, op, -, ho, -, ht⟩
  · rw [ht]; exact ⟨h1, h2, h3⟩
  · rw [ht]; exact ⟨h1, h2, h3⟩
  · rw [hu.resetNow] at hr; cases hr
  · rw [ht]
    have hm := List.mem_of_getElem? ho
    obtain ⟨f1, f2, f3⟩ := op.run_frame i sub (sampled t)
    refine ⟨fun hn => ?_, fun hn hn' => ?_, fun hn => ?_⟩
    · rcases f1 with f1 | ⟨e, c, rfl⟩
      · rw [f1.1, f1.2]; exact h1 hn
      · exact absurd hm (hn e c)
    · rcases f2 with f2 | rfl | rfl
      · rw [f2]; exact h2 hn hn'
      · exact absurd hm hn
      · exact absurd hm hn'
    · rcases f3 with f3 | ⟨src, rfl⟩
      · rw [f3.1, f3.2]; exact h3 hn
      · exact absurd hm (hn src)

/-- The environment's own moves depend on the device registers, the script and the parameters only. -/
theorem devAfter_congr (n : Nat) {s t : State} (he : s.env = t.env) (hd : s.dev = t.dev) (hp : s.par = t.par) :
    devAfter n s = devAfter n t := by
  induction n generalizing s t with
  | zero => exact hd
  | succ n ih =>
    refine ih (by simp [he]) ?_ (by simp [hp])
    cases hs : t.env with
    | nil => rw [envMove_dev_nil _ hs, envMove_dev_nil _ (he.trans hs)]
    | cons m r =>
      rw [envMove_dev_cons _ _ _ hs, envMove_dev_cons _ _ _ (he.trans hs)]
      simp [State.locations, hd, hp]

end Sys2Proof.Machine
end

