-- ==== Sys2Proof/Laws/Script.lean ====
section
/-! SUPPORT. Running a micro-program against an environment whose answers are scripted: one lemma per
micro-operation, to be chained along a micro-program. -/

namespace Sys2Proof.Machine

/-- From `s`, at most `n` ticks lead to `t`. -/
def Goes (prog : List MicroOp) (n : Nat) (s t : State) : Prop := ∃ k, k ≤ n ∧ run prog k s = t

theorem Goes.refl (prog : List MicroOp) (s : State) : Goes prog 0 s s := ⟨0, le_refl _, rfl⟩

theorem Goes.trans {prog : List MicroOp} {m n : Nat} {s t u : State} (h : Goes prog m s t) (h' : Goes prog n t u) :
    Goes prog (m + n) s u := by
  obtain ⟨j, hj, rfl⟩ := h
  obtain ⟨k, hk, rfl⟩ := h'
  exact ⟨j + k, by omega, run_add _ _ _ _⟩

theorem Goes.one {prog : List MicroOp} {s t : State} (h : tick prog s = t) : Goes prog 1 s t :=
  ⟨1, le_refl _, by rw [run_succ, h]; rfl⟩

/-- Where a run leads to an idle sequencer, more ticks add nothing. -/
theorem Goes.run {prog : List MicroOp} {n m : Nat} {s t : State} (h : Goes prog n s t) (hi : t.upc = .idle)
    (hm : n ≤ m) : run prog m s = t := by
  obtain ⟨k, hk, rfl⟩ := h
  obtain ⟨d, rfl⟩ := Nat.exists_eq_add_of_le (hk.trans hm)
  rw [run_add, run_idle _ _ _ hi]

/-- The command accepted in `s` stands at micro-operation `i` in `t`, having made the events `done`; `rest` is what is
left of the script. -/
structure Stands (s : State) (i : Nat) (done : List Event) (rest : List Move) (t : State) : Prop where
  upc : t.upc = .pos i .first
  trace : t.trace = s.trace ++ done
  env : t.env = rest
  par : t.par = s.par
  host : t.host = s.host
  latches : SameLatches s t
  und : t.Undisturbed

theorem answering_append (a b : List Event) : answering (a ++ b) = answering a ++ answering b := by
  simp [answering]

/-- The answer the script gives is the value the read returns. -/
theorem regRead_answered {b : BitVec 8} {k : Kind} {v : Byte} {rest : List Move} {s : State}
    (he : s.env = answerMove (.read b k v) :: rest) (hb : b.toNat < s.par.nBus) :
    (regRead b k (envMove s)).1 = v := by
  apply regRead_value
  rw [envMove_dev_cons _ _ _ he]
  have := loc_lt s b k hb
  simp [answerMove, Memory.apply, this]

variable {prog : List MicroOp} {s t : State} {i : Nat} {done : List Event} {rest : List Move}

/-- Looking at the reset line moves nothing else. -/
theorem Stands.sampled (h : Stands s i done rest t) : Stands s i done rest (sampled t) :=
  ⟨h.upc, h.trace, h.env, h.par, h.host, h.latches, h.und.sampled⟩

/-- The tick at the micro-operation the command stands at. -/
theorem Stands.tick {op : MicroOp} (h : Stands s i done rest t) (ho : prog[i]? = some op) :
    Goes prog 1 t (op.run i .first (Machine.sampled t)) :=
  Goes.one (tick_at h.upc ho h.und.resetNow)

/-- `CHK` with the bus in range. -/
theorem Stands.chk {code : Byte} (h : Stands s i done rest t) (ho : prog[i]? = some (.chk code))
    (hb : s.busL.toNat < s.par.nBus) : ∃ t', Goes prog 1 t t' ∧ Stands s (i + 1) done rest t' := by
  refine ⟨_, h.tick ho, ?_⟩
  replace h := h.sampled
  generalize Machine.sampled t = t at h
  have : busInRange t.par t.busL = true := by simp [busInRange, h.par, h.latches.2.1, hb]
  simp only [MicroOp.run, this, if_true]
  exact ⟨rfl, h.trace, h.env, h.par, h.host, h.latches, h.und⟩

/-- `WR` on the command's bus. -/
theorem Stands.wr {k : Kind} {v : WrVal} {b : Byte} (h : Stands s i done (answerMove (.write s.busL k b) :: rest) t)
    (ho : prog[i]? = some (.wr .operand k v)) (hv : v.value t = b) :
    ∃ t', Goes prog 1 t t' ∧ Stands s (i + 1) (done ++ [.write s.busL k b]) rest t' := by
  refine ⟨_, h.tick ho, ?_⟩
  replace h := h.sampled
  replace hv : v.value (Machine.sampled t) = b := by cases v <;> exact hv
  generalize Machine.sampled t = t at h hv
  refine ⟨rfl, ?_, ?_, by simp [h.par], by simp [h.host], ?_, h.und.of_eq (by simp)⟩
  · simp [MicroOp.run, h.trace, Source.bus, h.latches.2.1, hv]
  · simp [MicroOp.run, h.env]
  · have := h.latches
    simp only [SameLatches] at *
    simpa [MicroOp.run] using this

/-- `RMW` on the command's bus: the value written is computed from the value answered. -/
theorem Stands.rmw {k : Kind} {u : Update} {c v : Byte}
    (h : Stands s i done (answerMove (.read s.busL k c) :: answerMove (.write s.busL k v) :: rest) t)
    (ho : prog[i]? = some (.rmw .operand k u)) (hb : s.busL.toNat < s.par.nBus)
    (hv : ∀ x : State, x.par = s.par → x.tmp = c → x.psL = t.psL → rmwValue u x = v) :
    ∃ t', Goes prog 2 t t' ∧ Stands s (i + 1) (done ++ [.read s.busL k c, .write s.busL k v]) rest t' := by
  have hgo := h.tick ho
  replace h := h.sampled
  replace hv : ∀ x : State, x.par = s.par → x.tmp = c → x.psL = (Machine.sampled t).psL → rmwValue u x = v := hv
  generalize Machine.sampled t = y at h hv hgo
  have hbus := h.latches.2.1
  have hread : (regRead s.busL k (envMove y)).1 = c := regRead_answered h.env (by rw [h.par]; exact hb)
  simp only [MicroOp.run, event_eq] at hgo
  let m := rmwRead .operand k i (envMove y)
  have hmu : m.upc = .pos i .second := rfl
  have hund : m.Undisturbed := h.und.of_eq (by simp [m, rmwRead])
  refine ⟨_, hgo.trans (Goes.one (tick_at hmu ho hund.resetNow)), ?_⟩
  have hwu : (Machine.sampled m).Undisturbed := hund.sampled
  have hmp : (Machine.sampled m).par = s.par := by simp [m, rmwRead, h.par]
  have hmt : (Machine.sampled m).tmp = c := by simp [m, rmwRead, Source.bus, hbus, hread]
  have hme : (Machine.sampled m).env = answerMove (.write s.busL k v) :: rest := by simp [m, rmwRead, h.env]
  have hmr : (Machine.sampled m).trace = s.trace ++ (done ++ [.read s.busL k c]) := by
    simp [m, rmwRead, Source.bus, hbus, h.trace, hread]
  have hmb : (Machine.sampled m).busL = s.busL := by simp [m, rmwRead, hbus]
  have hmh : (Machine.sampled m).host = s.host := by simp [m, rmwRead, h.host]
  have hw := hv _ hmp hmt (by simp [m, rmwRead])
  have hml : SameLatches s (Machine.sampled m) := by
    have := h.latches
    simp only [SameLatches] at *
    simpa [m, rmwRead] using this
  generalize Machine.sampled m = m at hwu hmp hmt hme hmr hmb hmh hw hml
  refine ⟨rfl, ?_, ?_, by simp [hmp], by simp [hmh], ?_, hwu.of_eq (by simp)⟩
  · simp [MicroOp.run, rmwWrite, hw, hmr, hmb, Source.bus]
  · simp [MicroOp.run, rmwWrite, hme]
  · simp only [SameLatches] at *
    simpa [MicroOp.run, rmwWrite] using hml

/-- `RD` on the command's bus: the byte is held. -/
theorem Stands.rd {k : Kind} {v : Byte} (h : Stands s i done (answerMove (.read s.busL k v) :: rest) t)
    (ho : prog[i]? = some (.rd k)) (hb : s.busL.toNat < s.par.nBus) :
    ∃ t', Goes prog 1 t t' ∧ Stands s (i + 1) (done ++ [.read s.busL k v]) rest t' ∧ t'.rspData = v := by
  refine ⟨_, h.tick ho, ?_⟩
  replace h := h.sampled
  generalize Machine.sampled t = t at h
  have hbus := h.latches.2.1
  have hread : (regRead s.busL k (envMove t)).1 = v := regRead_answered h.env (by rw [h.par]; exact hb)
  refine ⟨⟨rfl, ?_, ?_, by simp [h.par], by simp [h.host], ?_, h.und.of_eq (by simp)⟩, ?_⟩
  · simp [MicroOp.run, rdRead, h.trace, hbus, hread]
  · simp [MicroOp.run, rdRead, h.env]
  · have := h.latches
    simp only [SameLatches] at *
    simpa [MicroOp.run, rdRead] using this
  · simp [MicroOp.run, rdRead, hbus, hread]

/-! ### Polls -/

theorem pollMatches_iff (p : Config.Params) (e : Expect) (c st : Byte) :
    pollMatches p e (doneFlag p c) st = true ↔ Hit p e (c, st) := by
  simp [pollMatches, Hit]

/-- An `RMW` leaves the byte that is held alone. -/
theorem Stands.rmw_rspData {k : Kind} {u : Update} (h : Stands s i done rest t)
    (ho : prog[i]? = some (.rmw .operand k u)) : (run prog 2 t).rspData = t.rspData := by
  have hm := tick_at h.upc ho h.und.resetNow
  have hr : (MicroOp.run (.rmw .operand k u) i .first (Machine.sampled t)).Undisturbed :=
    h.und.sampled.of_eq (by simp)
  rw [run_succ, hm, run_succ, tick_at (i := i) (sub := .second) rfl ho hr.resetNow]
  simp [run, MicroOp.run, rmwWrite, rmwRead]

/-- The sequencer is inside the poll at index `i`, about to begin an iteration (`first` or `again`), `n` iterations
made. -/
structure Polling (s : State) (i n : Nat) (done : List Event) (rest : List Move) (t : State) : Prop where
  upc : (t.upc = .pos i .first ∧ n = 0) ∨ (t.upc = .pos i .again ∧ t.cnt.toNat = n)
  trace : t.trace = s.trace ++ done
  env : t.env = rest
  par : t.par = s.par
  host : t.host = s.host
  latches : SameLatches s t
  und : t.Undisturbed

theorem Stands.polling (h : Stands s i done rest t) : Polling s i 0 done rest t :=
  ⟨.inl ⟨h.upc, rfl⟩, h.trace, h.env, h.par, h.host, h.latches, h.und⟩

/-- One iteration: after two events, on, out, or round again. -/
theorem Polling.iteration {e : Expect} {code c st : Byte} {n : Nat}
    (h : Polling s i n done (answerMove (.read s.busL .ctrl c) :: answerMove (.read s.busL .stat st) :: rest) t)
    (ho : prog[i]? = some (.poll e code)) (hb : s.busL.toNat < s.par.nBus) (hn : n < s.par.tPoll)
    (hT : s.par.tPoll < 4294967296) :
    ∃ t', run prog 2 t = t' ∧ t'.trace = s.trace ++ (done ++ [.read s.busL .ctrl c, .read s.busL .stat st]) ∧
      t'.env = rest ∧ t'.par = s.par ∧ t'.host = s.host ∧ SameLatches s t' ∧ t'.cnt.toNat = n + 1 ∧ t'.tmp = t.tmp ∧
      t'.Undisturbed ∧
      (Hit s.par e (c, st) → t'.upc = .pos (i + 1) .first ∧ t'.rspData = t.rspData ∧ t'.rspValid = t.rspValid ∧
        t'.rspCode = t.rspCode) ∧
      (¬ Hit s.par e (c, st) → n + 1 = s.par.tPoll → t'.Answered code) ∧
      (¬ Hit s.par e (c, st) → n + 1 ≠ s.par.tPoll → t'.upc = .pos i .again ∧ t'.rspData = t.rspData ∧
        t'.rspValid = t.rspValid ∧ t'.rspCode = t.rspCode) := by
  have hbus := h.latches.2.1
  -- the control read
  obtain ⟨z, hz, hzn⟩ : ∃ z : State, (tick prog t = pollControl i (envMove z)) ∧
      (z.cnt.toNat = n ∧ z = { t with cnt := z.cnt, resetLine := t.resetLine.tail }) := by
    rcases h.upc with ⟨hu, h0⟩ | ⟨hu, hc⟩
    · exact ⟨{ sampled t with cnt := 0#32 }, tick_at hu ho h.und.resetNow, by simp [h0], rfl⟩
    · exact ⟨sampled t, tick_at hu ho h.und.resetNow, hc, rfl⟩
  obtain ⟨hzc, hzt⟩ := hzn
  have hze : z.env = answerMove (.read s.busL .ctrl c) :: answerMove (.read s.busL .stat st) :: rest := by
    rw [hzt]; exact h.env
  have hzp : z.par = s.par := by rw [hzt]; exact h.par
  have hzb : z.busL = s.busL := by rw [hzt]; exact hbus
  have hread : (regRead s.busL .ctrl (envMove z)).1 = c := regRead_answered hze (by rw [hzp]; exact hb)
  have hzu : z.Undisturbed := h.und.sampled.of_eq (by rw [hzt]; rfl)
  let m := sampled (pollControl i (envMove z))
  have hcu : (pollControl i (envMove z)).Undisturbed := hzu.of_eq (by simp [pollControl])
  have hmun : m.Undisturbed := hcu.sampled
  have hmp : m.par = s.par := by simp [m, pollControl, hzp]
  have hmd : m.doneL = doneFlag s.par c := by simp [m, pollControl, hzp, hzb, hread]
  have hme : m.env = answerMove (.read s.busL .stat st) :: rest := by simp [m, pollControl, hze]
  have hmb : m.busL = s.busL := by simp [m, pollControl, hzb]
  have hread2 : (regRead s.busL .stat (envMove m)).1 = st := regRead_answered hme (by rw [hmp]; exact hb)
  have hmc : m.cnt = z.cnt := by simp [m, pollControl]
  have hcnt : (z.cnt + 1#32).toNat = n + 1 := by
    rw [BitVec.toNat_add, hzc]; simp; omega
  have hrun : run prog 2 t = pollStatus e code i (envMove m) := by
    rw [run_succ, hz, run_succ, tick_at (i := i) (sub := .second) rfl ho hcu.resetNow]
    rfl
  have htr : m.trace = s.trace ++ (done ++ [.read s.busL .ctrl c]) := by
    simp [m, pollControl, hzb, hread, ← List.append_assoc]
    rw [hzt]; simp [h.trace]
  have hlat : SameLatches s m := by
    have := h.latches
    simp only [SameLatches] at *
    simp [m, pollControl]
    rw [hzt]; simpa using this
  have hhost : m.host = s.host := by simp [m, pollControl]; rw [hzt]; exact h.host
  have htmp : m.tmp = t.tmp := by simp [m, pollControl]; rw [hzt]
  have hrd : m.rspData = t.rspData := by simp [m, pollControl]; rw [hzt]
  have hrv : m.rspValid = t.rspValid := by simp [m, pollControl]; rw [hzt]
  have hrc : m.rspCode = t.rspCode := by simp [m, pollControl]; rw [hzt]
  refine ⟨_, hrun, ?_⟩
  have hpm : pollMatches (envMove m).par e (envMove m).doneL (regRead (envMove m).busL .stat (envMove m)).1 = true ↔
      Hit s.par e (c, st) := by
    rw [← pollMatches_iff]; simp [hmp, hmd, hmb, hread2]
  simp only [SameLatches] at hlat
  by_cases hh : Hit s.par e (c, st)
  · rw [pollStatus]
    simp only [hpm.2 hh, if_true]
    simp [SameLatches, State.Undisturbed, hmb, hread2, htr, hme, hmp, hhost, hmc, hcnt, htmp, hrd, hrv, hrc, hh]
    exact ⟨by simpa [hmb] using hlat, by simpa [State.Undisturbed] using hmun⟩
  · have hpf : pollMatches (envMove m).par e (envMove m).doneL (regRead (envMove m).busL .stat (envMove m)).1 = false := by
      simpa using (not_congr hpm).2 hh
    rw [pollStatus]
    simp only [hpf]
    by_cases hx : n + 1 = s.par.tPoll
    · simp [SameLatches, State.Answered, State.Undisturbed, hmb, hread2, htr, hme, hmp, hhost, hmc, hcnt, htmp, hrd, hrv, hrc, hh, hx]
      exact ⟨by simpa [hmb] using hlat, by simpa [State.Undisturbed] using hmun⟩
    · simp [SameLatches, State.Undisturbed, hmb, hread2, htr, hme, hmp, hhost, hmc, hcnt, htmp, hrd, hrv, hrc, hh, hx]
      exact ⟨by simpa [hmb] using hlat, by simpa [State.Undisturbed] using hmun⟩

/-- Iterations that do not hit, while some are left. -/
theorem Polling.misses {e : Expect} {code : Byte} (its : List (Byte × Byte)) {n : Nat} {done : List Event} {t : State}
    (h : Polling s i n done (answering (pollEvents s.busL its) ++ rest) t) (ho : prog[i]? = some (.poll e code))
    (hb : s.busL.toNat < s.par.nBus) (hn : n + its.length < s.par.tPoll) (hT : s.par.tPoll < 4294967296)
    (hm : ∀ m ∈ its, ¬ Hit s.par e m) :
    ∃ t', run prog (2 * its.length) t = t' ∧ Polling s i (n + its.length) (done ++ pollEvents s.busL its) rest t' ∧
      t'.tmp = t.tmp ∧ t'.rspData = t.rspData ∧ t'.rspValid = t.rspValid ∧ t'.rspCode = t.rspCode := by
  induction its generalizing n done t with
  | nil => exact ⟨t, rfl, by simpa [pollEvents, answering] using h, rfl, rfl, rfl, rfl⟩
  | cons it its ih =>
    have h' : Polling s i n done (answerMove (.read s.busL .ctrl it.1) :: answerMove (.read s.busL .stat it.2) ::
        (answering (pollEvents s.busL its) ++ rest)) t := by
      simpa [pollEvents, answering] using h
    obtain ⟨t1, hr, htr, he, hp, hh, hl, hc, htmp, hun, -, -, hgo⟩ := h'.iteration ho hb (by simp at hn; omega) hT
    obtain ⟨hu, hd, hv, hcd⟩ := hgo (hm it (by simp)) (by simp at hn; omega)
    have h1 : Polling s i (n + 1) (done ++ [.read s.busL .ctrl it.1, .read s.busL .stat it.2])
        (answering (pollEvents s.busL its) ++ rest) t1 := ⟨.inr ⟨hu, hc⟩, htr, he, hp, hh, hl, hun⟩
    obtain ⟨t', hr', h2, a, b, c, d⟩ := ih h1 (by simp at hn; omega) fun m hmem => hm m (by simp [hmem])
    refine ⟨t', ?_, ?_, a.trans htmp, b.trans hd, c.trans hv, d.trans hcd⟩
    · rw [List.length_cons, Nat.mul_add, Nat.add_comm, run_add, hr, hr']
    · have := h2
      simp only [List.length_cons]
      rw [show n + (its.length + 1) = n + 1 + its.length by omega]
      simpa [pollEvents] using this

/-- A poll that succeeds. -/
theorem Stands.poll {e : Expect} {code : Byte} {its : List (Byte × Byte)}
    (h : Stands s i done (answering (pollEvents s.busL its) ++ rest) t) (ho : prog[i]? = some (.poll e code))
    (hb : s.busL.toNat < s.par.nBus) (hT : s.par.tPoll < 4294967296) (hs : PollSucceeds s.par e its) :
    ∃ t', run prog (2 * its.length) t = t' ∧ Stands s (i + 1) (done ++ pollEvents s.busL its) rest t' ∧
      t'.cnt.toNat = its.length ∧
      t'.tmp = t.tmp ∧ t'.rspData = t.rspData ∧ t'.rspValid = t.rspValid ∧ t'.rspCode = t.rspCode := by
  obtain ⟨ms, hit, rfl, hm, hh, hle⟩ := hs
  simp only [List.length_append, List.length_singleton] at hle ⊢
  have h' : Polling s i 0 done (answering (pollEvents s.busL ms) ++
      (answerMove (.read s.busL .ctrl hit.1) :: answerMove (.read s.busL .stat hit.2) :: rest)) t := by
    simpa [pollEvents, answering] using h.polling
  obtain ⟨t1, hr, h1, a, b, c, d⟩ := h'.misses ms ho hb (by omega) hT hm
  obtain ⟨t2, hr2, htr, he, hp, hho, hl, hc, htmp, hun, hgo, -, -⟩ := h1.iteration ho hb (by omega) hT
  obtain ⟨hu, hd, hv, hcd⟩ := hgo hh
  refine ⟨t2, ?_, ⟨hu, ?_, he, hp, hho, hl, hun⟩, by omega, htmp.trans a, hd.trans b, hv.trans c, hcd.trans d⟩
  · rw [Nat.mul_add, run_add, hr, hr2]
  · simpa [pollEvents] using htr

/-- A poll that times out. -/
theorem Stands.pollOut {e : Expect} {code : Byte} {its : List (Byte × Byte)}
    (h : Stands s i done (answering (pollEvents s.busL its) ++ rest) t) (ho : prog[i]? = some (.poll e code))
    (hb : s.busL.toNat < s.par.nBus) (hT : s.par.tPoll < 4294967296) (h1 : 1 ≤ s.par.tPoll)
    (hs : PollTimesOut s.par e its) :
    ∃ t', run prog (2 * s.par.tPoll) t = t' ∧ t'.Answered code ∧ t'.trace = s.trace ++ (done ++ pollEvents s.busL its) ∧
      t'.env = rest ∧ SamePlatform s t' := by
  obtain ⟨hlen, hm⟩ := hs
  obtain ⟨ms, hit, rfl⟩ : ∃ ms hit, its = ms ++ [hit] :=
    ⟨its.dropLast, its.getLast (by intro h0; simp [h0] at hlen; omega), by rw [List.dropLast_append_getLast]⟩
  simp only [List.length_append, List.length_singleton] at hlen
  have h' : Polling s i 0 done (answering (pollEvents s.busL ms) ++
      (answerMove (.read s.busL .ctrl hit.1) :: answerMove (.read s.busL .stat hit.2) :: rest)) t := by
    simpa [pollEvents, answering] using h.polling
  obtain ⟨u, hr, hu, a, b, c, d⟩ := h'.misses ms ho hb (by omega) hT fun m hmem => hm m (by simp [hmem])
  obtain ⟨t2, hr2, htr, he, hp, hho, hl, hc, htmp, -, -, hgo, -⟩ := hu.iteration ho hb (by omega) hT
  refine ⟨t2, ?_, hgo (hm hit (by simp)) (by omega), ?_, he, hp, hho⟩
  · rw [← hlen, Nat.mul_add, run_add, hr, hr2]
  · simpa [pollEvents] using htr

end Sys2Proof.Machine
end

