-- ==== Sys2Proof/Laws/Phases.lean ====
section
/-! SUPPORT. The values the updates write, and the phases of a transaction (41_transaction_engine.md R107 to R113)
against a scripted environment. -/

namespace Sys2Proof.Machine

/-! ### The value each update writes (R103) -/

theorem and_ff (c : Byte) : c &&& 0xFF#8 = c := BitVec.and_allOnes (x := c)

theorem rmwValue_start {x : State} {p : Config.Params} {c : Byte} (hp : x.par = p) (hc : x.tmp = c) :
    rmwValue .start x = c ||| (maskSTART p ||| maskINTF p) := by
  subst hp hc; simp [rmwValue, Update.set, Update.clr, maskSTART, maskINTF, and_ff]

theorem rmwValue_address {x : State} {p : Config.Params} {c : Byte} (hp : x.par = p) (hc : x.tmp = c) :
    rmwValue .address x = (c &&& ~~~ maskSTART p) ||| maskINTF p := by
  subst hp hc; simp [rmwValue, Update.set, Update.clr, maskSTART, maskINTF]

theorem rmwValue_clearDone {x : State} {p : Config.Params} {c : Byte} (hp : x.par = p) (hc : x.tmp = c) :
    rmwValue .clearDone x = c ||| maskINTF p := by
  subst hp hc; simp [rmwValue, Update.set, Update.clr, maskINTF, and_ff]

theorem rmwValue_stop {x : State} {p : Config.Params} {c : Byte} (hp : x.par = p) (hc : x.tmp = c) :
    rmwValue .stop x = c ||| (maskSTOP p ||| maskINTF p) := by
  subst hp hc; simp [rmwValue, Update.set, Update.clr, maskSTOP, maskINTF, and_ff]

theorem rmwValue_nack {x : State} {p : Config.Params} {c : Byte} (hp : x.par = p) (hc : x.tmp = c) :
    rmwValue .nack x =
      if p.nackLevel then c ||| (maskINTF p ||| maskACKC p) else (c &&& ~~~ maskACKC p) ||| maskINTF p := by
  subst hp hc; simp [rmwValue, Update.set, Update.clr, maskACKC, maskINTF]; split <;> simp [and_ff]

theorem rmwValue_enable {x : State} {p : Config.Params} {c : Byte} (hp : x.par = p) (hc : x.tmp = c) :
    rmwValue .enable x = c ||| maskEN p := by
  subst hp hc; simp [rmwValue, Update.set, Update.clr, maskEN, and_ff]

theorem rmwValue_prescaler {x : State} {ps : BitVec 2} {c : Byte} (hp : x.psL = ps) (hc : x.tmp = c) :
    rmwValue .prescaler x = (c &&& 0xFC#8) ||| ps.zeroExtend 8 := by
  subst hp hc; simp [rmwValue, Update.set, Update.clr]

/-- The address byte as seven address bits and the direction (R119). -/
theorem addressByte_eq_append :
    ∀ (dev : BitVec 8) (d : Bool), addressByte dev d = dev.extractLsb' 0 7 ++ BitVec.ofBool d := by
  decide +kernel

theorem PollSucceeds.length_le {p : Config.Params} {e : Expect} {its : List (Byte × Byte)}
    (h : PollSucceeds p e its) : its.length ≤ p.tPoll := by
  obtain ⟨_, _, _, _, _, h⟩ := h; exact h

/-! ### Phases -/

variable {prog : List MicroOp} {s t : State} {i : Nat} {done : List Event} {rest : List Move}

/-- A poll that succeeds. -/
theorem Stands.pollGoes {its : List (Byte × Byte)} {e : Expect} {code : Byte}
    (h : Stands s i done (answering (pollEvents s.busL its) ++ rest) t) (ho : prog[i]? = some (.poll e code))
    (hb : s.busL.toNat < s.par.nBus) (hT : s.par.tPoll < 4294967296) (hs : PollSucceeds s.par e its) :
    ∃ t', Goes prog (2 * s.par.tPoll) t t' ∧ Stands s (i + 1) (done ++ pollEvents s.busL its) rest t' := by
  obtain ⟨t', hr, h', -⟩ := h.poll ho hb hT hs
  exact ⟨t', ⟨_, by have := hs.length_le; omega, hr⟩, h'⟩

/-- A poll that times out. -/
theorem Stands.pollEnds {its : List (Byte × Byte)} {e : Expect} {code : Byte}
    (h : Stands s i done (answering (pollEvents s.busL its) ++ rest) t) (ho : prog[i]? = some (.poll e code))
    (hb : s.busL.toNat < s.par.nBus) (hT : s.par.tPoll < 4294967296) (hT1 : 1 ≤ s.par.tPoll)
    (hs : PollTimesOut s.par e its) :
    ∃ t', Goes prog (2 * s.par.tPoll) t t' ∧ t'.Answered code ∧
      t'.trace = s.trace ++ (done ++ pollEvents s.busL its) ∧ t'.env = rest ∧ SamePlatform s t' := by
  obtain ⟨t', hr, h1, h2, h3⟩ := h.pollOut ho hb hT hT1 hs
  exact ⟨t', ⟨_, le_refl _, hr⟩, h1, h2, h3⟩

/-- The update of a Start phase (R107). -/
theorem Stands.startUpdate {c : Byte} (h : Stands s i done (answering (startEvents s.par s.busL c) ++ rest) t)
    (ho : prog[i]? = some (.rmw .operand .ctrl .start)) (hb : s.busL.toNat < s.par.nBus) :
    ∃ t', Goes prog 2 t t' ∧ Stands s (i + 1) (done ++ startEvents s.par s.busL c) rest t' :=
  Stands.rmw (rest := rest) (by simpa [startEvents, answering] using h) ho hb fun _ a b _ => rmwValue_start a b

/-- The writes of an Address phase (R108). -/
theorem Stands.addressWrites {c : Byte} {dev : BitVec 8} {read : Bool}
    (h : Stands s i done (answering (addressEvents s.par s.busL dev (BitVec.ofBool read) c) ++ rest) t)
    (h1 : prog[i]? = some (.wr .operand .data (.address read)))
    (h2 : prog[i + 1]? = some (.rmw .operand .ctrl .address)) (hd : s.devL = dev)
    (hb : s.busL.toNat < s.par.nBus) :
    ∃ t', Goes prog 3 t t' ∧
      Stands s (i + 2) (done ++ addressEvents s.par s.busL dev (BitVec.ofBool read) c) rest t' := by
  obtain ⟨t1, g1, s1⟩ := Stands.wr (s := s) (k := .data) (b := dev.extractLsb' 0 7 ++ BitVec.ofBool read)
    (rest := answering (addressEvents s.par s.busL dev (BitVec.ofBool read) c).tail ++ rest)
    (by simpa [addressEvents, answering] using h) h1
    (by simp only [WrVal.value, h.latches.2.2.1, hd, addressByte_eq_append])
  obtain ⟨t2, g2, s2⟩ := Stands.rmw (rest := rest) (by simpa [addressEvents, answering] using s1) h2 hb
    fun _ a b _ => rmwValue_address a b
  exact ⟨t2, g1.trans g2, by simpa [addressEvents] using s2⟩

/-- The writes of a Register-select phase, and of the payload phase of a write (R109, R110). -/
theorem Stands.byteWrites {c v : Byte} {w : WrVal} (h : Stands s i done (answering (byteEvents s.par s.busL v c) ++ rest) t)
    (h1 : prog[i]? = some (.wr .operand .data w)) (h2 : prog[i + 1]? = some (.rmw .operand .ctrl .clearDone))
    (hd : w.value t = v) (hb : s.busL.toNat < s.par.nBus) :
    ∃ t', Goes prog 3 t t' ∧ Stands s (i + 2) (done ++ byteEvents s.par s.busL v c) rest t' := by
  obtain ⟨t1, g1, s1⟩ := Stands.wr (s := s) (k := .data) (b := v)
    (rest := answering (byteEvents s.par s.busL v c).tail ++ rest) (by simpa [byteEvents, answering] using h) h1 hd
  obtain ⟨t2, g2, s2⟩ := Stands.rmw (rest := rest) (by simpa [byteEvents, answering] using s1) h2 hb
    fun _ a b _ => rmwValue_clearDone a b
  exact ⟨t2, g1.trans g2, by simpa [byteEvents] using s2⟩

/-- The update of the payload phase of a read (R111). -/
theorem Stands.nackUpdate {c : Byte} (h : Stands s i done (answering (nackEvents s.par s.busL c) ++ rest) t)
    (ho : prog[i]? = some (.rmw .operand .ctrl .nack)) (hb : s.busL.toNat < s.par.nBus) :
    ∃ t', Goes prog 2 t t' ∧ Stands s (i + 1) (done ++ nackEvents s.par s.busL c) rest t' :=
  Stands.rmw (rest := rest) (by simpa [nackEvents, answering] using h) ho hb fun _ a b _ => rmwValue_nack a b

/-- The update of the Stop phase (R113). -/
theorem Stands.stopUpdate {c : Byte} (h : Stands s i done (answering (stopEvents s.par s.busL c) ++ rest) t)
    (ho : prog[i]? = some (.rmw .operand .ctrl .stop)) (hb : s.busL.toNat < s.par.nBus) :
    ∃ t', Goes prog 2 t t' ∧ Stands s (i + 1) (done ++ stopEvents s.par s.busL c) rest t' :=
  Stands.rmw (rest := rest) (by simpa [stopEvents, answering] using h) ho hb fun _ a b _ => rmwValue_stop a b

end Sys2Proof.Machine
end

