-- ==== Sys2Proof/Laws/InitLoop.lean ====
section
/-! SUPPORT. The loop of `INIT` (42_init.md R140), one pass at a time, in any environment that asserts no reset; and the
prescaler search of the clock configurator as a search over a numerator. -/

namespace Sys2Proof.Machine

/-- `INIT`, started in `s`, stands at its loop's test in `t`, with entry `k` next and the events `evs` made. -/
structure AtLoop (s : State) (k : Nat) (evs : List Event) (t : State) : Prop where
  upc : t.upc = .pos 1 .first
  idx : t.idx.toNat = k
  par : t.par = s.par
  host : t.host = s.host
  trace : t.trace = s.trace ++ evs
  und : t.Undisturbed

/-- One pass of the loop over an entry that does not fail: five events. -/
theorem AtLoop.pass {s t : State} {k : Nat} {evs} {e : Config.CfgEntry} {br ps} (h : AtLoop s k evs t) (hl : s.par.legal = true) (he : s.par.cfg[k]? = some e)
    (hc : sclCompute s.par e.bus e.freq = .found br ps) :
    ∃ x, AtLoop s (k+1) (evs ++ entryEvents s.par e x) (run initProgram 8 t) := by
  obtain ⟨-, -, -, hN, hlen⟩ := legal_bounds hl
  have hk : k < s.par.nBus := by rw [← hlen]; exact (List.getElem?_eq_some_iff.1 he).1
  have hr : ∀ (z : State), z.idx = t.idx → z.par = s.par → cfgRead z = some e := by
    intro z h1 h2; simp [cfgRead, h1, h2, h.idx, he]
  have hb : ∀ (z : State), z.idx = t.idx → z.par = s.par → Source.bus .entry z = e.bus := by
    intro z h1 h2; simp [Source.bus, hr z h1 h2]
  have hf : ∀ (z : State), z.idx = t.idx → z.par = s.par → Source.freq .entry z = e.freq := by
    intro z h1 h2; simp [Source.freq, hr z h1 h2]
  have u0 : (advance 1 (sampled t)).Undisturbed := h.und.sampled.of_eq rfl
  have e1 : tick initProgram t = advance 1 (sampled t) := by
    rw [tick_at h.upc (op := .initLoop) rfl h.und.resetNow]; simp [MicroOp.run, h.idx, h.par, hk]
  have e2 : tick initProgram (advance 1 (sampled t)) =
      advance 2 { sampled (advance 1 (sampled t)) with brL := br, psL := ps } := by
    rw [tick_at (i := 2) (sub := .first) rfl (op := .setScl .entry) rfl u0.resetNow]
    simp only [MicroOp.run]
    rw [hb (sampled (advance 1 (sampled t))) rfl h.par, hf (sampled (advance 1 (sampled t))) rfl h.par]
    simp only [sampled_par, advance_par, h.par, hc]
  generalize ha : advance 2 { sampled (advance 1 (sampled t)) with brL := br, psL := ps } = a at e2
  have a1 : a.upc = .pos 3 .first := by rw [← ha]; rfl
  have a2 : a.idx = t.idx := by rw [← ha]; rfl
  have a3 : a.par = s.par := by rw [← ha]; exact h.par
  have a4 : a.host = s.host := by rw [← ha]; exact h.host
  have a5 : a.trace = s.trace ++ evs := by rw [← ha]; exact h.trace
  have a6 : a.Undisturbed := by rw [← ha]; exact u0.sampled.of_eq rfl
  have a7 : a.brL = br := by rw [← ha]; rfl
  have a8 : a.psL = ps := by rw [← ha]; rfl
  clear ha
  have e3 : tick initProgram a = advance 3 (regWrite e.bus .br br (envMove (sampled a))) := by
    rw [tick_at a1 (op := .wr .entry .br .bitrate) rfl a6.resetNow]
    simp only [MicroOp.run, event_eq]
    rw [hb _ (by simp [a2]) (by simp [a3])]; simp [WrVal.value, a7]
  have b6 := a6.tick initProgram
  rw [e3] at b6
  generalize hbd : advance 3 (regWrite e.bus .br br (envMove (sampled a))) = b at *
  have b1 : b.upc = .pos 4 .first := by rw [← hbd]; rfl
  have b2 : b.idx = t.idx := by rw [← hbd]; simp [a2]
  have b3 : b.par = s.par := by rw [← hbd]; simp [a3]
  have b4 : b.host = s.host := by rw [← hbd]; simp [a4]
  have b5 : b.trace = s.trace ++ evs ++ [.write e.bus .br br] := by rw [← hbd]; simp [a5]
  have b8 : b.psL = ps := by rw [← hbd]; simp [a8]
  clear hbd
  have e4 : tick initProgram b = rmwRead .entry .stat 4 (envMove (sampled b)) := by
    rw [tick_at b1 (op := .rmw .entry .stat .prescaler) rfl b6.resetNow]
    simp only [MicroOp.run, event_eq]
  have c6 := b6.tick initProgram
  rw [e4] at c6
  generalize hcd : rmwRead .entry .stat 4 (envMove (sampled b)) = c at *
  have hcb : Source.bus .entry (envMove (sampled b)) = e.bus := hb _ (by simp [b2]) (by simp [b3])
  have c1 : c.upc = .pos 4 .second := by rw [← hcd]; rfl
  have c2 : c.idx = t.idx := by rw [← hcd]; simp [rmwRead, b2]
  have c3 : c.par = s.par := by rw [← hcd]; simp [rmwRead, b3]
  have c4 : c.host = s.host := by rw [← hcd]; simp [rmwRead, b4]
  obtain ⟨x1, c5, c7⟩ : ∃ x1, c.trace = s.trace ++ evs ++ [.write e.bus .br br, .read e.bus .stat x1] ∧ c.tmp = x1 := by
    refine ⟨c.tmp, ?_, rfl⟩
    rw [← hcd]; unfold rmwRead; rw [hcb]; simp [b5]
  have c8 : c.psL = ps := by rw [← hcd]; simp [rmwRead, b8]
  clear hcd
  have e5 : tick initProgram c = rmwWrite .entry .stat .prescaler 4 (envMove (sampled c)) := by
    rw [tick_at c1 (op := .rmw .entry .stat .prescaler) rfl c6.resetNow]
    simp only [MicroOp.run, event_eq]
  have d6 := c6.tick initProgram
  rw [e5] at d6
  generalize hdd : rmwWrite .entry .stat .prescaler 4 (envMove (sampled c)) = d at *
  have hdb : Source.bus .entry (envMove (sampled c)) = e.bus := hb _ (by simp [c2]) (by simp [c3])
  have d1 : d.upc = .pos 5 .first := by rw [← hdd]; rfl
  have d2 : d.idx = t.idx := by rw [← hdd]; simp [rmwWrite, c2]
  have d3 : d.par = s.par := by rw [← hdd]; simp [rmwWrite, c3]
  have d4 : d.host = s.host := by rw [← hdd]; simp [rmwWrite, c4]
  have d5 : d.trace = s.trace ++ evs ++ [.write e.bus .br br, .read e.bus .stat x1, .write e.bus .stat ((x1 &&& 0xFC#8) ||| ps.zeroExtend 8)] := by
    rw [← hdd]; unfold rmwWrite; rw [hdb]; simp [c5, rmwValue, Update.set, Update.clr, c7, c8]
  clear hdd
  have e6 : tick initProgram d = rmwRead .entry .ctrl 5 (envMove (sampled d)) := by
    rw [tick_at d1 (op := .rmw .entry .ctrl .enable) rfl d6.resetNow]
    simp only [MicroOp.run, event_eq]
  have f6 := d6.tick initProgram
  rw [e6] at f6
  generalize hfd : rmwRead .entry .ctrl 5 (envMove (sampled d)) = f at *
  have hfb : Source.bus .entry (envMove (sampled d)) = e.bus := hb _ (by simp [d2]) (by simp [d3])
  have f1 : f.upc = .pos 5 .second := by rw [← hfd]; rfl
  have f2 : f.idx = t.idx := by rw [← hfd]; simp [rmwRead, d2]
  have f3 : f.par = s.par := by rw [← hfd]; simp [rmwRead, d3]
  have f4 : f.host = s.host := by rw [← hfd]; simp [rmwRead, d4]
  obtain ⟨x2, f5, f7⟩ : ∃ x2, f.trace = d.trace ++ [.read e.bus .ctrl x2] ∧ f.tmp = x2 := by
    refine ⟨f.tmp, ?_, rfl⟩
    rw [← hfd]; unfold rmwRead; rw [hfb]; simp
  clear hfd
  have e7 : tick initProgram f = rmwWrite .entry .ctrl .enable 5 (envMove (sampled f)) := by
    rw [tick_at f1 (op := .rmw .entry .ctrl .enable) rfl f6.resetNow]
    simp only [MicroOp.run, event_eq]
  have g6 := f6.tick initProgram
  rw [e7] at g6
  have hgb : Source.bus .entry (envMove (sampled f)) = e.bus := hb _ (by simp [f2]) (by simp [f3])
  generalize hgd : rmwWrite .entry .ctrl .enable 5 (envMove (sampled f)) = g at *
  have g1 : g.upc = .pos 6 .first := by rw [← hgd]; rfl
  have g2 : g.idx = t.idx := by rw [← hgd]; simp [rmwWrite, f2]
  have g3 : g.par = s.par := by rw [← hgd]; simp [rmwWrite, f3]
  have g4 : g.host = s.host := by rw [← hgd]; simp [rmwWrite, f4]
  have g5 : g.trace = f.trace ++ [.write e.bus .ctrl (x2 ||| maskEN s.par)] := by
    rw [← hgd]; unfold rmwWrite; rw [hgb]
    simp [rmwValue_enable (x := envMove (sampled f)) (p := s.par) (c := x2) (by simp [f3]) (by simp [f7])]
  clear hgd
  have e8 : tick initProgram g = { sampled g with idx := g.idx + 1#9, upc := .pos 1 .first } := by
    rw [tick_at g1 (op := .initNext) rfl g6.resetNow]; rfl
  refine ⟨(x1, x2), ?_⟩
  have : run initProgram 8 t = { sampled g with idx := g.idx + 1#9, upc := .pos 1 .first } := by
    rw [run_succ, e1, run_succ, e2, run_succ, e3, run_succ, e4, run_succ, e5, run_succ, e6, run_succ, e7, run_succ, e8]
    rfl
  rw [this]
  have hidx := h.idx
  refine ⟨rfl, ?_, g3, g4, ?_, g6.sampled.of_eq rfl⟩
  · simp [g2]; omega
  · simp [g5, f5, d5, entryEvents, hc]

/-- Passes over several entries none of which fails. -/
theorem AtLoop.passes {s : State} (hl : s.par.legal = true) : ∀ (es : List Config.CfgEntry) (k : Nat) (t : State) (evs) , AtLoop s k evs t → 
    (∀ j, (h : j < es.length) → s.par.cfg[k + j]? = some es[j]) →
    (∀ e ∈ es, ∃ br ps, sclCompute s.par e.bus e.freq = .found br ps) →
    ∃ xs : List (Byte × Byte), xs.length = es.length ∧ AtLoop s (k + es.length) (evs ++ (es.zip xs).flatMap (fun ex => entryEvents s.par ex.1 ex.2)) (run initProgram (8 * es.length) t) := by
  intro es
  induction es with
  | nil => intro k t evs h _ _; exact ⟨[], rfl, by simpa [run] using h⟩
  | cons e es ih =>
    intro k t evs h hj hf
    obtain ⟨br, ps, hc⟩ := hf e (by simp)
    obtain ⟨x, hx⟩ := h.pass hl (hj 0 (by simp)) hc
    obtain ⟨xs, hlen, hx'⟩ := ih (k+1) _ _ hx (fun j hj' => by have := hj (j+1) (by simpa using hj'); simpa [Nat.add_assoc, Nat.add_comm 1] using this) (fun e' h' => hf e' (by simp [h']))
    refine ⟨x :: xs, by simp [hlen], ?_⟩
    rw [List.length_cons, Nat.mul_add, Nat.add_comm (8 * es.length), run_add]
    simpa [Nat.add_assoc, Nat.add_comm 1] using hx'

/-- The head of `INIT` with a table given (42_init.md R140, R141). -/
theorem AtLoop.start (s : State) (hd : s.Undisturbed) :
    AtLoop s 0 [] (tick initProgram (accept (encode (.init 1#1)) s)) := by
  have ha : (accept (encode (.init 1#1)) s).Undisturbed := hd.of_eq rfl
  rw [tick_at (i := 0) (sub := .first) rfl (op := .initStart) rfl ha.resetNow]
  simp only [MicroOp.run, sampled_cfgpL, accept_cfgpL, encode_init_field]
  exact ⟨rfl, rfl, rfl, rfl, by simp, ha.sampled.of_eq rfl⟩

/-- Where the bus, the ceiling and the numerator raise no objection, the configurator is its search (R84, R85). -/
theorem sclCompute_search {p : Config.Params} {bus : BitVec 8} {freq : BitVec 32} {n : Nat}
    (hb : bus.toNat < p.nBus) (h0 : freq ≠ 0#32) (hf : freq.toNat ≤ 400000)
    (hn : p.fSys.toNat / freq.toNat = n + 16) : sclCompute p bus freq = sclSearch n Config.prescalers 0 := by
  have h4 : ¬ Config.fMax < freq.toNat := by simp [Config.fMax]; omega
  have h5 : sclNumerator p.fSys freq = (n : Int) := by simp [sclNumerator]; omega
  simp only [sclCompute, busInRange, hb, decide_true, if_true, gt_iff_lt, if_neg h4, if_neg h0, h5]
  rw [if_neg (by omega)]; simp

end Sys2Proof.Machine
end

