-- ==== Sys2Proof/Laws/PerInstr.lean ====
section
/-! SUPPORT. What holds of each instruction as syntax, one lemma per constructor. -/

namespace Sys2Proof.Laws.EncodeMatchesItsRow

/-- The encoder's word matches the opcode-map row of the instruction's mnemonic (30_encoding.md R67). -/
def Statement (i : Instr) : Prop := ∃ r ∈ rows, r.mnemonic = i.mnemonic ∧ r.matches (encode i) = true

theorem and_eq_of_bits {w m p : Cmd} (h : ∀ k, k < 64 → (w.getLsbD k && m.getLsbD k) = p.getLsbD k) :
    (w &&& m == p) = true := by
  rw [beq_iff_eq]
  apply BitVec.eq_of_getLsbD_eq
  intro k hk
  rw [BitVec.getLsbD_and]
  exact h k hk

theorem init (cfgp : BitVec 1) : Statement (.init cfgp) := by
  refine ⟨rows[0], by simp [rows], rfl, ?_⟩
  apply and_eq_of_bits
  intro k hk
  simp only [encode, BitVec.getLsbD_or, place_bit]
  interval_cases k <;> simp [rows]

theorem setScl (bus : BitVec 8) (freq : BitVec 32) : Statement (.setScl bus freq) := by
  refine ⟨rows[1], by simp [rows], rfl, ?_⟩
  apply and_eq_of_bits
  intro k hk
  simp only [encode, BitVec.getLsbD_or, place_bit]
  interval_cases k <;> simp [rows]

theorem sendByte (bus dev reg data : BitVec 8) : Statement (.sendByte bus dev reg data) := by
  refine ⟨rows[2], by simp [rows], rfl, ?_⟩
  apply and_eq_of_bits
  intro k hk
  simp only [encode, BitVec.getLsbD_or, place_bit]
  interval_cases k <;> simp [rows]

theorem receiveByte (bus dev reg : BitVec 8) : Statement (.receiveByte bus dev reg) := by
  refine ⟨rows[3], by simp [rows], rfl, ?_⟩
  apply and_eq_of_bits
  intro k hk
  simp only [encode, BitVec.getLsbD_or, place_bit]
  interval_cases k <;> simp [rows]

end Sys2Proof.Laws.EncodeMatchesItsRow
end

