-- ==== Sys2Proof/Tests/Slice0.lean ====
section
/-! SUPPORT. The model's own tests.  Expected values are those of spec/: the worked encodings of 30_encoding.md section
9, and the vectors TS, TR, K, I, E of 95_test_vectors.md, whose traces and responses are copied from there.  The
environment answers each read with the value the vector's trace shows. -/

namespace Sys2Proof.Tests

open Sys2Proof Sys2Proof.Machine

/-! ### Written commands and well-formedness (30_encoding.md R71) -/

theorem test_written_init : (Written.mk "INIT" [1]).assemble = some (.init 1#1) := by decide
theorem test_written_send :
    (Written.mk "SENDBYTE" [0, 0x50, 0x10, 0xAB]).assemble = some (.sendByte 0x00#8 0x50#8 0x10#8 0xAB#8) := by decide
theorem test_illformed_mnemonic : (Written.mk "READ" [0]).wellFormed = false := by decide
theorem test_illformed_count : (Written.mk "SETSCL" [0]).wellFormed = false := by decide
theorem test_illformed_cfgp : (Written.mk "INIT" [2]).wellFormed = false := by decide
theorem test_illformed_setscl_bus : (Written.mk "SETSCL" [256, 1]).wellFormed = false := by decide
theorem test_illformed_setscl_freq : (Written.mk "SETSCL" [0, 4294967296]).wellFormed = false := by decide
theorem test_illformed_send_bus : (Written.mk "SENDBYTE" [256, 0, 0, 0]).wellFormed = false := by decide
theorem test_illformed_send_dev : (Written.mk "SENDBYTE" [0, 256, 0, 0]).wellFormed = false := by decide
theorem test_illformed_send_reg : (Written.mk "SENDBYTE" [0, 0, 256, 0]).wellFormed = false := by decide
theorem test_illformed_send_data : (Written.mk "SENDBYTE" [0, 0, 0, 256]).wellFormed = false := by decide
theorem test_illformed_receive_bus : (Written.mk "RECEIVEBYTE" [256, 0, 0]).wellFormed = false := by decide
theorem test_illformed_receive_dev : (Written.mk "RECEIVEBYTE" [0, 256, 0]).wellFormed = false := by decide
theorem test_illformed_receive_reg : (Written.mk "RECEIVEBYTE" [0, 0, 256]).wellFormed = false := by decide

/-! ### Words written out from the formats (30_encoding.md R63 to R66 and section 9; 95_test_vectors.md section 7) -/

/-- op 0001, rsv 0000, 55 zero bits, cfgp 1. -/
theorem test_decode_init : decode 0x1000000000000001#64 = .ok (.init 1#1) := by decide
/-- op 0010, rsv 0000, bus 00000001, 16 zero bits, freq 400000 = 0x61A80. -/
theorem test_decode_setscl : decode 0x2001000000061A80#64 = .ok (.setScl 1#8 400000#32) := by decide
/-- op 0011, rsv 0000, bus 00, dev 50, reg 10, data AB, 24 zero bits. -/
theorem test_decode_sendbyte :
    decode 0x30005010AB000000#64 = .ok (.sendByte 0x00#8 0x50#8 0x10#8 0xAB#8) := by decide
/-- op 0100, rsv 0000, bus C8 = 200, dev 50, reg 10, 32 zero bits. -/
theorem test_decode_receivebyte :
    decode 0x40C8501000000000#64 = .ok (.receiveByte 200#8 0x50#8 0x10#8) := by decide
theorem test_decode_E1 : decode 0x0000000000000000#64 = .error .unassignedOp := by decide
theorem test_decode_E2 : decode 0x30005010AB000001#64 = .error .reservedBit := by decide
theorem test_decode_E3 : decode 0x31005010AB000000#64 = .error .reservedNibble := by decide
theorem test_decode_E4 : decode 0x1000000000000002#64 = .error .reservedBit := by decide
theorem test_decode_E5 : decode 0x20000001000186A0#64 = .error .reservedBit := by decide
theorem test_decode_E6 : decode 0x4000501000000001#64 = .error .reservedBit := by decide
theorem test_decode_E7 : decode 0x5000000000000000#64 = .error .unassignedOp := by decide
theorem test_encode_receivebyte : encode (.receiveByte 200#8 0x50#8 0x10#8) = 0x40C8501000000000#64 := by decide
theorem test_table_word : decodeTableWord 64 0x1000000000000000 = some (.init 0#1) := by decide

/-! ### The vectors' parameters and a small state (95_test_vectors.md, top) -/

/-- `N_BUS` 2, `T_POLL` 4, `F_SYS` 16 000 000, and the defaults of 00_scope.md R1. -/
def vectorParams (cfg : List Config.CfgEntry) : Config.Params where
  nBus := 2
  tPoll := 4
  fSys := 16000000#32
  bits := { intf := 7, ackc := 6, start := 5, stop := 4, en := 2 }
  nackLevel := false
  codes := { start := 1#5, rstart := 2#5, slaWAck := 3#5, dataTxAck := 5#5, slaRAck := 8#5, dataRxNack := 11#5 }
  cfg := cfg

/-- The configuration table of vector I1. -/
def cfgI1 : List Config.CfgEntry := [⟨0#8, 100000#32⟩, ⟨1#8, 400000#32⟩]

/-- Out of reset, a host that presents one word, and an environment that answers as in `evs`. -/
def start (cfg : List Config.CfgEntry) (w : Cmd) (evs : List Event) : State :=
  { State.reset with par := vectorParams cfg, host := [.present w], env := answering evs }

/-- The step ends with these events, this code, and this data (`none`: `rsp_dv` is 0). -/
def gives (o : Host.Outcome State Fault Refusal) (evs : List Event) (code : Byte) (data : Option Byte) : Bool :=
  match o with
  | .next t =>
    t.trace == evs && t.rspCode == code && t.rspValid && t.upc == .idle && t.env == [] &&
      (match data with
        | some d => t.rspDv && t.rspData == d
        | none => !t.rspDv)
  | _ => false

def rC (b : BitVec 8) (v : Byte) : Event := .read b .ctrl v
def rS (b : BitVec 8) (v : Byte) : Event := .read b .stat v
def wC (b : BitVec 8) (v : Byte) : Event := .write b .ctrl v
def wS (b : BitVec 8) (v : Byte) : Event := .write b .stat v
def wB (b : BitVec 8) (v : Byte) : Event := .write b .br v
def wD (b : BitVec 8) (v : Byte) : Event := .write b .data v
def rD (b : BitVec 8) (v : Byte) : Event := .read b .data v

/-! ### SENDBYTE -/

/-- TS2. -/
def evsTS2 : List Event :=
  [rC 0 0x04, wC 0 0xA4, rC 0 0xA4, rS 0 0x08, wD 0 0xA0, rC 0 0xA4, wC 0 0x84, rC 0 0x04, rS 0 0x08, rC 0 0x04,
   rS 0 0x18, rC 0 0x84, rS 0 0x18, wD 0 0x10, rC 0 0x84, wC 0 0x84] ++
  [rC 0 0x04, rS 0 0x18, rC 0 0x04, rS 0 0x18, rC 0 0x04, rS 0 0x28, rC 0 0x84, rS 0 0x28, wD 0 0xAB, rC 0 0x84,
   wC 0 0x84, rC 0 0x84, rS 0 0x28, rC 0 0x84, wC 0 0x94]

theorem test_TS2_delays_inside_budget :
    gives (step (start cfgI1 0x30005010AB000000#64 evsTS2)) evsTS2 0x01#8 none = true := by decide +kernel

/-- TS9: the last iteration reads the done flag 0 and then the expected status. -/
def evsTS9 : List Event :=
  [rC 0 0x04, wC 0 0xA4, rC 0 0xA4, rS 0 0x08, wD 0 0xA0, rC 0 0xA4, wC 0 0x84, rC 0 0x04, rS 0 0x08, rC 0 0x04,
   rS 0 0x08, rC 0 0x04, rS 0 0x08, rC 0 0x04, rS 0 0x18]

theorem test_TS9_torn_poll_at_the_boundary :
    gives (step (start cfgI1 0x30005010AB000000#64 evsTS9)) evsTS9 0x03#8 none = true := by decide +kernel

/-! ### RECEIVEBYTE -/

/-- TR1. -/
def evsTR1 : List Event :=
  [rC 0 0x44, wC 0 0xE4, rC 0 0xE4, rS 0 0x08, wD 0 0xA0, rC 0 0xE4, wC 0 0xC4, rC 0 0xC4, rS 0 0x18, wD 0 0x10,
   rC 0 0xC4, wC 0 0xC4, rC 0 0xC4, rS 0 0x28, rC 0 0xC4, wC 0 0xE4] ++
  [rC 0 0xE4, rS 0 0x10, wD 0 0xA1, rC 0 0xE4, wC 0 0xC4, rC 0 0xC4, rS 0 0x40, rC 0 0xC4, wC 0 0x84, rC 0 0x84,
   rS 0 0x58, rD 0 0xA5, rC 0 0x84, wC 0 0x94]

theorem test_TR1_round_trip :
    gives (step (start cfgI1 0x4000501000000000#64 evsTR1)) evsTR1 0x01#8 (some 0xA5#8) = true := by decide +kernel

/-- TR9: the byte was received but acknowledged. -/
def evsTR9 : List Event :=
  evsTR1.take 25 ++ [rC 0 0x84, rS 0 0x50, rC 0 0x84, rS 0 0x50, rC 0 0x84, rS 0 0x50, rC 0 0x84, rS 0 0x50]

theorem test_TR9_acknowledged_byte :
    gives (step (start cfgI1 0x4000501000000000#64 evsTR9)) evsTR9 0x05#8 none = true := by decide +kernel

/-! ### SETSCL -/

/-- K32: `SETSCL 0, 1000`. -/
theorem test_K32_setscl :
    gives (step (start cfgI1 0x20000000000003E8#64 [wB 0 0x7C, rS 0 0xF8, wS 0 0xFB]))
      [wB 0 0x7C, rS 0 0xF8, wS 0 0xFB] 0x01#8 none = true := by decide +kernel

/-- K35: the bus is tested before the frequency. -/
theorem test_K35_setscl_bus_first :
    gives (step (start cfgI1 0x200200000007A120#64 [])) [] 0x00#8 none = true := by decide +kernel

/-! The boundaries of the search: K5, K6, K9, K10, K14, K15, K22, K28. -/

def sclOf (fSys freq : Nat) : SclResult :=
  sclCompute { vectorParams [] with fSys := BitVec.ofNat 32 fSys } 0#8 (BitVec.ofNat 32 freq)

theorem test_K5_K6 : sclOf 16000000 30304 = .found 255#8 0#2 ∧ sclOf 16000000 30303 = .found 64#8 1#2 := by decide
theorem test_K9_K10 : sclOf 16000000 7782 = .found 255#8 1#2 ∧ sclOf 16000000 7783 = .found 254#8 1#2 := by decide
theorem test_K14_K15 :
    sclOf 16000000 489 = .found 255#8 3#2 ∧ sclOf 16000000 488 = .fail codeNoPrescalerFits := by decide
theorem test_K22_K28 :
    sclOf 6399999 400000 = .fail codeNoPrescalerFits ∧ sclOf 4294967295 400000 = .found 83#8 3#2 := by decide

/-! ### INIT -/

/-- I7: the done flag and bit 2 of the status register are written back as read. -/
def evsI7 : List Event :=
  [wB 0 0x48, rS 0 0xFB, wS 0 0xF8, rC 0 0x80, wC 0 0x84, wB 1 0x0C, rS 1 0xFD, wS 1 0xFC, rC 1 0x80, wC 1 0x84]

theorem test_I7_init :
    gives (step (start cfgI1 0x1000000000000001#64 evsI7)) evsI7 0x01#8 none = true := by decide +kernel

/-- I6: the second entry names a bus out of range. -/
def evsI6 : List Event := [wB 0 0x48, rS 0 0xF8, wS 0 0xF8, rC 0 0x00, wC 0 0x04]

theorem test_I6_init_abandons :
    gives (step (start [⟨0#8, 100000#32⟩, ⟨2#8, 100000#32⟩] 0x1000000000000001#64 evsI6)) evsI6 0x00#8 (some 1#8)
      = true := by decide +kernel

/-! ### Illegal words and reset -/

theorem test_E8_illegal :
    gives (step (start cfgI1 0xFFFFFFFFFFFFFFFF#64 [])) [] 0xFF#8 none = true := by decide +kernel

/-- `SETSCL 0, 1000` with this reset line ends with these events and no response. -/
def abandons (line : List Bool) (evs : List Event) : Bool :=
  match step { start cfgI1 0x20000000000003E8#64 [wB 0 0x7C, rS 0 0xF8, wS 0 0xFB] with resetLine := line } with
  | .next t => t.trace == evs && t.upc == .idle && !t.rspValid
  | _ => false

/-- Reset between the status read and the status write (70_reset_and_hazards.md R172): two events, no response. -/
theorem test_reset_between_two_events :
    abandons [false, false, false, true] [wB 0 0x7C, rS 0 0xF8] = true := by decide +kernel

/-- Reset after the last event and before the response (R172): all three events, no response. -/
theorem test_reset_before_the_response :
    abandons [false, false, false, false, true] [wB 0 0x7C, rS 0 0xF8, wS 0 0xFB] = true := by decide +kernel

/-- The response word of TR1 (95_test_vectors.md): 0x101A5. -/
theorem test_response_word :
    State.rspWord { State.reset with rspDv := true, rspCode := 0x01#8, rspData := 0xA5#8 } = 0x101A5#17 := by decide

/-! ### Witnesses: the hypotheses of each statement can be met together

`base` is out of reset with the vectors' parameters; each theorem below is named after the statement whose hypotheses
it meets, one theorem or conjunct per clause, at boundary values where a clause has a range. -/

def base (cfg : List Config.CfgEntry) : State := { State.reset with par := vectorParams cfg }

/-- The same with another system clock. -/
def clocked (fSys : BitVec 32) : State := { base cfgI1 with par := { vectorParams cfgI1 with fSys := fSys } }

/-- A `SENDBYTE` on bus 1 in flight, at micro-operation `i`. -/
def inFlight (i : Nat) (sub : Sub) : State :=
  { base cfgI1 with opL := 3#4, busL := 1#8, upc := .pos i sub, cnt := 3#32 }

/-- One iteration that hits, with this status byte. -/
def hitOn (st : Byte) : List (Byte × Byte) := [(0x84#8, st)]

/-- Two iterations: a torn one, then one that hits. -/
def lateHit (st : Byte) : List (Byte × Byte) := [(0x04#8, st), (0x84#8, st)]

/-- As many iterations as `T_POLL`, none of which hits. -/
def noHit : List (Byte × Byte) := [(0x84#8, 0xF8#8), (0x04#8, 0x08#8), (0x84#8, 0x00#8), (0x04#8, 0x18#8)]

theorem undisturbed_nil {s : State} (h : s.resetLine = []) : s.Undisturbed := by
  intro b hb; rw [h] at hb; cases hb

theorem polls_hitOn (e : Expect) (st : Byte) (h : statusCode st ∈ e.codes (vectorParams cfgI1)) :
    PollSucceeds (vectorParams cfgI1) e (hitOn st) :=
  ⟨[], (0x84#8, st), rfl, by simp, ⟨(by decide : doneFlag (vectorParams cfgI1) 0x84#8 = true), h⟩,
    by simp [hitOn, vectorParams]⟩

theorem polls_noHit (e : Expect) : PollTimesOut (vectorParams cfgI1) e noHit := by
  refine ⟨rfl, ?_⟩
  intro m hm
  simp only [noHit, List.mem_cons, List.not_mem_nil, or_false] at hm
  unfold Hit
  rcases hm with rfl | rfl | rfl | rfl <;> cases e <;> decide

theorem witness_EncodeOfDecode : decode 0x2001000000061A80#64 = .ok (.setScl 1#8 400000#32) := by decide

theorem witness_DecodeFollowsTheOpcodeMap :
    (∃ r ∈ rows, r.matches 0x40C8501000000000#64 = true) ∧ ∀ r ∈ rows, r.matches 0x0000000000000000#64 = false := by
  decide

theorem witness_StepRunsThePresentedCommand :
    (start cfgI1 0x1000000000000001#64 []).upc = .idle ∧
      (start cfgI1 0x1000000000000001#64 []).host = [.present 0x1000000000000001#64] ∧
      decode 0x1000000000000001#64 = .ok (.init 1#1) ∧
      decodeTableWord 64 0x4000000000000000 = some (.receiveByte 0#8 0#8 0#8) := by
  decide

/-- Also for `ResponseCodesAreTheListedOnes`, `SetSclFrame`, `TransactionFrame`, `InitFrame`, `EventsAreBounded`,
`ReceiveByteReadsDataOnce`: an idle state with legal parameters that nothing disturbs, in which every command answers. -/
theorem witness_OperandLatchesAreWrittenOnce (i : Instr) :
    (base cfgI1).par.legal = true ∧ (base cfgI1).upc = .idle ∧ (base cfgI1).Undisturbed ∧
      ∃ t, exec i (base cfgI1) = .next t :=
  ⟨by decide, rfl, undisturbed_nil rfl, _, exec_idle i rfl⟩

theorem witness_IllegalWordsAreAnswered :
    (start cfgI1 0x5000000000000000#64 []).upc = .idle ∧
      (start cfgI1 0x5000000000000000#64 []).host = [.present 0x5000000000000000#64] ∧
      ∀ r ∈ rows, r.matches 0x5000000000000000#64 = false := by
  decide

theorem witness_OfferedWordsHaveNoEffect :
    (inFlight 2 .second).upc ≠ .idle ∧
      [({ cells := [], offered := some 0#64 } : Move)].map (fun m => { m with offered := none }) =
        [({ cells := [], offered := none } : Move)].map (fun m => { m with offered := none }) := by
  decide

theorem witness_CommandsGoOnFromAnyPosition :
    (base cfgI1).par.legal = true ∧ (base cfgI1).upc = .idle ∧
      (run (programOf (accept (encode (.sendByte 1#8 0#8 0#8 0#8)) (base cfgI1)).opL) 2
        (accept (encode (.sendByte 1#8 0#8 0#8 0#8)) (base cfgI1))).upc = .pos 1 .second := by
  refine ⟨by decide, rfl, ?_⟩
  rw [run_succ, run_succ]
  rfl

theorem witness_IdleSequencerWaits : (base cfgI1).upc = .idle ∧ (base cfgI1).host = [] := ⟨rfl, rfl⟩

/-- The first bus that is out of range. -/
theorem witness_SetSclBusOutOfRange :
    (base cfgI1).upc = .idle ∧ (base cfgI1).Undisturbed ∧ (base cfgI1).par.nBus ≤ (2#8).toNat :=
  ⟨rfl, undisturbed_nil rfl, by decide⟩

theorem witness_SetSclFrequencyCeiling :
    (base cfgI1).upc = .idle ∧ (base cfgI1).Undisturbed ∧ (1#8).toNat < (base cfgI1).par.nBus ∧
      400000 < (400001#32).toNat ∧ (400000#32).toNat ≤ 400000 :=
  ⟨rfl, undisturbed_nil rfl, by decide⟩

/-- Frequency 0; the largest negative numerator; the smallest numerator that is too large. -/
theorem witness_SetSclNoPrescalerFits :
    (base cfgI1).upc = .idle ∧ (1#8).toNat < (base cfgI1).par.nBus ∧ (0#32).toNat ≤ 400000 ∧
      (clocked 6399999#32).par.fSys.toNat / (400000#32).toNat < 16 ∧
      32768 + 16 ≤ (clocked 32784#32).par.fSys.toNat / (1#32).toNat := by
  decide

/-- The smallest and the largest numerator that fit. -/
theorem witness_SetSclWritesBitrateAndPrescaler :
    ((clocked 6400000#32).upc = .idle ∧ (1#8).toNat < (clocked 6400000#32).par.nBus ∧ 400000#32 ≠ 0#32 ∧
        (400000#32).toNat ≤ 400000 ∧ (clocked 6400000#32).par.fSys.toNat / (400000#32).toNat = 0 + 16) ∧
      ((clocked 32783#32).upc = .idle ∧ (1#8).toNat < (clocked 32783#32).par.nBus ∧ 1#32 ≠ 0#32 ∧
        (1#32).toNat ≤ 400000 ∧ (clocked 32783#32).par.fSys.toNat / (1#32).toNat = 32767 + 16) := by
  decide

/-- Also for `SetSclNoPrescalerFits`. -/
theorem witness_SetSclWritesBitrateAndPrescaler_undisturbed (fSys : BitVec 32) : (clocked fSys).Undisturbed :=
  undisturbed_nil rfl

theorem witness_SearchPicksTheFirstThatFits :
    sclCompute (clocked 32783#32).par 1#8 1#32 = .found 255#8 3#2 ∧
      sclCompute (clocked 32784#32).par 1#8 1#32 = .fail 0x11#8 ∧
      (clocked 32784#32).par.fSys.toNat / (1#32).toNat = 32768 + 16 := by
  decide

theorem witness_SetSclFrame (bus : BitVec 8) (freq : BitVec 32) :
    (base cfgI1).upc = .idle ∧ (base cfgI1).Undisturbed ∧ ∃ t, exec (.setScl bus freq) (base cfgI1) = .next t :=
  (witness_OperandLatchesAreWrittenOnce (.setScl bus freq)).2

theorem witness_RmwIsTwoEvents :
    sendByteProgram[1]? = some (.rmw .operand .ctrl .start) ∧
      (inFlight 1 .first).upc = .pos 1 .first ∧ (inFlight 1 .first).resetNow = false ∧
      (inFlight 1 .second).upc = .pos 1 .second ∧ (inFlight 1 .second).resetNow = false := by
  decide

/-- Also for `ControlUpdatesDriveNamedBitsOnly`. -/
theorem witness_UpdateMasksAreDisjoint : (base cfgI1).par.legal = true ∧ Update.nack ≠ .prescaler := by decide

theorem witness_PollEndsOnAHit :
    let s := { inFlight 2 .first with env := answering (pollEvents 1#8 (lateHit 0x10#8)) }
    s.par.legal = true ∧ s.busL.toNat < s.par.nBus ∧ sendByteProgram[2]? = some (.poll .start codeStartError) ∧
      s.upc = .pos 2 .first ∧ s.Undisturbed ∧ PollSucceeds s.par .start (lateHit 0x10#8) ∧
      s.env = answering (pollEvents s.busL (lateHit 0x10#8)) ++ [] := by
  refine ⟨by decide, by decide, by decide, rfl, undisturbed_nil rfl, ⟨[(0x04#8, 0x10#8)], (0x84#8, 0x10#8), rfl, ?_, ?_, by decide⟩, by simp [inFlight]⟩
  · intro m hm
    obtain rfl := List.mem_singleton.1 hm
    unfold Hit; decide
  · unfold Hit; decide

theorem witness_PollTimesOutAtTheCeiling :
    let s := { inFlight 2 .first with env := answering (pollEvents 1#8 noHit) }
    s.par.legal = true ∧ s.busL.toNat < s.par.nBus ∧ sendByteProgram[2]? = some (.poll .start codeStartError) ∧
      s.upc = .pos 2 .first ∧ s.Undisturbed ∧ PollTimesOut s.par .start noHit ∧
      s.env = answering (pollEvents s.busL noHit) ++ [] :=
  ⟨by decide, by decide, by decide, rfl, undisturbed_nil rfl, polls_noHit .start, by simp [inFlight]⟩

theorem witness_TornPollDoesNotMatch :
    sendByteProgram[2]? = some (.poll .start codeStartError) ∧ (inFlight 2 .second).upc = .pos 2 .second ∧
      (inFlight 2 .second).doneL = false ∧ (inFlight 2 .second).resetNow = false ∧
      ((inFlight 2 .second).cnt + 1#32).toNat = (inFlight 2 .second).par.tPoll := by
  decide

/-- The highest bus there is. -/
theorem witness_EnvironmentDecidesEveryRead : (1#8).toNat < (base cfgI1).par.nBus := by decide

theorem witness_TransactionBusOutOfRange :
    ((base cfgI1).upc = .idle ∧ (base cfgI1).Undisturbed ∧ (base cfgI1).par.nBus ≤ (2#8).toNat) ∧
      sendByteProgram[0]? = some (.chk 0x00#8) ∧ (inFlight 0 .first).upc = .pos 0 .first ∧
      (inFlight 0 .first).busL.toNat < (inFlight 0 .first).par.nBus ∧ (inFlight 0 .first).resetNow = false :=
  ⟨⟨rfl, undisturbed_nil rfl, by decide⟩, by decide⟩

/-- The polls of both transaction commands can all succeed, and can each time out; any script can be the environment's.
For `SendByteSucceeds`, `SendByteTimesOut`, `ReceiveByteSucceeds` and `ReceiveByteTimesOut`. -/
theorem witness_transactions (evs : List Event) :
    let s := { base cfgI1 with env := answering evs ++ [] }
    s.par.legal = true ∧ s.upc = .idle ∧ s.Undisturbed ∧ (1#8).toNat < s.par.nBus ∧
      PollSucceeds s.par .start (hitOn 0x08#8) ∧ PollSucceeds s.par .start (hitOn 0x10#8) ∧
      PollSucceeds s.par .slaWAck (hitOn 0x18#8) ∧ PollSucceeds s.par .dataTxAck (hitOn 0x28#8) ∧
      PollSucceeds s.par .slaRAck (hitOn 0x40#8) ∧ PollSucceeds s.par .dataRxNack (hitOn 0x58#8) ∧
      (∀ e, PollTimesOut s.par e noHit) ∧ s.env = answering evs ++ [] :=
  ⟨(by decide : (vectorParams cfgI1).legal = true), rfl, undisturbed_nil rfl, (by decide : (1#8).toNat < 2),
    polls_hitOn .start _ (by decide), polls_hitOn .start _ (by decide),
    polls_hitOn .slaWAck _ (by decide), polls_hitOn .dataTxAck _ (by decide), polls_hitOn .slaRAck _ (by decide),
    polls_hitOn .dataRxNack _ (by decide), polls_noHit, rfl⟩

theorem witness_SendByteSuccessMadeTheExactWrites :
    let s := { base cfgI1 with env := answering evsTS2 }
    s.par.legal = true ∧ s.upc = .idle ∧ s.Undisturbed ∧
      (match exec (.sendByte 0#8 0x50#8 0x10#8 0xAB#8) s with
        | .next t => t.rspCode == 0x01#8
        | _ => false) = true :=
  ⟨by decide, rfl, undisturbed_nil rfl, by decide +kernel⟩

theorem witness_ReceiveByteReadsDataOnce :
    let s := { base cfgI1 with env := answering evsTR1 }
    s.par.legal = true ∧ s.upc = .idle ∧ s.Undisturbed ∧ ∃ t, exec (.receiveByte 0#8 0x50#8 0x10#8) s = .next t :=
  ⟨by decide, rfl, undisturbed_nil rfl, _, exec_idle _ rfl⟩

theorem witness_ReceiveByteSuccessMadeTheExactEvents :
    let s := { base cfgI1 with env := answering evsTR1 }
    s.par.legal = true ∧ s.upc = .idle ∧ s.Undisturbed ∧
      (match exec (.receiveByte 0#8 0x50#8 0x10#8) s with
        | .next t => t.rspCode == 0x01#8
        | _ => false) = true :=
  ⟨by decide, rfl, undisturbed_nil rfl, by decide +kernel⟩

theorem witness_InitWithoutTable : (base cfgI1).upc = .idle ∧ (base cfgI1).Undisturbed := ⟨rfl, undisturbed_nil rfl⟩

theorem witness_InitConfiguresEveryEntry :
    (base cfgI1).par.legal = true ∧ (base cfgI1).upc = .idle ∧ (base cfgI1).Undisturbed ∧
      ∀ e ∈ (base cfgI1).par.cfg, ∃ br ps, sclCompute (base cfgI1).par e.bus e.freq = .found br ps := by
  refine ⟨by decide, rfl, undisturbed_nil rfl, ?_⟩
  intro e he
  simp [base, vectorParams, cfgI1] at he
  rcases he with rfl | rfl
  · exact ⟨72#8, 0#2, by decide⟩
  · exact ⟨12#8, 0#2, by decide⟩

/-- The first entry fails; the last one fails. -/
theorem witness_InitAbandonsAtTheFirstFailure :
    let s := base [⟨2#8, 100000#32⟩, ⟨0#8, 100000#32⟩]
    let s' := base [⟨0#8, 100000#32⟩, ⟨1#8, 400001#32⟩]
    (s.par.legal = true ∧ s.upc = .idle ∧ s.par.cfg = [] ++ ⟨2#8, 100000#32⟩ :: [⟨0#8, 100000#32⟩] ∧
        sclCompute s.par 2#8 100000#32 = .fail 0x00#8) ∧
      (s'.par.legal = true ∧ s'.upc = .idle ∧ s'.par.cfg = [⟨0#8, 100000#32⟩] ++ ⟨1#8, 400001#32⟩ :: [] ∧
        sclCompute s'.par 0#8 100000#32 = .found 72#8 0#2 ∧ sclCompute s'.par 1#8 400001#32 = .fail 0x10#8) := by
  decide

theorem witness_ResetOfAnIdleSequencer :
    let s := { base cfgI1 with host := [.reset] }
    s.upc = .idle ∧ s.host = [.reset] := by
  decide

/-- Reset where any command begins. -/
theorem witness_ResetAbandonsTheCommand (i : Instr) :
    let s := { base cfgI1 with resetLine := [] ++ true :: [] }
    let a := accept (encode i) s
    s.par.legal = true ∧ s.upc = .idle ∧ (run (programOf a.opL) 0 a).upc ≠ .idle :=
  ⟨(by decide : (vectorParams cfgI1).legal = true), rfl, by simp [run]⟩

/-- Reset that comes after an `INIT` without a table has responded. -/
theorem witness_ResetAbandonsTheCommand_late :
    let s := { base cfgI1 with resetLine := [false] ++ true :: [] }
    let a := accept (encode (.init 0#1)) s
    s.par.legal = true ∧ s.upc = .idle ∧ (run (programOf a.opL) 1 a).upc = .idle := by
  decide

/-- An idle state with something known of a register. -/
def known : State := { start cfgI1 0x20000000000003E8#64 [] with dev := [(0, 0x84#8), (6, 0xF8#8)] }

/-- States that meet the invariant: idle with a command presented, and in the middle of a poll.  For every statement
about steps from such a state. -/
theorem witness_StepKeepsTheInvariant :
    (known.par.legal = true ∧ known.dev.wf = true ∧ known.dev.within known.locations = true ∧
        known.positionOk = true) ∧
      ((inFlight 2 .second).par.legal = true ∧ (inFlight 2 .second).positionOk = true) ∧
      (inFlight 2 .second).upc ≠ .idle := by
  decide

theorem witness_steps : ∃ t, step known = .next t :=
  ⟨_, (exec_idle (.setScl 0#8 1000#32) (s := { known with host := [] }) rfl)⟩

/-- Two idle states that differ in every latch an earlier command could have left. -/
theorem witness_NoHiddenState (i : Instr) :
    let s := base cfgI1
    let s' := { base cfgI1 with
      opL := 9#4, busL := 7#8, devL := 7#8, regL := 7#8, datL := 7#8, freqL := 7#32, cfgpL := 1#1, tmp := 7#8,
      doneL := true, cnt := 7#32, idx := 7#9, psL := 3#2, brL := 7#8, rspValid := true, rspCode := 7#8, rspDv := true,
      rspData := 7#8 }
    s.par.legal = true ∧ s.upc = .idle ∧ s'.upc = .idle ∧ s'.par = s.par ∧ s'.dev = s.dev ∧ s'.env = s.env ∧
      s'.resetLine = s.resetLine ∧ s'.free = s.free ∧ (∃ t, exec i s = .next t) ∧ ∃ t', exec i s' = .next t' :=
  ⟨by decide, rfl, rfl, rfl, rfl, rfl, rfl, rfl, ⟨_, exec_idle i rfl⟩, _, exec_idle i rfl⟩

theorem witness_SourceStateNames :
    (inFlight 12 .first).opL = 3#4 ∧ (inFlight 12 .first).upc = .pos (11 + 1) .first ∧
      sendByteProgram[11]? = some (.poll .dataTxAck 0x04#8) ∧
      receiveByteProgram[15]? = some (.poll .dataRxNack 0x05#8) ∧
      (programOf 3#4)[12]? = some (.rmw .operand .ctrl .stop) ∧
      (programOf 4#4)[17]? = some (.rmw .operand .ctrl .stop) := by
  decide

end Sys2Proof.Tests
end

section
/-! PROOFS. The machine that comes out of reset: its parameters are legal whatever their opaque values, and it meets
the invariant. -/

namespace Sys2Proof.Config

/-- R2 for the reset machine: the fallback layout of `bits` is distinct too. -/
theorem bits_distinct : bits.distinct = true := by
  unfold bits
  split
  case isTrue h => exact h
  case isFalse => decide

/-- R1 for the reset machine: the `Fin` types of the opaque values are the bounds of `nBus` and `tPoll`, and `CFG` is
built with one entry for each bus (R54). -/
theorem params_legal : params.legal = true := by
  have hN : nBusLessOne.val + 1 ≤ 256 := nBusLessOne.isLt
  have hT : tPollLessOne.val + 1 ≤ 4294967295 := tPollLessOne.isLt
  simp only [Params.legal, params, List.length_map, List.length_range, bits_distinct, hN, hT, Nat.le_add_left,
    decide_true, Bool.and_true, beq_self_eq_true]

end Sys2Proof.Config

namespace Sys2Proof.Machine

/-- Settles O44: the parameters are legal by `params_legal`; nothing is known of any register, and `upc` is idle. -/
theorem resetMeetsTheInvariant : Obligations.ResetMeetsTheInvariant := by
  have hpar : State.reset.par.legal = true := Config.params_legal
  have hwf : State.reset.dev.wf = true := rfl
  have hwithin : State.reset.dev.within State.reset.locations = true := rfl
  have hpos : State.reset.positionOk = true := rfl
  exact ⟨hpar, hwf, hwithin, hpos⟩

end Sys2Proof.Machine
end

section
/-! PROOFS. A command in flight: it goes on to an idle sequencer from every position of its micro-program, and what it
keeps on the way. -/

namespace Sys2Proof.Machine

/-! ### Going on with a command -/

/-- The fuel of `resume` and `issue` is enough from every position, not only from acceptance. -/
theorem run_returns {a : State} (hl : a.par.legal = true) (hp : Placed (programOf a.opL) a) :
    (run (programOf a.opL) (commandBound a.par) a).upc = .idle := by
  obtain ⟨-, -, hidle⟩ := run_left (programOf_wired a.opL) (commandBound a.par) a hl hp
  exact hidle (left_le_commandBound a.opL a hl)

/-- Only reset writes `op_l`, and it ends the command, so a command in flight is the one that was accepted. -/
theorem run_opL (prog : List MicroOp) (n : Nat) (s : State) :
    (run prog n s).upc = .idle ∨ (run prog n s).opL = s.opL := by
  refine run_keeps (P := fun t => t.upc = .idle ∨ t.opL = s.opL) (fun t ht => ?_) n s (.inr rfl)
  rcases tick_cases prog t with h | h | ⟨-, h⟩ | ⟨i, sub, op, hu, -, -, h⟩ <;> rw [h]
  · exact ht
  · exact ht
  · exact .inl rfl
  · obtain ⟨⟨hop, -⟩, -⟩ := op.run_effect i sub (sampled t)
    exact .inr (hop.trans (ht.resolve_left (by simp [hu])))

/-- A run that reaches an idle sequencer reaches the same state from every state on its way. -/
theorem run_run_eq_of_idle {prog : List MicroOp} {k n : Nat} {s : State} (h : (run prog n s).upc = .idle) :
    run prog n (run prog k s) = run prog n s := by
  rw [← run_add, Nat.add_comm, run_add, run_idle _ _ _ h]

theorem step_of_busy {s : State} (hu : s.upc ≠ .idle) (hp : s.positionOk = true) :
    step s = .next (run (programOf s.opL) (commandBound s.par) s) := by
  cases h : s.upc with
  | idle => exact absurd h hu
  | pos i sub => simp [step, h, resume, hp]

/-- Settles O11: the state between is at a position of the command that was accepted, and from there the same
micro-program runs on to the same idle state. -/
theorem commandsGoOnFromAnyPosition : Obligations.CommandsGoOnFromAnyPosition := by
  intro i k s hl hs a m hm
  have hpa : Placed (programOf a.opL) a := by
    rw [programOf_accept]; exact accept_placed i s
  obtain ⟨hpm, -⟩ := run_left (programOf_wired a.opL) k a hl hpa
  have hop : m.opL = a.opL := (run_opL _ k a).resolve_left hm
  have hpar : m.par = s.par := run_par _ k a
  have hpos : m.positionOk = true := (positionOk_iff m).2 (by rw [hop]; exact hpm)
  calc step m
      = .next (run (programOf a.opL) (commandBound s.par) m) := by rw [step_of_busy hm hpos, hop, hpar]
    _ = .next (run (programOf a.opL) (commandBound s.par) a) :=
      congrArg _ (run_run_eq_of_idle (run_returns (a := a) hl hpa))
    _ = exec i s := by rw [exec_idle i hs, programOf_accept]

/-! ### The invariant -/

theorem State.DevOk.inv_of_idle {t : State} (hd : t.DevOk) (hl : t.par.legal = true) (hu : t.upc = .idle) : t.Inv := by
  obtain ⟨hwf, hwithin⟩ := hd
  exact ⟨hl, hwf, hwithin, by simp [State.positionOk, hu]⟩

/-- A step ends at an idle sequencer that meets the invariant, whether it runs a command or not. -/
theorem step_idle_inv {s t : State} (hi : s.Inv) (h : step s = .next t) : t.upc = .idle ∧ t.Inv := by
  have hl : s.par.legal = true := hi.1
  rcases step_cases s hi with ⟨a, hpar, hd, hp, -, hs⟩ | ⟨t', hs, hu, hpar, hd, -⟩ <;>
    obtain rfl := Host.Outcome.next.inj (hs.symm.trans h)
  · have hla : a.par.legal = true := by rw [hpar]; exact hl
    obtain ⟨hpar', hd', -⟩ := run_keeps_placed (programOf_wired a.opL) (commandBound a.par) a hla hd hp
    have hu := run_returns hla hp
    exact ⟨hu, hd'.inv_of_idle (by rw [hpar']; exact hla) hu⟩
  · exact ⟨hu, hd.inv_of_idle (by rw [hpar]; exact hl) hu⟩

/-- Settles O45: what a run keeps (`run_keeps_placed`), and that it comes back to idle (`run_returns`). -/
theorem stepKeepsTheInvariant : Obligations.StepKeepsTheInvariant := fun _ _ hi h => (step_idle_inv hi h).2

/-- Settles O47: every run comes back to idle (`run_returns`), and a step that runs no command starts idle. -/
theorem everyCommandReturnsToIdle : Obligations.EveryCommandReturnsToIdle := fun _ _ hi h => (step_idle_inv hi h).1

/-! ### What no command writes -/

/-- Settles O8: acceptance loads the latches, and an undisturbed run keeps them. -/
theorem operandLatchesAreWrittenOnce : Obligations.OperandLatchesAreWrittenOnce := by
  intro i s t hs hd h
  rw [exec_idle i hs] at h
  obtain rfl := Host.Outcome.next.inj h
  obtain ⟨⟨evs, -, -, -, hlatches, -⟩, -⟩ :=
    run_history (prog := programFor i) (P := fun _ => True) (Q := fun _ => True) (fun _ _ _ => trivial)
      (fun _ _ _ _ _ _ _ _ _ => trivial) (commandBound s.par) (accept (encode i) s) trivial (hd.of_eq rfl)
  exact hlatches

theorem resume_par {s t : State} (h : resume s = .next t) : t.par = s.par := by
  unfold resume at h
  split at h
  · obtain rfl := Host.Outcome.next.inj h
    exact run_par _ _ s
  · cases h

theorem stepWord_par {w : Cmd} {s t : State} (hs : s.upc = .idle) (h : stepWord w s = .next t) : t.par = s.par := by
  unfold stepWord at h
  split at h
  · rename_i i _
    rw [exec_idle i hs] at h
    obtain rfl := Host.Outcome.next.inj h
    rw [run_par, accept_par]
  · obtain rfl := Host.Outcome.next.inj h
    rfl

/-- Settles O51, one case for each thing a step can be. -/
theorem parametersNeverChange : Obligations.ParametersNeverChange := by
  intro s t h
  unfold step at h
  split at h
  case h_1 => exact resume_par h
  case h_2 hu =>
    split at h
    case h_1 => obtain rfl := Host.Outcome.next.inj h; rfl
    case h_2 => obtain rfl := Host.Outcome.next.inj h; rfl
    case h_3 rest _ => exact stepWord_par (s := { s with host := rest }) hu h

end Sys2Proof.Machine
end

section
/-! PROOFS. The control updates bit by bit, and where the source's state names stand. -/

namespace Sys2Proof.Machine

/-! ### Control updates -/

theorem getElem_bitMask : ∀ b i : Fin 8, (bitMask b)[i.val] = decide (i = b) := by decide

theorem getElem_or_bitMask (x : Byte) (b i : Fin 8) :
    (x ||| bitMask b)[i.val] = if i = b then true else x[i.val] := by
  by_cases h : i = b <;> simp [BitVec.getElem_or, getElem_bitMask, h]

theorem getElem_andNot_bitMask (x : Byte) (b i : Fin 8) :
    (x &&& ~~~ bitMask b)[i.val] = if i = b then false else x[i.val] := by
  by_cases h : i = b <;> simp [BitVec.getElem_and, getElem_bitMask, h]

/-- Settles O23: each update is a chain of one-bit updates of the value read, `INTF_BIT` last (`rmwValue_start` and its
like), and that chain is the statement's list of cases. -/
theorem controlUpdatesDriveNamedBitsOnly : Obligations.ControlUpdatesDriveNamedBitsOnly := by
  intro u s i _ hu
  rw [BitVec.getLsbD_eq_getElem i.isLt]
  cases u with
  | start =>
    rw [rmwValue_start rfl rfl, ← BitVec.or_assoc]
    simp [maskSTART, maskINTF, getElem_or_bitMask, -BitVec.getElem_or]
  | address =>
    rw [rmwValue_address rfl rfl]
    simp [maskSTART, maskINTF, getElem_or_bitMask, getElem_andNot_bitMask, -BitVec.getElem_or, -BitVec.getElem_and]
  | clearDone =>
    rw [rmwValue_clearDone rfl rfl]
    simp [maskINTF, getElem_or_bitMask, -BitVec.getElem_or]
  | nack =>
    rw [rmwValue_nack rfl rfl, BitVec.or_comm (maskINTF _), ← BitVec.or_assoc]
    cases s.par.nackLevel <;>
      simp [maskACKC, maskINTF, getElem_or_bitMask, getElem_andNot_bitMask, -BitVec.getElem_or, -BitVec.getElem_and]
  | stop =>
    rw [rmwValue_stop rfl rfl, ← BitVec.or_assoc]
    simp [maskSTOP, maskINTF, getElem_or_bitMask, -BitVec.getElem_or]
  | enable =>
    rw [rmwValue_enable rfl rfl]
    simp [maskEN, getElem_or_bitMask, -BitVec.getElem_or]
  | prescaler => exact absurd rfl hu

/-! ### The source's state names (10_state.md R15) -/

/-- The indices of a micro-program at which a micro-operation of one sort stands. -/
def placesOf (sort : MicroOp → Bool) (prog : List MicroOp) : List Nat :=
  (List.range prog.length).filter fun i => prog[i]?.any sort

theorem mem_placesOf {sort : MicroOp → Bool} {prog : List MicroOp} {i : Nat} {op : MicroOp} (h : prog[i]? = some op)
    (hs : sort op = true) : i ∈ placesOf sort prog := by
  have hi : i < prog.length := (List.getElem?_eq_some_iff.1 h).1
  exact List.mem_filter.2 ⟨List.mem_range.2 hi, by rw [h]; exact hs⟩

/-- Is it a `POLL`? (41_transaction_engine.md R104) -/
def MicroOp.isPoll : MicroOp → Bool
  | .poll _ _ => true
  | _ => false

theorem polls_sendByte : placesOf MicroOp.isPoll sendByteProgram = [2, 5, 8, 11] := by decide
theorem polls_receiveByte : placesOf MicroOp.isPoll receiveByteProgram = [2, 5, 8, 10, 13, 15] := by decide
theorem stops_sendByte : placesOf (· == .rmw .operand .ctrl .stop) sendByteProgram = [12] := by decide
theorem stops_receiveByte : placesOf (· == .rmw .operand .ctrl .stop) receiveByteProgram = [17] := by decide

/-- Settles O53: the polls and the Stop updates stand at these places, and each place has its name. -/
theorem sourceStateNames : Obligations.SourceStateNames := by
  refine ⟨fun s hu => by simp [State.sourceState, hu], ?_, ?_, ?_, by decide, by decide⟩
  · intro s i e code hop hu hi
    have hm : i ∈ [2, 5, 8, 11] := polls_sendByte ▸ mem_placesOf hi rfl
    simp only [List.mem_cons, List.not_mem_nil, or_false] at hm
    rcases hm with rfl | rfl | rfl | rfl <;> simp [State.sourceState, hop, hu]
  · intro s i e code hop hu hi
    have hm : i ∈ [2, 5, 8, 10, 13, 15] := polls_receiveByte ▸ mem_placesOf hi rfl
    simp only [List.mem_cons, List.not_mem_nil, or_false] at hm
    rcases hm with rfl | rfl | rfl | rfl | rfl | rfl <;> simp [State.sourceState, hop, hu]
  · rintro s i (hop | hop) hu hi
    · have hm : i ∈ [12] := stops_sendByte ▸ mem_placesOf (by simpa [hop, programOf] using hi) rfl
      obtain rfl := List.mem_singleton.1 hm
      simp [State.sourceState, hop, hu]
    · have hm : i ∈ [17] := stops_receiveByte ▸ mem_placesOf (by simpa [hop, programOf] using hi) rfl
      obtain rfl := List.mem_singleton.1 hm
      simp [State.sourceState, hop, hu]

end Sys2Proof.Machine
end

section
/-! PROOFS. No hidden state (10_state.md R11): two commands that start alike but for what an earlier command left behind
stay alike, tick by tick, because no micro-operation reads a scratch latch that this command has not written. -/

namespace Sys2Proof.Machine

/-! ### What an earlier command can leave behind -/

/-- The fields that acceptance does not write and that no other agent supplies to a command: the scratch latches
(10_state.md R16), the host's coming actions, and the events made before. -/
structure Leftover where
  tmp : BitVec 8
  doneL : Bool
  cnt : BitVec 32
  idx : BitVec 9
  psL : BitVec 2
  brL : BitVec 8
  host : List HostAct
  trace : List Event

/-- The state with these leftovers in place of its own. -/
def State.withLeftover (s : State) (l : Leftover) : State :=
  { s with tmp := l.tmp, doneL := l.doneL, cnt := l.cnt, idx := l.idx, psL := l.psL, brL := l.brL, host := l.host,
           trace := l.trace }

def State.leftover (s : State) : Leftover :=
  { tmp := s.tmp, doneL := s.doneL, cnt := s.cnt, idx := s.idx, psL := s.psL, brL := s.brL, host := s.host,
    trace := s.trace }

/-- The leftovers after one more event. -/
def Leftover.seen (l : Leftover) (ev : Event) : Leftover := { l with trace := l.trace ++ [ev] }

variable {s : State} {l : Leftover}

theorem envMove_withLeftover (s : State) (l : Leftover) :
    envMove (s.withLeftover l) = (envMove s).withLeftover l := by
  unfold envMove State.withLeftover
  cases s.env <;> rfl

theorem regRead_withLeftover (b : BitVec 8) (k : Kind) (s : State) (l : Leftover) :
    regRead b k (s.withLeftover l) =
      ((regRead b k s).1, (regRead b k s).2.withLeftover (l.seen (.read b k (regRead b k s).1))) := by
  unfold regRead State.withLeftover
  cases s.dev.get? (loc b k) <;> rfl

theorem Source.bus_withLeftover (src : Source) (h : src = .entry → l.idx = s.idx) :
    src.bus (s.withLeftover l) = src.bus s := by
  cases src with
  | operand => rfl
  | entry => exact Source.bus_congr .entry rfl rfl (h rfl)

theorem Source.freq_withLeftover (src : Source) (h : src = .entry → l.idx = s.idx) :
    src.freq (s.withLeftover l) = src.freq s := by
  cases src with
  | operand => rfl
  | entry =>
    have hi : (s.withLeftover l).idx = s.idx := h rfl
    simp only [Source.freq, cfgRead, hi]
    rfl

/-! ### Which scratch latches a position still needs -/

/-- The table index is read here or later in the loop of `INIT`. -/
def MicroOp.needsIdx (op : MicroOp) : Bool := op.onEntry || op == .initLoop

/-- The bitrate and the select code are read here or by the next micro-operation. -/
def MicroOp.needsClock : MicroOp → Bool
  | .wr _ _ .bitrate | .rmw _ _ .prescaler => true
  | _ => false

/-- After this micro-operation the table index is one that `INIT` wrote. -/
def MicroOp.givesIdx (op : MicroOp) : Bool := op.needsIdx || op == .initStart

/-- After this micro-operation the bitrate and the select code are those its search found. -/
def MicroOp.givesClock : MicroOp → Bool
  | .setScl _ => true
  | op => op.needsClock

/-- What an earlier event of the micro-operation left for the one that comes next agrees. -/
def MicroOp.AgreesWithin (op : MicroOp) (sub : Sub) (s : State) (l : Leftover) : Prop :=
  match op, sub with
  | .rmw _ _ _, .second => l.tmp = s.tmp
  | .poll _ _, .second => l.doneL = s.doneL ∧ l.cnt = s.cnt
  | .poll _ _, .again => l.cnt = s.cnt
  | _, _ => True

/-- The leftovers agree with the state on every scratch latch that the command still reads before it writes it. -/
structure MicroOp.Agrees (op : MicroOp) (sub : Sub) (s : State) (l : Leftover) : Prop where
  idx : op.needsIdx = true → l.idx = s.idx
  clock : op.needsClock = true → l.psL = s.psL ∧ l.brL = s.brL
  within : op.AgreesWithin sub s l

/-- Where the micro-operation at index `i` leaves the sequencer, and what the leftovers then agree on. -/
inductive MicroOp.Onward (op : MicroOp) (i : Nat) (t : State) (l : Leftover) : Prop where
  | idle (h : t.upc = .idle)
  | stays (sub : Sub) (h : t.upc = .pos i sub) (ha : op.Agrees sub t l)
  | goesOn (h : t.upc = .pos (i + 1) .first) (hi : op.givesIdx = true → l.idx = t.idx)
      (hc : op.givesClock = true → l.psL = t.psL ∧ l.brL = t.brL)
  | loops (h : t.upc = .pos 1 .first) (ho : op = .initNext) (hi : l.idx = t.idx)

/-- From `s` and its twin, which has the leftovers `l`, the micro-operation at index `i` leads to `t` and to `t'`: the
same events, and twins again. -/
def MicroOp.Twin (op : MicroOp) (i : Nat) (s : State) (l : Leftover) (t t' : State) : Prop :=
  ∃ l' evs, t' = t.withLeftover l' ∧ t.trace = s.trace ++ evs ∧ l'.trace = l.trace ++ evs ∧ op.Onward i t l'

/-- A micro-operation that makes no event and changes no leftover. -/
theorem MicroOp.Twin.silent {op : MicroOp} {i : Nat} {t : State} (ht : t.trace = s.trace) (ho : op.Onward i t l) :
    op.Twin i s l t (t.withLeftover l) :=
  ⟨l, [], rfl, by simp [ht], by simp, ho⟩

/-- A micro-operation that makes one event `ev`. -/
theorem MicroOp.Twin.makes {op : MicroOp} {i : Nat} {t : State} {ev : Event} {l' : Leftover}
    (ht : t.trace = s.trace ++ [ev]) (hl : l'.trace = l.trace ++ [ev]) (ho : op.Onward i t l') :
    op.Twin i s l t (t.withLeftover l') :=
  ⟨l', [ev], rfl, ht, hl, ho⟩

/-- The table index and what the search found: the latches that outlive a micro-operation. -/
def State.lasting (s : State) : BitVec 9 × BitVec 2 × BitVec 8 := (s.idx, s.psL, s.brL)
def Leftover.lasting (l : Leftover) : BitVec 9 × BitVec 2 × BitVec 8 := (l.idx, l.psL, l.brL)

section
variable {op : MicroOp} {i : Nat} {sub : Sub} {t : State} {l' : Leftover} (h : op.Agrees sub s l)
  (ht : t.lasting = s.lasting) (hl : l'.lasting = l.lasting)
include h ht hl

theorem MicroOp.Agrees.lasting_idx (hn : op.needsIdx = true) : l'.idx = t.idx := by
  calc l'.idx = l.idx := congrArg Prod.fst hl
    _ = s.idx := h.idx hn
    _ = t.idx := (congrArg Prod.fst ht).symm

theorem MicroOp.Agrees.lasting_clock (hn : op.needsClock = true) : l'.psL = t.psL ∧ l'.brL = t.brL := by
  simp only [State.lasting, Leftover.lasting, Prod.mk.injEq] at ht hl
  obtain ⟨-, hps, hbr⟩ := hl
  obtain ⟨-, hps', hbr'⟩ := ht
  rw [hps, hbr, hps', hbr']
  exact h.clock hn

theorem MicroOp.Agrees.goesOn (hu : t.upc = .pos (i + 1) .first) (hi : op ≠ .initStart)
    (hs : op.givesClock = op.needsClock) : op.Onward i t l' :=
  .goesOn hu (fun hn => h.lasting_idx ht hl (by simpa [givesIdx, hi] using hn))
    fun hn => h.lasting_clock ht hl (hs ▸ hn)

end

/-! ### One micro-operation -/

theorem MicroOp.wr_twin {src : Source} {k : Kind} {v : WrVal} (i : Nat) {sub : Sub}
    (h : (MicroOp.wr src k v).Agrees sub s l) :
    (MicroOp.wr src k v).Twin i s l ((MicroOp.wr src k v).run i sub s)
      ((MicroOp.wr src k v).run i sub (s.withLeftover l)) := by
  have hb : src.bus ((envMove s).withLeftover l) = src.bus s := by
    rw [src.bus_withLeftover (fun hs => by subst hs; simpa using h.idx rfl), src.bus_envMove]
  have hv : v.value ((envMove s).withLeftover l) = v.value (envMove s) := by
    cases v with
    | bitrate =>
      obtain ⟨-, hbr⟩ := h.clock rfl
      exact hbr.trans (envMove_brL s).symm
    | _ => rfl
  have hrun : (MicroOp.wr src k v).run i sub (s.withLeftover l) =
      ((MicroOp.wr src k v).run i sub s).withLeftover (l.seen (.write (src.bus s) k (v.value s))) := by
    simp only [MicroOp.run, event_eq, envMove_withLeftover, hb, hv, v.value_envMove, src.bus_envMove]
    rfl
  rw [hrun]
  exact .makes (by simp [MicroOp.run]) rfl
    (h.goesOn (by simp [State.lasting, MicroOp.run]) rfl (by simp [MicroOp.run]) (by simp) rfl)

theorem MicroOp.rd_twin {k : Kind} (i : Nat) {sub : Sub} (h : (MicroOp.rd k).Agrees sub s l) :
    (MicroOp.rd k).Twin i s l ((MicroOp.rd k).run i sub s) ((MicroOp.rd k).run i sub (s.withLeftover l)) := by
  have hrun : (MicroOp.rd k).run i sub (s.withLeftover l) = ((MicroOp.rd k).run i sub s).withLeftover
      { l.seen (.read s.busL k (regRead s.busL k (envMove s)).1) with tmp := (regRead s.busL k (envMove s)).1 } := by
    have hb : ((envMove s).withLeftover l).busL = s.busL := envMove_busL s
    simp only [MicroOp.run, event_eq, envMove_withLeftover, rdRead, hb, regRead_withLeftover, envMove_busL]
    rfl
  rw [hrun]
  exact .makes (by simp [MicroOp.run, rdRead]) rfl
    (h.goesOn (by simp [State.lasting, MicroOp.run, rdRead]) rfl (by simp [MicroOp.run, rdRead]) (by simp) rfl)

theorem rmwRead_withLeftover {src : Source} {k : Kind} (i : Nat) (hb : src.bus (s.withLeftover l) = src.bus s) :
    rmwRead src k i (s.withLeftover l) = (rmwRead src k i s).withLeftover
      { l.seen (.read (src.bus s) k (regRead (src.bus s) k s).1) with tmp := (regRead (src.bus s) k s).1 } := by
  simp only [rmwRead, hb, regRead_withLeftover]
  rfl

theorem MicroOp.rmw_twin {src : Source} {k : Kind} {u : Update} (i : Nat) {sub : Sub}
    (h : (MicroOp.rmw src k u).Agrees sub s l) :
    (MicroOp.rmw src k u).Twin i s l ((MicroOp.rmw src k u).run i sub s)
      ((MicroOp.rmw src k u).run i sub (s.withLeftover l)) := by
  have hb : src.bus ((envMove s).withLeftover l) = src.bus (envMove s) :=
    src.bus_withLeftover (fun hs => by subst hs; simpa using h.idx rfl)
  have hread : (MicroOp.rmw src k u).Twin i s l (rmwRead src k i (envMove s))
      (rmwRead src k i (envMove (s.withLeftover l))) := by
    have ht : (rmwRead src k i (envMove s)).lasting = s.lasting := by simp [State.lasting, rmwRead]
    rw [envMove_withLeftover, rmwRead_withLeftover i hb]
    exact .makes (by simp [rmwRead]) rfl (.stays .second rfl ⟨h.lasting_idx ht rfl, h.lasting_clock ht rfl, rfl⟩)
  cases sub with
  | first => exact hread
  | again => exact hread
  | second =>
    have hset : u.set ((envMove s).withLeftover l) = u.set (envMove s) := by
      cases u with
      | prescaler =>
        obtain ⟨hps, -⟩ := h.clock rfl
        exact congrArg (BitVec.zeroExtend 8) (hps.trans (envMove_psL s).symm)
      | _ => rfl
    have htmp : ((envMove s).withLeftover l).tmp = (envMove s).tmp := h.within.trans (envMove_tmp s).symm
    have hv : rmwValue u ((envMove s).withLeftover l) = rmwValue u (envMove s) := by
      rw [rmwValue, hset, htmp]; rfl
    have hrun : (MicroOp.rmw src k u).run i .second (s.withLeftover l) =
        ((MicroOp.rmw src k u).run i .second s).withLeftover (l.seen (.write (src.bus s) k (rmwValue u s))) := by
      simp only [MicroOp.run, event_eq, envMove_withLeftover, rmwWrite, hb, hv, rmwValue_envMove, src.bus_envMove]
      rfl
    rw [hrun]
    exact .makes (by simp [MicroOp.run, rmwWrite]) rfl
      (h.goesOn (by simp [State.lasting, MicroOp.run, rmwWrite]) rfl (by simp [MicroOp.run, rmwWrite]) (by simp) rfl)

theorem pollControl_withLeftover (i : Nat) (s : State) (l : Leftover) :
    pollControl i (s.withLeftover l) = (pollControl i s).withLeftover
      { l.seen (.read s.busL .ctrl (regRead s.busL .ctrl s).1) with
        doneL := doneFlag s.par (regRead s.busL .ctrl s).1 } := by
  unfold pollControl
  rw [regRead_withLeftover]
  rfl

/-- The control read of a poll iteration latches the done flag anew, so only the count has to agree before it. -/
theorem pollControl_twin {e : Expect} {code : Byte} {i : Nat} {sub : Sub} (h : (MicroOp.poll e code).Agrees sub s l)
    (hc : l.cnt = s.cnt) :
    (MicroOp.poll e code).Twin i s l (pollControl i (envMove s)) (pollControl i (envMove (s.withLeftover l))) := by
  have ht : (pollControl i (envMove s)).lasting = s.lasting := by simp [State.lasting, pollControl]
  rw [envMove_withLeftover, pollControl_withLeftover]
  exact .makes (by simp [pollControl]) rfl
    (.stays .second rfl ⟨h.lasting_idx ht rfl, h.lasting_clock ht rfl, by simp [pollControl],
      hc.trans (by simp [pollControl])⟩)

/-- The status read of a poll iteration, and the iteration counted. -/
def statusRead (s : State) : State := { (regRead s.busL .stat s).2 with cnt := s.cnt + 1#32 }

theorem pollStatus_eq (e : Expect) (code : Byte) (i : Nat) (s : State) :
    pollStatus e code i s =
      if pollMatches s.par e s.doneL (regRead s.busL .stat s).1 then advance i (statusRead s)
      else if (s.cnt + 1#32).toNat = s.par.tPoll then respond code (statusRead s)
      else { statusRead s with upc := .pos i .again } := rfl

theorem pollStatus_withLeftover {e : Expect} {code : Byte} (i : Nat) (hd : l.doneL = s.doneL) (hc : l.cnt = s.cnt) :
    pollStatus e code i (s.withLeftover l) = (pollStatus e code i s).withLeftover
      { l.seen (.read s.busL .stat (regRead s.busL .stat s).1) with cnt := s.cnt + 1#32 } := by
  have hd' : (s.withLeftover l).doneL = s.doneL := hd
  have hc' : (s.withLeftover l).cnt = s.cnt := hc
  have hr : statusRead (s.withLeftover l) = (statusRead s).withLeftover
      { l.seen (.read s.busL .stat (regRead s.busL .stat s).1) with cnt := s.cnt + 1#32 } := by
    unfold statusRead
    rw [regRead_withLeftover, hc']
    rfl
  have hv : (regRead (s.withLeftover l).busL .stat (s.withLeftover l)).1 = (regRead s.busL .stat s).1 := by
    rw [regRead_withLeftover]; rfl
  have hp : (s.withLeftover l).par = s.par := rfl
  rw [pollStatus_eq, pollStatus_eq, hd', hc', hr, hv, hp]
  split_ifs <;> rfl

theorem MicroOp.poll_twin {e : Expect} {code : Byte} (i : Nat) {sub : Sub} (h : (MicroOp.poll e code).Agrees sub s l) :
    (MicroOp.poll e code).Twin i s l ((MicroOp.poll e code).run i sub s)
      ((MicroOp.poll e code).run i sub (s.withLeftover l)) := by
  cases sub with
  | first =>
    have h0 : (MicroOp.poll e code).Agrees .first { s with cnt := 0#32 } { l with cnt := 0#32 } :=
      ⟨h.idx, h.clock, trivial⟩
    exact pollControl_twin h0 rfl
  | again => exact pollControl_twin h h.within
  | second =>
    obtain ⟨hd, hc⟩ := h.within
    have ht : (statusRead (envMove s)).lasting = s.lasting := by simp [State.lasting, statusRead]
    simp only [MicroOp.run, event_eq, envMove_withLeftover]
    rw [pollStatus_withLeftover i (hd.trans (envMove_doneL s).symm) (hc.trans (envMove_cnt s).symm), pollStatus_eq]
    split_ifs
    · exact .makes (by simp [statusRead]) rfl (h.goesOn ht rfl rfl (by simp) rfl)
    · exact .makes (by simp [statusRead]) rfl (.idle rfl)
    · exact .makes (by simp [statusRead]) rfl
        (.stays .again rfl ⟨h.lasting_idx ht rfl, h.lasting_clock ht rfl, rfl⟩)

theorem MicroOp.setScl_twin {src : Source} (i : Nat) {sub : Sub} (h : (MicroOp.setScl src).Agrees sub s l) :
    (MicroOp.setScl src).Twin i s l ((MicroOp.setScl src).run i sub s)
      ((MicroOp.setScl src).run i sub (s.withLeftover l)) := by
  have hidx : src = .entry → l.idx = s.idx := fun hs => by subst hs; exact h.idx rfl
  have hpar : (s.withLeftover l).par = s.par := rfl
  simp only [MicroOp.run, src.bus_withLeftover hidx, src.freq_withLeftover hidx, hpar]
  split
  · rename_i br ps _
    exact ⟨{ l with brL := br, psL := ps }, [], rfl, by simp, by simp, .goesOn rfl
      (fun hn => h.idx (by simpa [givesIdx] using hn)) fun _ => ⟨rfl, rfl⟩⟩
  · cases src with
    | operand => exact .silent rfl (.idle rfl)
    | entry =>
      have hi : (s.withLeftover l).idx = s.idx := hidx rfl
      simp only [raiseAbortAt_eq, hi]
      exact .silent rfl (.idle rfl)

/-- Every micro-operation keeps twins, for what it reads of the scratch latches agrees. -/
theorem MicroOp.run_twin (op : MicroOp) (i : Nat) (sub : Sub) (h : op.Agrees sub s l) :
    op.Twin i s l (op.run i sub s) (op.run i sub (s.withLeftover l)) := by
  have hpar : (s.withLeftover l).par = s.par := rfl
  cases op with
  | wr src k v => exact wr_twin i h
  | rd k => exact rd_twin i h
  | rmw src k u => exact rmw_twin i h
  | poll e code => exact poll_twin i h
  | setScl src => exact setScl_twin i h
  | ret code => exact .silent rfl (.idle rfl)
  | retData code => exact .silent rfl (.idle rfl)
  | chk code =>
    have hb : (s.withLeftover l).busL = s.busL := rfl
    simp only [MicroOp.run, hpar, hb]
    split
    · exact .silent rfl (h.goesOn rfl rfl rfl (by simp) rfl)
    · exact .silent rfl (.idle rfl)
  | initStart =>
    have hc : (s.withLeftover l).cfgpL = s.cfgpL := rfl
    simp only [MicroOp.run, hc]
    split
    · exact .silent rfl (.idle rfl)
    · exact ⟨{ l with idx := 0#9 }, [], rfl, by simp, by simp,
        .goesOn rfl (fun _ => rfl) (by simp [givesClock, needsClock])⟩
  | initLoop =>
    have hi : (s.withLeftover l).idx = s.idx := h.idx rfl
    simp only [MicroOp.run, hpar, hi]
    split
    · exact .silent rfl (h.goesOn rfl rfl rfl (by simp) rfl)
    · exact .silent rfl (.idle rfl)
  | initNext =>
    have hi : l.idx = s.idx := h.idx rfl
    exact ⟨{ l with idx := l.idx + 1#9 }, [], rfl, by simp [MicroOp.run], by simp,
      .loops rfl rfl (by simp [MicroOp.run, hi])⟩

/-! ### A whole command -/

/-- What `op'` needs, the micro-operation before it gives. -/
def MicroOp.feeds (op op' : MicroOp) : Bool :=
  (!op'.needsIdx || op.givesIdx) && (!op'.needsClock || op.givesClock)

/-- In the micro-program every micro-operation is given what it needs by the one before it. -/
def Fed (prog : List MicroOp) : Prop :=
  ∀ i, i < prog.length → ∀ op ∈ prog[i]?, ∀ op' ∈ prog[i + 1]?, op.feeds op' = true

theorem initProgram_fed : Fed initProgram := by unfold Fed; decide
theorem setSclProgram_fed : Fed setSclProgram := by unfold Fed; decide
theorem sendByteProgram_fed : Fed sendByteProgram := by unfold Fed; decide
theorem receiveByteProgram_fed : Fed receiveByteProgram := by unfold Fed; decide

theorem programFor_fed (i : Instr) : Fed (programFor i) := by
  cases i
  · exact initProgram_fed
  · exact setSclProgram_fed
  · exact sendByteProgram_fed
  · exact receiveByteProgram_fed

/-- At the beginning of a micro-operation only the latches that an earlier one gives are needed. -/
theorem MicroOp.agrees_first {op : MicroOp} {t : State} {l : Leftover} (hi : op.needsIdx = true → l.idx = t.idx)
    (hc : op.needsClock = true → l.psL = t.psL ∧ l.brL = t.brL) : op.Agrees .first t l :=
  ⟨hi, hc, by cases op <;> trivial⟩

/-- Where one micro-operation leaves the sequencer, the next finds what it needs. -/
theorem MicroOp.Onward.agrees {prog : List MicroOp} (hw : Wired prog) (hf : Fed prog) {op op' : MicroOp} {i j : Nat}
    {sub : Sub} {t : State} {l : Leftover} (h : op.Onward i t l) (ho : prog[i]? = some op) (hu : t.upc = .pos j sub)
    (ho' : prog[j]? = some op') : op'.Agrees sub t l := by
  cases h with
  | idle h => rw [h] at hu; cases hu
  | stays sub' h ha =>
    rw [h] at hu; cases hu
    obtain rfl : op = op' := Option.some.inj (ho.symm.trans ho')
    exact ha
  | goesOn h hi hc =>
    rw [h] at hu; cases hu
    have hlt : i < prog.length := (List.getElem?_eq_some_iff.1 ho).1
    have hfeeds := hf i hlt op ho op' ho'
    simp only [MicroOp.feeds, Bool.and_eq_true, Bool.or_eq_true, Bool.not_eq_true'] at hfeeds
    obtain ⟨hidx, hclock⟩ := hfeeds
    exact agrees_first (fun hn => hi (hidx.resolve_left (by simp [hn])))
      fun hn => hc (hclock.resolve_left (by simp [hn]))
  | loops h hop hi =>
    rw [h] at hu; cases hu
    subst hop
    obtain rfl : MicroOp.initLoop = op' := Option.some.inj ((hw.2 (List.mem_of_getElem? ho)).symm.trans ho')
    exact agrees_first (fun _ => hi) (by simp [MicroOp.needsClock])

/-- Two runs of a micro-program, whose traces were `b` and `b'` before, stand at twins: the same but for leftovers that
are read no more, with the same events made since. -/
def Twins (prog : List MicroOp) (b b' : List Event) (s s' : State) : Prop :=
  ∃ l evs, s' = s.withLeftover l ∧ s.trace = b ++ evs ∧ l.trace = b' ++ evs ∧
    ∀ i sub op, s.upc = .pos i sub → prog[i]? = some op → op.Agrees sub s l

theorem MicroOp.Agrees.sampled {op : MicroOp} {sub : Sub} {s : State} {l : Leftover} (h : op.Agrees sub s l) :
    op.Agrees sub (sampled s) l :=
  ⟨h.idx, h.clock, h.within⟩

/-- Past the end of the micro-program a tick looks at the reset line only. -/
theorem tick_past_end {prog : List MicroOp} {s : State} {i : Nat} {sub : Sub} (h : s.upc = .pos i sub)
    (ho : prog[i]? = none) (hr : s.resetNow = false) : tick prog s = sampled s := by
  simp [tick, h, ho, hr]

theorem Twins.tick {prog : List MicroOp} (hw : Wired prog) (hf : Fed prog) {b b' : List Event} {s s' : State}
    (h : Twins prog b b' s s') : Twins prog b b' (tick prog s) (tick prog s') := by
  obtain ⟨l, evs, rfl, ht, hl, ha⟩ := h
  cases hu : s.upc with
  | idle =>
    rw [tick_idle _ _ hu, tick_idle _ (s.withLeftover l) hu]
    exact ⟨l, evs, rfl, ht, hl, ha⟩
  | pos i sub =>
    cases hr : s.resetNow with
    | true =>
      have hi : s.upc ≠ .idle := by simp [hu]
      rw [tick_reset hi hr, tick_reset (s := s.withLeftover l) hi hr]
      exact ⟨{ State.reset.leftover with host := l.host, trace := l.trace }, evs, rfl, ht, hl, nofun⟩
    | false =>
      cases ho : prog[i]? with
      | none =>
        rw [tick_past_end hu ho hr, tick_past_end (s := s.withLeftover l) hu ho hr]
        exact ⟨l, evs, rfl, ht, hl, fun j sub' op hj ho' => (ha j sub' op hj ho').sampled⟩
      | some op =>
        obtain ⟨l', evs', hrun, ht', hl', hon⟩ := op.run_twin i sub (ha i sub op hu ho).sampled
        rw [tick_at hu ho hr, tick_at (s := s.withLeftover l) hu ho hr]
        refine ⟨l', evs ++ evs', hrun, ?_, ?_, fun j sub' op' hj ho' => hon.agrees hw hf ho hj ho'⟩
        · rw [ht', sampled_trace, ht, List.append_assoc]
        · rw [hl', hl, List.append_assoc]

theorem Twins.run {prog : List MicroOp} (hw : Wired prog) (hf : Fed prog) {b b' : List Event} (n : Nat) {s s' : State}
    (h : Twins prog b b' s s') : Twins prog b b' (run prog n s) (run prog n s') := by
  induction n generalizing s s' with
  | zero => exact h
  | succ n ih => rw [run_succ, run_succ]; exact ih (h.tick hw hf)

/-- Acceptance makes twins of two states that have the same inputs. -/
theorem accept_twins (i : Instr) {s s' : State} (hpar : s'.par = s.par) (hdev : s'.dev = s.dev) (henv : s'.env = s.env)
    (hreset : s'.resetLine = s.resetLine) (hfree : s'.free = s.free) :
    Twins (programFor i) s.trace s'.trace (accept (encode i) s) (accept (encode i) s') := by
  refine ⟨s'.leftover, [], ?_, by simp, by simp [State.leftover], ?_⟩
  · simp only [accept, State.withLeftover, State.leftover, hpar, hdev, henv, hreset, hfree]
  · intro j sub op hu ho
    cases hu
    cases i <;> cases ho <;> exact MicroOp.agrees_first nofun nofun

/-- Settles O52: acceptance makes twins, and twins end alike; the data of a response agrees even where `rsp_dv` is 0. -/
theorem noHiddenState : Obligations.NoHiddenState := by
  intro i s s' t t' _ hs hs' hpar hdev henv hreset hfree ht ht'
  rw [exec_idle i hs] at ht
  rw [exec_idle i hs', hpar] at ht'
  obtain rfl := Host.Outcome.next.inj ht
  obtain rfl := Host.Outcome.next.inj ht'
  obtain ⟨l, evs, heq, htr, hltr, -⟩ :=
    (accept_twins i hpar hdev henv hreset hfree).run (programFor_wired i) (programFor_fed i) (commandBound s.par)
  have hnew : newEvents s (run (programFor i) (commandBound s.par) (accept (encode i) s)) = evs := by
    simp [newEvents, htr]
  rw [heq, hnew]
  refine ⟨rfl, ?_, rfl, rfl, rfl, fun _ => ⟨rfl, rfl, fun _ => rfl⟩⟩
  simp [newEvents, State.withLeftover, hltr]

end Sys2Proof.Machine
end

section
/-! PROOFS. The register space (20_memory.md): the environment decides what a read returns, what a step does to the
trace, which registers a command accesses, and the frames of the commands. -/

namespace Sys2Proof.Machine

/-! ### Reads (20_memory.md R43) -/

/-- A register of an existing bus holds what the environment's move has put there. -/
theorem envMove_answerMove_get? {bus : BitVec 8} {k : Kind} {v : Byte} {rest : List Move} {s : State}
    (h : bus.toNat < s.par.nBus) :
    (envMove { s with env := answerMove (.read bus k v) :: rest }).dev.get? (loc bus k) = some v := by
  have hloc : loc bus k < s.locations := loc_lt s bus k h
  have hdev : (envMove { s with env := answerMove (.read bus k v) :: rest }).dev = s.dev.set (loc bus k) v :=
    if_pos hloc
  rw [hdev, Memory.get?_set_self]

/-- Settles O28: the move puts the value into the register, and a read returns what the register is known to hold. -/
theorem environmentDecidesEveryRead : Obligations.EnvironmentDecidesEveryRead :=
  fun _ _ _ _ _ hbus => regRead_value _ _ _ _ (envMove_answerMove_get? hbus)

/-! ### The events of a run, reset or not -/

theorem newEvents_of_trace {s t : State} {evs : List Event} (h : t.trace = s.trace ++ evs) : newEvents s t = evs := by
  simp [newEvents, h]

/-- The trace of `t` is the trace of `s` with events after it, each of which satisfies `Q`. -/
def AddsEvents (Q : Event → Prop) (s t : State) : Prop := ∃ evs, t.trace = s.trace ++ evs ∧ ∀ ev ∈ evs, Q ev

theorem AddsEvents.refl (Q : Event → Prop) (s : State) : AddsEvents Q s s := ⟨[], by simp, by simp⟩

/-- The one event a tick can add is an event of the micro-operation the sequencer stands at. -/
theorem AddsEvents.tick {Q : Event → Prop} {s t : State} {prog : List MicroOp} (h : AddsEvents Q s t)
    (hQ : ∀ ev i sub op, t.upc = .pos i sub → prog[i]? = some op → op.Emits t ev → Q ev) :
    AddsEvents Q s (tick prog t) := by
  rcases tick_cases prog t with ht | ht | ⟨-, ht⟩ | ⟨_, _, _, -, -, hr, -⟩
  · rw [ht]; exact h
  · rw [ht]; exact h
  · rw [ht]; exact h
  · obtain ⟨evs, htr, hq⟩ := h
    obtain ⟨-, ⟨htr', -⟩ | ⟨ev, ⟨htr', -⟩, i, sub, op, hu, ho, hev⟩⟩ := tick_effect prog t hr
    · exact ⟨evs, htr'.trans htr, hq⟩
    · refine ⟨evs ++ [ev], by rw [htr', htr, List.append_assoc], List.forall_mem_append.2 ⟨hq, ?_⟩⟩
      simpa using hQ ev i sub op hu ho hev

/-- The events of a run, `P` being what the ticks keep and `Q` what the events then satisfy. -/
theorem run_addsEvents {prog : List MicroOp} {P : State → Prop} {Q : Event → Prop}
    (hP : ∀ s, P s → P (tick prog s))
    (hQ : ∀ s ev i sub op, P s → s.upc = .pos i sub → prog[i]? = some op → op.Emits s ev → Q ev) (n : Nat) {s : State}
    (hs : P s) : AddsEvents Q s (run prog n s) :=
  (run_keeps (P := fun t => P t ∧ AddsEvents Q s t)
    (fun t ⟨hp, h⟩ => ⟨hP t hp, h.tick fun ev i sub op => hQ t ev i sub op hp⟩) n s ⟨hs, .refl Q s⟩).2

/-- What a step does in any state: no event, or a run of a micro-program from the events made so far. -/
theorem step_trace_cases {s t : State} (h : step s = .next t) :
    t.trace = s.trace ∨ ∃ prog n a, a.trace = s.trace ∧ t = run prog n a := by
  cases hu : s.upc with
  | pos i sub =>
    simp only [step, hu, resume] at h
    split at h
    · exact .inr ⟨_, _, s, rfl, (Host.Outcome.next.inj h).symm⟩
    · cases h
  | idle =>
    cases hh : s.host with
    | nil =>
      simp only [step, hu, hh] at h
      rw [Host.Outcome.next.inj h]; exact .inl rfl
    | cons act rest =>
      cases act with
      | reset =>
        simp only [step, hu, hh] at h
        rw [← Host.Outcome.next.inj h]; exact .inl rfl
      | present w =>
        simp only [step, hu, hh, stepWord] at h
        split at h
        · rename_i i _
          rw [exec_idle i rfl] at h
          exact .inr ⟨_, _, accept (encode i) { s with upc := .idle, host := rest }, rfl,
            (Host.Outcome.next.inj h).symm⟩
        · rw [← Host.Outcome.next.inj h]; exact .inl rfl

/-- Settles O49: a run adds events, one tick at a time, and whatever else a step does adds none. -/
theorem eventsAreNeverUnmade : Obligations.EventsAreNeverUnmade := by
  intro s t h
  rcases step_trace_cases h with ht | ⟨prog, n, a, ha, rfl⟩
  · exact ⟨[], by simp [ht]⟩
  · obtain ⟨evs, htr, -⟩ := run_addsEvents (prog := prog) (P := fun _ => True) (Q := fun _ => True)
      (fun _ _ => trivial) (fun _ _ _ _ _ _ _ _ _ => trivial) n (s := a) trivial
    exact ⟨evs, by rw [htr, ha]⟩

/-! ### Which registers a micro-operation accesses -/

/-- The registers its events are on. -/
def MicroOp.kinds : MicroOp → List Kind
  | .wr _ k _ | .rd k | .rmw _ k _ => [k]
  | .poll _ _ => [.ctrl, .stat]
  | _ => []

/-- The registers it writes. -/
def MicroOp.writes : MicroOp → List Kind
  | .wr _ k _ | .rmw _ k _ => [k]
  | _ => []

theorem MicroOp.Emits.source {op : MicroOp} {s : State} {ev : Event} (h : op.Emits s ev) :
    ∃ src, op.source = some src ∧ ev.bus = src.bus s := by
  cases op with
  | wr src k v => exact ⟨src, rfl, by rw [h]; rfl⟩
  | rd k => obtain ⟨v, rfl⟩ := h; exact ⟨.operand, rfl, rfl⟩
  | rmw src k u => obtain ⟨v, rfl⟩ | rfl := h <;> exact ⟨src, rfl, rfl⟩
  | poll e code => obtain ⟨v, rfl | rfl⟩ := h <;> exact ⟨.operand, rfl, rfl⟩
  | _ => exact h.elim

theorem MicroOp.Emits.kind {op : MicroOp} {s : State} {ev : Event} (h : op.Emits s ev) :
    ev.kind ∈ op.kinds ∧ (ev.isWrite = true → ev.kind ∈ op.writes) := by
  cases op with
  | wr src k v => rw [h]; exact ⟨List.mem_singleton_self k, fun _ => List.mem_singleton_self k⟩
  | rd k => obtain ⟨v, rfl⟩ := h; exact ⟨List.mem_singleton_self k, nofun⟩
  | rmw src k u => obtain ⟨v, rfl⟩ | rfl := h <;> exact ⟨List.mem_singleton_self k, fun _ => List.mem_singleton_self k⟩
  | poll e code => obtain ⟨v, rfl | rfl⟩ := h <;> exact ⟨by simp [kinds, Event.kind], nofun⟩
  | _ => exact h.elim

/-- A position of a command accesses an existing bus only. -/
theorem MicroOp.bus_inRange_of_ready {op : MicroOp} {sub : Sub} {s : State} {src : Source} (h : op.ready sub s = true)
    (hs : op.source = some src) : (src.bus s).toNat < s.par.nBus := by
  simp only [ready, hs, Bool.and_eq_true] at h
  obtain ⟨⟨⟨-, hbus⟩, -⟩, -⟩ := h
  simpa [busInRange] using hbus

/-- Where a position of `INIT` works on an entry, the table has it. -/
theorem MicroOp.cfgRead_of_ready {op : MicroOp} {sub : Sub} {s : State} (hl : s.par.legal = true)
    (h : op.ready sub s = true) (ho : op.onEntry = true) : ∃ e ∈ s.par.cfg, cfgRead s = some e := by
  obtain ⟨-, -, -, -, hlen⟩ := legal_bounds hl
  simp only [ready, ho, Bool.and_eq_true] at h
  obtain ⟨-, hidx⟩ := h
  have hlt : s.idx.toNat < s.par.cfg.length := by simpa [hlen] using hidx
  exact ⟨_, List.getElem_mem hlt, List.getElem?_eq_getElem hlt⟩

theorem Placed.ready {prog : List MicroOp} {s : State} {i : Nat} {sub : Sub} {op : MicroOp} (h : Placed prog s)
    (hu : s.upc = .pos i sub) (ho : prog[i]? = some op) : op.ready sub s = true := by
  obtain ⟨op', ho', hr⟩ := h i sub hu
  obtain rfl : op = op' := Option.some.inj (ho.symm.trans ho')
  exact hr

/-- A tick keeps the parameters, so the next one finds them legal too. -/
theorem tick_keeps_placed {prog : List MicroOp} {p : Config.Params} (hw : Wired prog) (hl : p.legal = true) {s : State}
    (h : s.par = p ∧ Placed prog s) : (tick prog s).par = p ∧ Placed prog (tick prog s) := by
  obtain ⟨rfl, hp⟩ := h
  exact ⟨tick_par prog s, hp.tick hw hl⟩

/-- A run accesses existing buses only, whether reset cuts it short or not. -/
theorem run_buses_inRange {prog : List MicroOp} (hw : Wired prog) (n : Nat) {a : State} (hl : a.par.legal = true)
    (hp : Placed prog a) : AddsEvents (fun ev => ev.bus.toNat < a.par.nBus) a (run prog n a) := by
  refine run_addsEvents (P := fun t => t.par = a.par ∧ Placed prog t) (fun t => tick_keeps_placed hw hl) ?_ n ⟨rfl, hp⟩
  rintro t ev i sub op ⟨hpar, ht⟩ hu ho hev
  obtain ⟨src, hsrc, hbus⟩ := hev.source
  rw [hbus, ← hpar]
  exact MicroOp.bus_inRange_of_ready (ht.ready hu ho) hsrc

/-- Settles O50: in a state that meets the invariant a step runs on from a position of a micro-program, or it makes no
event. -/
theorem accessesAreToExistingBuses : Obligations.AccessesAreToExistingBuses := by
  intro s t hi h
  have hl : s.par.legal = true := hi.1
  rcases step_cases s hi with ⟨a, hpar, -, hp, htr, hs⟩ | ⟨t', hs, -, -, -, htr⟩ <;>
    obtain rfl := Host.Outcome.next.inj (hs.symm.trans h)
  · have hla : a.par.legal = true := by rw [hpar]; exact hl
    obtain ⟨evs, htr', hevs⟩ := run_buses_inRange (programOf_wired a.opL) (commandBound a.par) hla hp
    rw [newEvents_of_trace (by rw [htr', htr]), ← hpar]
    exact hevs
  · simp [newEvents, htr]

/-! ### The frames of the commands -/

/-- The micro-operation makes events on the bus of `src` only, touches only registers of `touched`, and writes only
registers of `written`. -/
def MicroOp.Within (src : Source) (touched written : List Kind) (op : MicroOp) : Prop :=
  op.source ∈ [none, some src] ∧ op.kinds ⊆ touched ∧ op.writes ⊆ written

theorem MicroOp.Emits.within {op : MicroOp} {s : State} {ev : Event} {src : Source} {touched written : List Kind}
    (h : op.Emits s ev) (hw : op.Within src touched written) :
    op.source = some src ∧ ev.bus = src.bus s ∧ ev.kind ∈ touched ∧ (ev.isWrite = true → ev.kind ∈ written) := by
  obtain ⟨hsrc, htouched, hwritten⟩ := hw
  obtain ⟨src', hs, hbus⟩ := h.source
  obtain ⟨hkind, hwrite⟩ := h.kind
  obtain rfl : src' = src := by simpa [hs] using hsrc
  exact ⟨hs, hbus, htouched hkind, fun hev => hwritten (hwrite hev)⟩

/-- What an undisturbed command leaves behind: the platform's side as it was, events that satisfy `Q`, and every
location that no event wrote as the environment's own moves left it.  `P` is what the ticks keep. -/
theorem exec_history {i : Instr} {s t : State} {P : State → Prop} {Q : Event → Prop} (hs : s.upc = .idle)
    (hd : s.Undisturbed) (h : exec i s = .next t) (ha : P (accept (encode i) s))
    (hP : ∀ s, s.Undisturbed → P s → P (tick (programFor i) s))
    (hQ : ∀ s ev j sub op, P s → s.upc = .pos j sub → (programFor i)[j]? = some op → op.Emits s ev → Q ev) :
    SamePlatform s t ∧ (∀ ev ∈ newEvents s t, Q ev) ∧
      ∀ a, NotWritten (newEvents s t) a → t.dev.get? a = (devAfter (newEvents s t).length s).get? a := by
  rw [exec_idle i hs] at h
  obtain rfl := Host.Outcome.next.inj h
  obtain ⟨⟨evs, htr, hq, -, -, hpar, hhost, hdev⟩, -⟩ :=
    run_history hP hQ (commandBound s.par) (accept (encode i) s) ha (hd.of_eq rfl)
  rw [newEvents_of_trace (htr.trans (by rw [accept_trace]))]
  refine ⟨⟨hpar, hhost⟩, hq, fun a hnw => ?_⟩
  rw [hdev a hnw, devAfter_congr evs.length (accept_env _ s) (accept_dev _ s) (accept_par _ s)]

/-- The scratch latches that a command's micro-program has no micro-operation for. -/
theorem exec_frame {i : Instr} {s t : State} (hs : s.upc = .idle) (hd : s.Undisturbed) (h : exec i s = .next t) :
    ((∀ e c, .poll e c ∉ programFor i) → t.cnt = s.cnt ∧ t.doneL = s.doneL) ∧
    (.initStart ∉ programFor i → .initNext ∉ programFor i → t.idx = s.idx) ∧
    ((∀ src, .setScl src ∉ programFor i) → t.psL = s.psL ∧ t.brL = s.brL) := by
  rw [exec_idle i hs] at h
  obtain rfl := Host.Outcome.next.inj h
  exact run_frame (prog := programFor i) (commandBound s.par) (accept (encode i) s) (hd.of_eq rfl)

/-! #### `SENDBYTE` and `RECEIVEBYTE` -/

/-- A micro-program that works on the operands' bus, touches its control, status and data registers, writes its control
and data registers, and has no micro-operation that writes `idx`, `ps_l` or `br_l`. -/
structure Transacts (prog : List MicroOp) : Prop where
  within : ∀ op ∈ prog, op.Within .operand [.ctrl, .stat, .data] [.ctrl, .data]
  initStart : .initStart ∉ prog
  initNext : .initNext ∉ prog
  setScl : ∀ src, .setScl src ∉ prog

theorem sendByteProgram_transacts : Transacts sendByteProgram :=
  ⟨by unfold MicroOp.Within; decide, by decide, by decide, fun src => by cases src <;> decide⟩

theorem receiveByteProgram_transacts : Transacts receiveByteProgram :=
  ⟨by unfold MicroOp.Within; decide, by decide, by decide, fun src => by cases src <;> decide⟩

/-- The frame of a command with such a micro-program: its events are on the bus it was accepted with. -/
theorem Transacts.frame {i : Instr} {bus : BitVec 8} {s t : State} (hp : Transacts (programFor i))
    (hbus : busField (encode i) = bus) (hs : s.upc = .idle) (hd : s.Undisturbed) (h : exec i s = .next t) :
    SamePlatform s t ∧ t.idx = s.idx ∧ t.psL = s.psL ∧ t.brL = s.brL ∧
    (∀ ev ∈ newEvents s t, ev.bus = bus ∧ ev.kind ≠ .br ∧ (ev.isWrite = true → ev.kind = .ctrl ∨ ev.kind = .data)) ∧
    (∀ a, NotWritten (newEvents s t) a → t.dev.get? a = (devAfter (newEvents s t).length s).get? a) := by
  obtain ⟨-, hidx, hclock⟩ := exec_frame hs hd h
  obtain ⟨hps, hbr⟩ := hclock hp.setScl
  have htick : ∀ t : State, t.Undisturbed → t.busL = bus → (tick (programFor i) t).busL = bus := by
    intro t hu hb
    obtain ⟨⟨-, hbusL, -⟩, -⟩ := tick_effect (programFor i) t hu.resetNow
    exact hbusL.trans hb
  have hevent : ∀ (t : State) (ev : Event) (j : Nat) (sub : Sub) (op : MicroOp), t.busL = bus →
      t.upc = .pos j sub → (programFor i)[j]? = some op → op.Emits t ev →
      ev.bus = bus ∧ ev.kind ≠ .br ∧ (ev.isWrite = true → ev.kind = .ctrl ∨ ev.kind = .data) := by
    intro t ev j sub op hb _ ho hev
    obtain ⟨-, hevbus, htouched, hwritten⟩ := hev.within (hp.within op (List.mem_of_getElem? ho))
    exact ⟨hevbus.trans hb, fun hk => by simp [hk] at htouched, fun hw => by simpa using hwritten hw⟩
  obtain ⟨hplat, hevs, hdev⟩ := exec_history hs hd h hbus htick hevent
  exact ⟨hplat, hidx hp.initStart hp.initNext, hps, hbr, hevs, hdev⟩

/-- Settles O36: the micro-programs of both commands make no other access. -/
theorem transactionFrame : Obligations.TransactionFrame := by
  rintro i bus dev reg s t (rfl | ⟨data, rfl⟩) hs hd h
  · obtain ⟨hbus, -⟩ := encode_receiveByte_fields bus dev reg
    exact Transacts.frame (i := .receiveByte bus dev reg) receiveByteProgram_transacts hbus hs hd h
  · obtain ⟨hbus, -⟩ := encode_sendByte_fields bus dev reg data
    exact Transacts.frame (i := .sendByte bus dev reg data) sendByteProgram_transacts hbus hs hd h

/-! #### `INIT` -/

/-- `INIT` accesses the bus of the entry it works on, and only while it works on one; it has no access to a data
register. -/
theorem initProgram_within : ∀ op ∈ initProgram,
    op.Within .entry [.ctrl, .br, .stat] [.ctrl, .br, .stat] ∧ (op.source = some .entry → op.onEntry = true) := by
  unfold MicroOp.Within; decide

theorem initProgram_no_poll (e : Expect) (c : Byte) : .poll e c ∉ initProgram := by
  simp [initProgram, setSclOps]

/-- Every event of `INIT` is on a bus that an entry of the table names. -/
theorem MicroOp.Emits.names_entry {t : State} {ev : Event} {j : Nat} {sub : Sub} {op : MicroOp} (h : op.Emits t ev)
    (hl : t.par.legal = true) (ht : Placed initProgram t) (hu : t.upc = .pos j sub)
    (ho : initProgram[j]? = some op) : (∃ e ∈ t.par.cfg, ev.bus = e.bus) ∧ ev.kind ≠ .data := by
  obtain ⟨hw, hentry⟩ := initProgram_within op (List.mem_of_getElem? ho)
  obtain ⟨hsrc, hbus, htouched, -⟩ := h.within hw
  obtain ⟨e, he, hcfg⟩ := cfgRead_of_ready hl (ht.ready hu ho) (hentry hsrc)
  exact ⟨⟨e, he, by rw [hbus]; simp only [Source.bus, hcfg]⟩, fun hk => by simp [hk] at htouched⟩

/-- Settles O40: a run of `INIT` stands at positions of its micro-program, so an access finds its entry in the table. -/
theorem initFrame : Obligations.InitFrame := by
  intro cfgp s t hl hs hd h
  obtain ⟨hplat, hevs, hdev⟩ := exec_history (P := fun t => t.par = s.par ∧ Placed initProgram t)
    (Q := fun ev => (∃ e ∈ s.par.cfg, ev.bus = e.bus) ∧ ev.kind ≠ .data) hs hd h
    ⟨accept_par _ s, accept_placed _ s⟩ (fun _ _ => tick_keeps_placed initProgram_wired hl)
    (fun t ev j sub op ⟨hpar, ht⟩ hu ho hev => hpar ▸ hev.names_entry (hpar ▸ hl) ht hu ho)
  obtain ⟨hpoll, -⟩ := exec_frame hs hd h
  obtain ⟨hcnt, hdone⟩ := hpoll initProgram_no_poll
  exact ⟨hplat, hcnt, hdone, hevs, hdev⟩

end Sys2Proof.Machine
end

section
/-! PROOFS. Words and commands (30_encoding.md): a legal word is laid out as its command's format says, and the layout
leaves no bit free.  From this the round trips, the opcode map and the illegal words follow. -/

namespace Sys2Proof

/-! ### A word is its fields -/

/-- Words that agree in every field of a layout are equal, if the layout covers the word. -/
theorem eq_of_fields {w v : Cmd} (layout : List (Nat × Nat))
    (hcover : ∀ k < 64, ∃ p ∈ layout, p.1 ≤ k ∧ k < p.1 + p.2)
    (h : ∀ p ∈ layout, field w p.1 p.2 = field v p.1 p.2) : w = v := by
  refine BitVec.eq_of_getLsbD_eq fun k hk => ?_
  obtain ⟨p, hp, hlo, hhi⟩ := hcover k hk
  exact bit_eq_of_field (h p hp) k hlo hhi

/-- What the mask of a row covers, a matching word has as the row's pattern has it (R67). -/
theorem Row.field_of_matches {r : Row} {w : Cmd} (h : r.matches w = true) {lo len : Nat}
    (hmask : field r.mask lo len = BitVec.allOnes len) : field w lo len = field r.pat lo len := by
  have hand : w &&& r.mask = r.pat := by simpa [Row.matches] using h
  rw [← hand, field_and, hmask, BitVec.and_allOnes]

/-! ### The formats -/

/-- The word has this `op`, `rsv` is 0, and so are the bits `lo + len - 1` down to `lo`, which the format marks 0
(R62). -/
def Legal (w : Cmd) (op : BitVec 4) (lo len : Nat) : Prop :=
  rsvField w = 0#4 ∧ opField w = op ∧ field w lo len = 0#len

/-- The word is laid out as the command's format says, with its operands in their fields (R63 to R66). -/
def Instr.LaidOutIn (w : Cmd) : Instr → Prop
  | .init cfgp => Legal w 1#4 1 55 ∧ cfgpField w = cfgp
  | .setScl bus freq => Legal w 2#4 32 16 ∧ busField w = bus ∧ freqField w = freq
  | .sendByte bus dev reg data =>
    Legal w 3#4 0 24 ∧ busField w = bus ∧ devField w = dev ∧ regField w = reg ∧ dataField w = data
  | .receiveByte bus dev reg => Legal w 4#4 0 32 ∧ busField w = bus ∧ devField w = dev ∧ regField w = reg

/-- The decoder reads a command exactly where its format is. -/
theorem decode_eq_ok_iff {w : Cmd} {i : Instr} : decode w = .ok i ↔ i.LaidOutIn w := by
  constructor
  · intro h
    obtain ⟨hr, ⟨ho, hz, rfl⟩ | ⟨ho, hz, rfl⟩ | ⟨ho, hz, rfl⟩ | ⟨ho, hz, rfl⟩⟩ := decode_cases h
    · exact ⟨⟨hr, ho, hz⟩, rfl⟩
    · exact ⟨⟨hr, ho, hz⟩, rfl, rfl⟩
    · exact ⟨⟨hr, ho, hz⟩, rfl, rfl, rfl, rfl⟩
    · exact ⟨⟨hr, ho, hz⟩, rfl, rfl, rfl⟩
  · cases i with
    | init cfgp => rintro ⟨⟨hr, ho, hz⟩, rfl⟩; simp [decode, hr, ho, hz]
    | setScl bus freq => rintro ⟨⟨hr, ho, hz⟩, rfl, rfl⟩; simp [decode, hr, ho, hz]
    | sendByte bus dev reg data => rintro ⟨⟨hr, ho, hz⟩, rfl, rfl, rfl, rfl⟩; simp [decode, hr, ho, hz]
    | receiveByte bus dev reg => rintro ⟨⟨hr, ho, hz⟩, rfl, rfl, rfl⟩; simp [decode, hr, ho, hz]

theorem rsvField_encode (i : Instr) : rsvField (encode i) = 0#4 := by
  cases i <;> simp [encode, rsvField, field_or, field_place_apart]

/-- The encoder fills the fields of the command's format and leaves the bits between them 0. -/
theorem encode_laidOut (i : Instr) : i.LaidOutIn (encode i) := by
  have hr := rsvField_encode i
  have ho := Machine.opField_encode i
  cases i with
  | init cfgp =>
    exact ⟨⟨hr, ho, by simp [encode, field_or, field_place_apart]⟩, Machine.encode_init_field cfgp⟩
  | setScl bus freq =>
    exact ⟨⟨hr, ho, by simp [encode, field_or, field_place_apart]⟩, Machine.encode_setScl_fields bus freq⟩
  | sendByte bus dev reg data =>
    exact ⟨⟨hr, ho, by simp [encode, field_or, field_place_apart]⟩, Machine.encode_sendByte_fields bus dev reg data⟩
  | receiveByte bus dev reg =>
    exact ⟨⟨hr, ho, by simp [encode, field_or, field_place_apart]⟩, Machine.encode_receiveByte_fields bus dev reg⟩

/-- Legal words of one format that agree in its operand fields are equal, if those fields cover what `op`, `rsv` and
the bits marked 0 leave over. -/
theorem Legal.eq_of_operands {w v : Cmd} {op : BitVec 4} {lo len : Nat} (hw : Legal w op lo len)
    (hv : Legal v op lo len) (operands : List (Nat × Nat))
    (hcover : ∀ k < 64, ∃ p ∈ (56, 4) :: (60, 4) :: (lo, len) :: operands, p.1 ≤ k ∧ k < p.1 + p.2)
    (h : ∀ p ∈ operands, field w p.1 p.2 = field v p.1 p.2) : w = v := by
  obtain ⟨hrsv, hop, hzero⟩ := hw
  obtain ⟨hrsv', hop', hzero'⟩ := hv
  refine eq_of_fields _ hcover (List.forall_mem_cons.2 ⟨hrsv.trans hrsv'.symm, ?_⟩)
  exact List.forall_mem_cons.2 ⟨hop.trans hop'.symm, List.forall_mem_cons.2 ⟨hzero.trans hzero'.symm, h⟩⟩

/-- A format leaves no bit free: only one word is laid out as a given command. -/
theorem Instr.LaidOutIn.unique {i : Instr} {w v : Cmd} (hw : i.LaidOutIn w) (hv : i.LaidOutIn v) : w = v := by
  cases i with
  | init cfgp =>
    obtain ⟨hw, rfl⟩ := hw
    obtain ⟨hv, hcfgp⟩ := hv
    exact hw.eq_of_operands hv [(0, 1)] (by decide) (List.forall_mem_singleton.2 hcfgp.symm)
  | setScl bus freq =>
    obtain ⟨hw, rfl, rfl⟩ := hw
    obtain ⟨hv, hbus, hfreq⟩ := hv
    exact hw.eq_of_operands hv [(48, 8), (0, 32)] (by decide) (by simpa using ⟨hbus.symm, hfreq.symm⟩)
  | sendByte bus dev reg data =>
    obtain ⟨hw, rfl, rfl, rfl, rfl⟩ := hw
    obtain ⟨hv, hbus, hdev, hreg, hdata⟩ := hv
    exact hw.eq_of_operands hv [(48, 8), (40, 8), (32, 8), (24, 8)] (by decide)
      (by simpa using ⟨hbus.symm, hdev.symm, hreg.symm, hdata.symm⟩)
  | receiveByte bus dev reg =>
    obtain ⟨hw, rfl, rfl, rfl⟩ := hw
    obtain ⟨hv, hbus, hdev, hreg⟩ := hv
    exact hw.eq_of_operands hv [(48, 8), (40, 8), (32, 8)] (by decide)
      (by simpa using ⟨hbus.symm, hdev.symm, hreg.symm⟩)

/-! ### Round trips -/

/-- Settles O1: the encoder lays the command out in its format, and there the decoder reads it. -/
theorem decodeOfEncode : Obligations.DecodeOfEncode := fun i => decode_eq_ok_iff.2 (encode_laidOut i)

/-- Settles O2: the decoded word and the encoder's are both laid out as the command, and only one word is. -/
theorem encodeOfDecode : Obligations.EncodeOfDecode :=
  fun _ i h => (encode_laidOut i).unique (decode_eq_ok_iff.1 h)

/-! ### The opcode map (R67) -/

/-- The encoder's word matches the row of its command. -/
theorem encode_matches_row (i : Instr) : ∃ r ∈ rows, r.mnemonic = i.mnemonic ∧ r.matches (encode i) = true := by
  cases i with
  | init cfgp => exact Laws.EncodeMatchesItsRow.init cfgp
  | setScl bus freq => exact Laws.EncodeMatchesItsRow.setScl bus freq
  | sendByte bus dev reg data => exact Laws.EncodeMatchesItsRow.sendByte bus dev reg data
  | receiveByte bus dev reg => exact Laws.EncodeMatchesItsRow.receiveByte bus dev reg

/-- A word that decodes is the encoder's word of its command, so it matches that command's row. -/
theorem matches_of_decode {w : Cmd} {i : Instr} (h : decode w = .ok i) :
    ∃ r ∈ rows, r.matches w = true ∧ r.mnemonic = i.mnemonic := by
  obtain ⟨r, hr, hname, hmatch⟩ := encode_matches_row i
  rw [encodeOfDecode w i h] at hmatch
  exact ⟨r, hr, hmatch, hname⟩

/-- A row's mask covers `op`, `rsv` and the bits its format marks 0, and its pattern is the opcode, so a matching word
is legal. -/
theorem Row.legal_of_matches {r : Row} {w : Cmd} (h : r.matches w = true) {op : BitVec 4} {lo len : Nat}
    (hrsv : rsvField r.mask = BitVec.allOnes 4 ∧ rsvField r.pat = 0#4)
    (hop : opField r.mask = BitVec.allOnes 4 ∧ opField r.pat = op)
    (hzero : field r.mask lo len = BitVec.allOnes len ∧ field r.pat lo len = 0#len) : Legal w op lo len :=
  ⟨(field_of_matches h hrsv.1).trans hrsv.2, (field_of_matches h hop.1).trans hop.2,
    (field_of_matches h hzero.1).trans hzero.2⟩

/-- A word that matches a row decodes to a command of that row. -/
theorem decode_of_matches {w : Cmd} {r : Row} (hr : r ∈ rows) (h : r.matches w = true) :
    ∃ i, decode w = .ok i ∧ i.mnemonic = r.mnemonic := by
  simp only [rows, List.mem_cons, List.not_mem_nil, or_false] at hr
  obtain rfl | rfl | rfl | rfl := hr
  · have hw : Legal w 1#4 1 55 := Row.legal_of_matches h (by decide) (by decide) (by decide)
    exact ⟨.init _, decode_eq_ok_iff.2 ⟨hw, rfl⟩, rfl⟩
  · have hw : Legal w 2#4 32 16 := Row.legal_of_matches h (by decide) (by decide) (by decide)
    exact ⟨.setScl _ _, decode_eq_ok_iff.2 ⟨hw, rfl, rfl⟩, rfl⟩
  · have hw : Legal w 3#4 0 24 := Row.legal_of_matches h (by decide) (by decide) (by decide)
    exact ⟨.sendByte _ _ _ _, decode_eq_ok_iff.2 ⟨hw, rfl, rfl, rfl, rfl⟩, rfl⟩
  · have hw : Legal w 4#4 0 32 := Row.legal_of_matches h (by decide) (by decide) (by decide)
    exact ⟨.receiveByte _ _ _, decode_eq_ok_iff.2 ⟨hw, rfl, rfl, rfl⟩, rfl⟩

/-- A mnemonic names one row. -/
theorem row_eq_of_mnemonic : ∀ r ∈ rows, ∀ r' ∈ rows, r.mnemonic = r'.mnemonic → r = r' := by decide

/-- The decoder rejects exactly the words that match no row. -/
theorem decode_error_iff_no_match {w : Cmd} :
    (∃ e, decode w = .error e) ↔ ∀ r ∈ rows, r.matches w = false := by
  constructor
  · rintro ⟨e, he⟩ r hr
    by_contra hm
    obtain ⟨i, hi, -⟩ := decode_of_matches hr (by simpa using hm)
    cases he.symm.trans hi
  · intro hno
    cases hd : decode w with
    | error e => exact ⟨e, rfl⟩
    | ok i =>
      obtain ⟨r, hr, hm, -⟩ := matches_of_decode hd
      simp [hno r hr] at hm

/-- Settles O3: two rows that one word matches have the mnemonic of the command it decodes to, so they are one row. -/
theorem decodeFollowsTheOpcodeMap : Obligations.DecodeFollowsTheOpcodeMap := by
  refine ⟨fun _ _ => matches_of_decode, fun _ _ => decode_of_matches, ?_, fun _ => decode_error_iff_no_match.2⟩
  intro w r hr r' hr' hm hm'
  obtain ⟨i, hi, hname⟩ := decode_of_matches hr hm
  obtain ⟨i', hi', hname'⟩ := decode_of_matches hr' hm'
  obtain rfl : i = i' := Except.ok.inj (hi.symm.trans hi')
  exact row_eq_of_mnemonic r hr r' hr' (hname.symm.trans hname')

/-! ### Illegal words (R69) -/

/-- What makes a word illegal: `op`, `rsv`, or a bit that the format marks 0. -/
theorem decode_error_iff {w : Cmd} : (∃ e, decode w = .error e) ↔
    opField w = 0x0#4 ∨ 0x5#4 ≤ opField w ∨ rsvField w ≠ 0#4 ∨
      (opField w = 0x1#4 ∧ field w 1 55 ≠ 0#55) ∨ (opField w = 0x2#4 ∧ field w 32 16 ≠ 0#16) ∨
      (opField w = 0x3#4 ∧ field w 0 24 ≠ 0#24) ∨ (opField w = 0x4#4 ∧ field w 0 32 ≠ 0#32) := by
  have hop : ∀ op : BitVec 4, op = 0x1#4 ∨ op = 0x2#4 ∨ op = 0x3#4 ∨ op = 0x4#4 ∨
    (op = 0x0#4 ∨ 0x5#4 ≤ op) ∧ op ≠ 0x1#4 ∧ op ≠ 0x2#4 ∧ op ≠ 0x3#4 ∧ op ≠ 0x4#4 := by decide
  by_cases hr : rsvField w = 0#4
  · obtain ho | ho | ho | ho | ⟨hill, h1, h2, h3, h4⟩ := hop (opField w)
    · by_cases hz : field w 1 55 = 0#55 <;> simp [decode, hr, ho, hz]
    · by_cases hz : field w 32 16 = 0#16 <;> simp [decode, hr, ho, hz]
    · by_cases hz : field w 0 24 = 0#24 <;> simp [decode, hr, ho, hz]
    · by_cases hz : field w 0 32 = 0#32 <;> simp [decode, hr, ho, hz]
    · simp [decode, hr, h1, h2, h3, h4, hill]
  · simp [decode, hr]

end Sys2Proof
end

section
/-! PROOFS. The written syntax, the command port and the response word (30_encoding.md R60, R70, R71): how a command
comes into the sequencer and how its response leaves it. -/

namespace Sys2Proof

/-! ### Written commands (R71) -/

/-- Settles O5: one equation for each mnemonic, `fits` being the bound of the field. -/
theorem writtenCommandsAssemble : Obligations.WrittenCommandsAssemble := by
  refine ⟨fun cfgp => ?_, fun bus freq => ?_, fun bus dev reg data => ?_, fun bus dev reg => ?_⟩
  · simp [Written.assemble, fits]
  · simp [Written.assemble, fits]
  · simp [Written.assemble, fits, and_assoc]
  · simp [Written.assemble, fits, and_assoc]

end Sys2Proof

namespace Sys2Proof.Machine

/-! ### What a step is, case by case -/

theorem step_busy {s : State} (hs : s.upc ≠ .idle) : step s = resume s := by
  cases hu : s.upc with
  | idle => exact absurd hu hs
  | pos i sub => simp [step, hu]

theorem step_waiting {s : State} (hs : s.upc = .idle) (hh : s.host = []) : step s = .next s := by
  simp [step, hs, hh]

theorem step_presented {s : State} {w : Cmd} {rest : List HostAct} (hs : s.upc = .idle)
    (hh : s.host = .present w :: rest) : step s = stepWord w { s with host := rest } := by
  simp [step, hs, hh]

theorem step_reset {s : State} {rest : List HostAct} (hs : s.upc = .idle) (hh : s.host = .reset :: rest) :
    step s = .next (resetInput { s with host := rest }) := by
  simp [step, hs, hh]

/-- A command presented to a busy sequencer is neither accepted nor remembered. -/
theorem exec_busy (i : Instr) {s : State} (h : s.upc ≠ .idle) : exec i s = .next s := by
  cases hu : s.upc with
  | idle => exact absurd hu h
  | pos j sub => cases i <;> simp [exec, execInit, execSetScl, execSendByte, execReceiveByte, issue, hu]

theorem stepWord_ok {w : Cmd} {i : Instr} (h : decode w = .ok i) (s : State) : stepWord w s = exec i s := by
  simp [stepWord, h]

theorem stepWord_error {w : Cmd} {e : Illegal} (h : decode w = .error e) (s : State) :
    stepWord w s = .next (rejectIllegal s) := by
  simp [stepWord, h]

/-! ### The command port (R60, R69) -/

theorem decode_of_decodeTableWord {nbits w : Nat} {i : Instr} (h : decodeTableWord nbits w = some i) :
    decode (tableWord nbits w) = .ok i := by
  unfold decodeTableWord at h
  split at h
  · rename_i hd; rw [hd, Option.some.inj h]
  · cases h

/-- Settles O6: with `withFetchWord` the word is the one the host presents, so the second claim is the first. -/
theorem stepRunsThePresentedCommand : Obligations.StepRunsThePresentedCommand := by
  constructor
  · intro s w rest i hs hh hd
    rw [step_presented hs hh, stepWord_ok hd]
  · intro s nbits w i hd
    rw [step_presented (s := s.withFetchWord nbits w) rfl rfl, stepWord_ok (decode_of_decodeTableWord hd)]
    rfl

/-- Settles O7: each latch holds its slice of the word, and the encoder puts the operand there. -/
theorem acceptanceLoadsTheLatches : Obligations.AcceptanceLoadsTheLatches := by
  intro i s
  refine ⟨rfl, rfl, ⟨rfl, rfl, rfl⟩, ⟨rfl, rfl⟩, ?_⟩
  have hop := opField_encode i
  cases i with
  | init cfgp => exact ⟨hop, encode_init_field cfgp⟩
  | setScl bus freq => exact ⟨hop, encode_setScl_fields bus freq⟩
  | sendByte bus dev reg data => exact ⟨hop, encode_sendByte_fields bus dev reg data⟩
  | receiveByte bus dev reg => exact ⟨hop, encode_receiveByte_fields bus dev reg⟩

/-- Settles O9: no row matches exactly where the decoder rejects, and a rejected word is answered at once. -/
theorem illegalWordsAreAnswered : Obligations.IllegalWordsAreAnswered := by
  refine ⟨fun w => decode_error_iff_no_match.symm.trans decode_error_iff, ?_⟩
  intro s w rest hs hh hno
  obtain ⟨e, he⟩ := decode_error_iff_no_match.2 hno
  have hstep : step s = .next (rejectIllegal { s with host := rest }) := by
    rw [step_presented hs hh, stepWord_error he]
  refine ⟨_, hstep, ⟨rfl, rfl, rfl, rfl⟩, ?_⟩
  simp [respond, hs]

/-! ### The response word (R70) -/

/-- Settles O13: the word is the three registers side by side. -/
theorem responseWordLayout : Obligations.ResponseWordLayout := by
  intro s
  refine ⟨BitVec.extractLsb'_append_eq_right, ?_, ?_⟩
  · exact (BitVec.extractLsb'_append_eq_of_le (Nat.le_refl 8)).trans BitVec.extractLsb'_append_eq_right
  · simp only [State.rspWord, BitVec.getLsbD_append]
    simp

end Sys2Proof.Machine
end

section
/-! PROOFS. Words offered while the sequencer is busy (30_encoding.md R61): nothing reads an offered word, so a step and
forgetting the offered words of the script commute. -/

namespace Sys2Proof.Machine

/-! ### Forgetting the offered words -/

/-- The script without the words offered in it. -/
def unoffered (env : List Move) : List Move := env.map fun m => { m with offered := none }

/-- The state with no word offered in its script. -/
def State.quiet (s : State) : State := { s with env := unoffered s.env }

@[simp] theorem State.quiet_upc (s : State) : s.quiet.upc = s.upc := rfl
@[simp] theorem State.quiet_opL (s : State) : s.quiet.opL = s.opL := rfl
@[simp] theorem State.quiet_busL (s : State) : s.quiet.busL = s.busL := rfl
@[simp] theorem State.quiet_par (s : State) : s.quiet.par = s.par := rfl

@[simp] theorem Source.bus_quiet (src : Source) (s : State) : src.bus s.quiet = src.bus s := by cases src <;> rfl
@[simp] theorem Source.freq_quiet (src : Source) (s : State) : src.freq s.quiet = src.freq s := by cases src <;> rfl
@[simp] theorem WrVal.value_quiet (v : WrVal) (s : State) : v.value s.quiet = v.value s := by cases v <;> rfl
@[simp] theorem rmwValue_quiet (u : Update) (s : State) : rmwValue u s.quiet = rmwValue u s := by cases u <;> rfl

/-- The environment's move takes its changes from the script and leaves the word offered with them unread. -/
theorem envMove_quiet (s : State) : envMove s.quiet = (envMove s).quiet := by
  unfold envMove State.quiet
  cases s.env <;> rfl

theorem regRead_quiet (b : BitVec 8) (k : Kind) (s : State) :
    regRead b k s.quiet = ((regRead b k s).1, (regRead b k s).2.quiet) := by
  unfold regRead State.quiet
  cases s.dev.get? (loc b k) <;> rfl

/-- An event takes in no offered word, if what it does with the state it finds takes in none. -/
theorem event_quiet {act : State → State} (h : ∀ s, act s.quiet = (act s).quiet) (s : State) :
    event act s.quiet = (event act s).quiet := by
  rw [event_eq, event_eq, envMove_quiet, h]

theorem pollControl_quiet (i : Nat) (s : State) : pollControl i s.quiet = (pollControl i s).quiet := by
  simp only [pollControl, State.quiet_busL, regRead_quiet]; rfl

theorem rdRead_quiet (k : Kind) (i : Nat) (s : State) : rdRead k i s.quiet = (rdRead k i s).quiet := by
  simp only [rdRead, State.quiet_busL, regRead_quiet]; rfl

theorem rmwRead_quiet (src : Source) (k : Kind) (i : Nat) (s : State) :
    rmwRead src k i s.quiet = (rmwRead src k i s).quiet := by
  simp only [rmwRead, Source.bus_quiet, regRead_quiet]; rfl

theorem rmwWrite_quiet (src : Source) (k : Kind) (u : Update) (i : Nat) (s : State) :
    rmwWrite src k u i s.quiet = (rmwWrite src k u i s).quiet := by
  simp only [rmwWrite, Source.bus_quiet, rmwValue_quiet]; rfl

theorem pollStatus_quiet (e : Expect) (code : Byte) (i : Nat) (s : State) :
    pollStatus e code i s.quiet = (pollStatus e code i s).quiet := by
  simp only [pollStatus, State.quiet_busL, regRead_quiet, apply_ite State.quiet]; rfl

theorem MicroOp.run_quiet (op : MicroOp) (i : Nat) (sub : Sub) (s : State) :
    op.run i sub s.quiet = (op.run i sub s).quiet := by
  cases op with
  | chk code => simp only [MicroOp.run, apply_ite State.quiet]; rfl
  | wr src k v =>
    refine event_quiet (act := fun t => advance i (regWrite (src.bus t) k (v.value t) t)) (fun t => ?_) s
    rw [Source.bus_quiet, WrVal.value_quiet]; rfl
  | rd k => exact event_quiet (rdRead_quiet k i) s
  | rmw src k u =>
    cases sub with
    | second => exact event_quiet (rmwWrite_quiet src k u i) s
    | first => exact event_quiet (rmwRead_quiet src k i) s
    | again => exact event_quiet (rmwRead_quiet src k i) s
  | poll e code =>
    cases sub with
    | first => exact event_quiet (pollControl_quiet i) { s with cnt := 0#32 }
    | again => exact event_quiet (pollControl_quiet i) s
    | second => exact event_quiet (pollStatus_quiet e code i) s
  | ret code => rfl
  | retData code => rfl
  | setScl src =>
    simp only [MicroOp.run, State.quiet_par, Source.bus_quiet, Source.freq_quiet]
    cases sclCompute s.par (src.bus s) (src.freq s) with
    | found br ps => rfl
    | fail code => cases src <;> rfl
  | initStart => simp only [MicroOp.run, apply_ite State.quiet]; rfl
  | initLoop => simp only [MicroOp.run, apply_ite State.quiet]; rfl
  | initNext => rfl

theorem tick_quiet (prog : List MicroOp) (s : State) : tick prog s.quiet = (tick prog s).quiet := by
  cases hu : s.upc with
  | idle => rw [tick_idle _ _ hu, tick_idle _ s.quiet hu]
  | pos i sub =>
    cases hr : s.resetNow with
    | true =>
      have hb : s.upc ≠ .idle := by simp [hu]
      rw [tick_reset hb hr, tick_reset (s := s.quiet) hb hr]; rfl
    | false =>
      cases ho : prog[i]? with
      | none => rw [tick_past_end hu ho hr, tick_past_end (s := s.quiet) hu ho hr]; rfl
      | some op => rw [tick_at hu ho hr, tick_at (s := s.quiet) hu ho hr]; exact op.run_quiet i sub (sampled s)

theorem run_quiet (prog : List MicroOp) (n : Nat) (s : State) : run prog n s.quiet = (run prog n s).quiet := by
  induction n generalizing s with
  | zero => rfl
  | succ n ih => rw [run_succ, run_succ, tick_quiet, ih]

/-! ### A step -/

/-- An outcome without the words offered in the script of its state. -/
def quietOutcome : Host.Outcome State Fault Refusal → Host.Outcome State Fault Refusal
  | .next s => .next s.quiet
  | .fault r => .fault r
  | .refused r => .refused r

@[simp] theorem MicroOp.ready_quiet (op : MicroOp) (sub : Sub) (s : State) :
    op.ready sub s.quiet = op.ready sub s := by
  simp only [MicroOp.ready, Source.bus_quiet]; rfl

@[simp] theorem State.positionOk_quiet (s : State) : s.quiet.positionOk = s.positionOk := by
  simp only [State.positionOk, State.quiet_upc, State.quiet_opL, MicroOp.ready_quiet]

theorem quietOutcome_eq_next {o : Host.Outcome State Fault Refusal} {q : State} (h : quietOutcome o = .next q) :
    ∃ t, o = .next t ∧ t.quiet = q := by
  cases o with
  | next t => exact ⟨t, rfl, Host.Outcome.next.inj h⟩
  | fault r => cases h
  | refused r => cases h

theorem quietOutcome_eq_fault {o : Host.Outcome State Fault Refusal} {r : Fault} (h : quietOutcome o = .fault r) :
    o = .fault r := by
  cases o with
  | next t => cases h
  | fault r' => exact h
  | refused r' => cases h

theorem quietOutcome_eq_refused {o : Host.Outcome State Fault Refusal} {r : Refusal}
    (h : quietOutcome o = .refused r) : o = .refused r := by
  cases o with
  | next t => cases h
  | fault r' => cases h
  | refused r' => exact h

theorem resume_quiet (s : State) : resume s.quiet = quietOutcome (resume s) := by
  unfold resume
  rw [State.positionOk_quiet]
  split
  · exact congrArg Host.Outcome.next (run_quiet _ _ s)
  · rfl

theorem exec_quiet (i : Instr) (s : State) : exec i s.quiet = quietOutcome (exec i s) := by
  by_cases h : s.upc = .idle
  · rw [exec_idle i h, exec_idle (s := s.quiet) i h]
    exact congrArg Host.Outcome.next (run_quiet _ _ (accept (encode i) s))
  · rw [exec_busy i h, exec_busy (s := s.quiet) i h]; rfl

theorem stepWord_quiet (w : Cmd) (s : State) : stepWord w s.quiet = quietOutcome (stepWord w s) := by
  unfold stepWord
  cases decode w with
  | ok i => exact exec_quiet i s
  | error e => rfl

/-- A step reads no offered word: the script without them gives the same outcome, without them. -/
theorem step_quiet (s : State) : step s.quiet = quietOutcome (step s) := by
  by_cases hs : s.upc = .idle
  · cases hh : s.host with
    | nil => rw [step_waiting hs hh, step_waiting (s := s.quiet) hs hh]; rfl
    | cons act rest =>
      cases act with
      | reset => rw [step_reset hs hh, step_reset (s := s.quiet) hs hh]; rfl
      | present w =>
        rw [step_presented hs hh, step_presented (s := s.quiet) hs hh]
        exact stepWord_quiet w { s with host := rest }
  · rw [step_busy hs, step_busy (s := s.quiet) hs, resume_quiet]

/-- States that are equal without their offered words differ in nothing but these. -/
theorem State.eq_of_quiet_eq {t t' : State} (h : t'.quiet = t.quiet) :
    t' = { t with env := t'.env } ∧ unoffered t'.env = unoffered t.env := by
  refine ⟨?_, congrArg State.env h⟩
  calc t' = { t'.quiet with env := t'.env } := rfl
    _ = { t.quiet with env := t'.env } := by rw [h]

/-- Settles O10: without the offered words both states are the same, so their steps have the same outcome. -/
theorem offeredWordsHaveNoEffect : Obligations.OfferedWordsHaveNoEffect := by
  refine ⟨fun i s h => exec_busy i h, fun s env' henv => ?_⟩
  have hquiet : { s with env := env' }.quiet = s.quiet := congrArg (fun e => { s with env := e }) henv
  have hout : quietOutcome (step { s with env := env' }) = quietOutcome (step s) := by
    rw [← step_quiet, ← step_quiet, hquiet]
  refine ⟨fun t ht => ?_, fun r hr => ?_, fun r hr => ?_⟩
  · rw [ht] at hout
    obtain ⟨t', ht', hq⟩ := quietOutcome_eq_next hout
    obtain ⟨heq, hrest⟩ := State.eq_of_quiet_eq hq
    exact ⟨t'.env, by rw [ht', ← heq], hrest⟩
  · rw [hr] at hout; exact quietOutcome_eq_fault hout
  · rw [hr] at hout; exact quietOutcome_eq_refused hout

end Sys2Proof.Machine
end

section
/-! PROOFS. The clock configurator (40_clock_configurator.md): which candidate its search picks, what its checks find
in each case, and what `SETSCL` then does in any environment. -/

namespace Sys2Proof.Machine

/-! ### The prescaler search (R85) -/

/-- The search stops at the first prescaler of the list whose candidate fits, or finds that none fits. -/
theorem sclSearch_cases (n : Nat) (l : List Nat) (c : Nat) :
    (∃ (i : Nat) (h : i < l.length), sclCandidate n l[i] < Config.brLimit ∧
        (∀ (j : Nat) (hj : j < i), Config.brLimit ≤ sclCandidate n l[j]) ∧
        sclSearch n l c = .found (BitVec.ofNat 8 (sclCandidate n l[i])) (BitVec.ofNat 2 (c + i))) ∨
      ((∀ p ∈ l, Config.brLimit ≤ sclCandidate n p) ∧ sclSearch n l c = .fail codeNoPrescalerFits) := by
  induction l generalizing c with
  | nil => exact .inr ⟨by simp, rfl⟩
  | cons p l ih =>
    by_cases hp : sclCandidate n p < Config.brLimit
    · exact .inl ⟨0, by simp, hp, by simp, by simp [sclSearch, hp]⟩
    · have hnext : sclSearch n (p :: l) c = sclSearch n l (c + 1) := by simp [sclSearch, hp]
      rw [hnext]
      rcases ih (c + 1) with ⟨i, hi, hfit, hbefore, hfound⟩ | ⟨hnone, hfail⟩
      · refine .inl ⟨i + 1, by simpa using hi, hfit, fun j hj => ?_, ?_⟩
        · cases j with
          | zero => exact Nat.le_of_not_lt hp
          | succ j => exact hbefore j (by omega)
        · rw [hfound, Nat.add_right_comm, Nat.add_assoc]; rfl
      · exact .inr ⟨by simpa using ⟨Nat.le_of_not_lt hp, hnone⟩, hfail⟩

/-- The prescalers of R85 are the powers of 4. -/
theorem prescalers_getElem : ∀ (c : Nat) (h : c < Config.prescalers.length), Config.prescalers[c] = 4 ^ c := by
  decide

/-- The search over the four prescalers: the bitrate of select code `c` is `n div (2 * 4^c)`. -/
theorem sclSearch_prescalers_cases (n : Nat) :
    (∃ c, c < 4 ∧ n / (2 * 4 ^ c) < 256 ∧ (∀ j, j < c → 256 ≤ n / (2 * 4 ^ j)) ∧
        sclSearch n Config.prescalers 0 = .found (BitVec.ofNat 8 (n / (2 * 4 ^ c))) (BitVec.ofNat 2 c)) ∨
      ((∀ c, c < 4 → 256 ≤ n / (2 * 4 ^ c)) ∧ sclSearch n Config.prescalers 0 = .fail codeNoPrescalerFits) := by
  rcases sclSearch_cases n Config.prescalers 0 with ⟨c, hc, hfit, hbefore, hfound⟩ | ⟨hnone, hfail⟩
  · rw [prescalers_getElem c hc] at hfit hfound
    refine .inl ⟨c, hc, hfit, fun j hj => ?_, by rw [hfound, Nat.zero_add]; rfl⟩
    have hbig := hbefore j hj
    rwa [prescalers_getElem j (hj.trans hc)] at hbig
  · refine .inr ⟨fun c hc => ?_, hfail⟩
    have hbig := hnone _ (List.getElem_mem (l := Config.prescalers) hc)
    rwa [prescalers_getElem c hc] at hbig

/-- A candidate fits below a bound on the numerator that each select code makes four times as large. -/
theorem bitrate_fits_iff (n c : Nat) : n / (2 * 4 ^ c) < 256 ↔ n < 512 * 4 ^ c := by
  rw [Nat.div_lt_iff_lt_mul (by positivity), ← Nat.mul_assoc]

/-- The closed form of the search (R85): the select code whose bound is the first above the numerator. -/
theorem sclSearch_closed_form {n : Nat} (hn : n ≤ 32767) :
    let c := if n ≤ 511 then 0 else if n ≤ 2047 then 1 else if n ≤ 8191 then 2 else 3
    sclSearch n Config.prescalers 0 = .found (BitVec.ofNat 8 (n / (2 * 4 ^ c))) (BitVec.ofNat 2 c) := by
  rcases sclSearch_prescalers_cases n with ⟨c, hc, hfit, hbefore, hfound⟩ | ⟨hnone, -⟩
  · suffices hform : (if n ≤ 511 then 0 else if n ≤ 2047 then 1 else if n ≤ 8191 then 2 else 3) = c by
      simp only [hform, hfound]
    have hbound : ∀ j, j < c → 512 * 4 ^ j ≤ n := fun j hj =>
      Nat.le_of_not_lt fun hlt => absurd ((bitrate_fits_iff n j).2 hlt) (Nat.not_lt.2 (hbefore j hj))
    rw [bitrate_fits_iff] at hfit
    match c, hc with
    | 0, _ => rw [if_pos (by omega)]
    | 1, _ => have := hbound 0 (by omega); rw [if_neg (by omega), if_pos (by omega)]
    | 2, _ => have := hbound 1 (by omega); rw [if_neg (by omega), if_neg (by omega), if_pos (by omega)]
    | 3, _ => have := hbound 2 (by omega); rw [if_neg (by omega), if_neg (by omega), if_neg (by omega)]
  · have hlarge : ¬ n < 512 * 4 ^ 3 := fun hlt =>
      absurd ((bitrate_fits_iff n 3).2 hlt) (Nat.not_lt.2 (hnone 3 (by omega)))
    omega

/-- A numerator of 32768 or more is above every bound (R85). -/
theorem sclSearch_too_large {n : Nat} (hn : 32768 ≤ n) :
    sclSearch n Config.prescalers 0 = .fail codeNoPrescalerFits := by
  rcases sclSearch_prescalers_cases n with ⟨c, hc, hfit, -⟩ | ⟨-, hfail⟩
  · have hpow : 4 ^ c ≤ 4 ^ 3 := Nat.pow_le_pow_right (by omega) (by omega)
    rw [bitrate_fits_iff] at hfit
    omega
  · exact hfail

/-- Settles O19: the search is over the powers of 4 in rising order, and stops at the first that fits. -/
theorem searchPicksTheFirstThatFits : Obligations.SearchPicksTheFirstThatFits := by
  intro p bus freq n hb h0 hf hn
  rw [sclCompute_search hb h0 hf hn]
  rcases sclSearch_prescalers_cases n with ⟨c, hc, hfit, hbefore, hfound⟩ | ⟨hnone, hfail⟩
  · rw [hfound]
    refine ⟨fun br ps h => ?_, fun _ h => by cases h⟩
    obtain ⟨rfl, rfl⟩ := SclResult.found.inj h
    have hps : (BitVec.ofNat 2 c).toNat = c := Nat.mod_eq_of_lt hc
    rw [hps]
    exact ⟨Nat.mod_eq_of_lt hfit, hbefore⟩
  · rw [hfail]
    refine ⟨fun _ _ h => (by cases h), fun code h => ?_⟩
    exact ⟨(SclResult.fail.inj h).symm, fun c hc => hnone c (by omega)⟩

/-! ### The checks before the search (R81 to R84) -/

section
variable {p : Config.Params} {bus : BitVec 8} {freq : BitVec 32}

theorem sclCompute_bus_outOfRange (hb : p.nBus ≤ bus.toNat) : sclCompute p bus freq = .fail codeOutOfRange := by
  simp [sclCompute, busInRange, Nat.not_lt.2 hb]

theorem sclCompute_above_ceiling (hb : bus.toNat < p.nBus) (hf : 400000 < freq.toNat) :
    sclCompute p bus freq = .fail codeInvalidFrequency := by
  simp [sclCompute, busInRange, hb, Config.fMax, hf]

/-- Frequency 0 and a negative numerator fail before the search. -/
theorem sclCompute_no_numerator (hb : bus.toNat < p.nBus) (hf : freq.toNat ≤ 400000)
    (hn : freq = 0#32 ∨ p.fSys.toNat / freq.toNat < 16) : sclCompute p bus freq = .fail codeNoPrescalerFits := by
  by_cases h0 : freq = 0#32
  · simp [sclCompute, busInRange, hb, h0]
  · have hceil : ¬ Config.fMax < freq.toNat := Nat.not_lt.2 hf
    have hneg : sclNumerator p.fSys freq < 0 := by
      have hlt := hn.resolve_left h0
      unfold sclNumerator; omega
    simp [sclCompute, busInRange, hb, hceil, h0, hneg]

/-- Below the ceiling the configurator finds a candidate, or fails with `NoPrescalerFits`. -/
theorem sclCompute_cases (hb : bus.toNat < p.nBus) (hf : freq.toNat ≤ 400000) :
    (∃ br ps, sclCompute p bus freq = .found br ps) ∨ sclCompute p bus freq = .fail codeNoPrescalerFits := by
  by_cases hn : freq = 0#32 ∨ p.fSys.toNat / freq.toNat < 16
  · exact .inr (sclCompute_no_numerator hb hf hn)
  · obtain ⟨h0, hge⟩ := not_or.1 hn
    obtain ⟨n, hn⟩ := Nat.exists_eq_add_of_le' (Nat.le_of_not_lt hge)
    rw [sclCompute_search hb h0 hf hn]
    rcases sclSearch_prescalers_cases n with ⟨c, -, -, -, hfound⟩ | ⟨-, hfail⟩
    · exact .inl ⟨_, _, hfound⟩
    · exact .inr hfail

end

/-! ### `SETSCL` where the checks fail (R81 to R84) -/

/-- What the accepted command computes is `SetScl` of its operands. -/
theorem sclCompute_accept (bus : BitVec 8) (freq : BitVec 32) (s : State) :
    sclCompute (accept (encode (.setScl bus freq)) s).par (accept (encode (.setScl bus freq)) s).busL
      (accept (encode (.setScl bus freq)) s).freqL = sclCompute s.par bus freq := by
  obtain ⟨hbus, hfreq⟩ := encode_setScl_fields bus freq
  rw [accept_par, accept_busL, accept_freqL, hbus, hfreq]

theorem Goes.tick {prog : List MicroOp} {n : Nat} {s t : State} (h : Goes prog n s t) :
    Goes prog (n + 1) s (tick prog t) :=
  h.trans (Goes.one rfl)

/-- The fuel of a command is enough for any that ends within 20 ticks. -/
theorem exec_of_goes {i : Instr} {n : Nat} {s t : State} (hs : s.upc = .idle)
    (h : Goes (programFor i) n (accept (encode i) s) t) (ht : t.upc = .idle) (hn : n ≤ 20) : exec i s = .next t := by
  rw [exec_idle i hs, h.run ht (by unfold commandBound; omega)]

/-- A failure is answered at once: the first micro-operation ends the command. -/
theorem exec_setScl_fail {bus : BitVec 8} {freq : BitVec 32} {code : Byte} {s : State} (hs : s.upc = .idle)
    (hd : s.Undisturbed) (hc : sclCompute s.par bus freq = .fail code) :
    ∃ t, exec (.setScl bus freq) s = .next t ∧ t.Answered code ∧ NoEvent s t ∧ SamePlatform s t := by
  have ha : (accept (encode (.setScl bus freq)) s).Undisturbed := hd.of_eq rfl
  have htick : tick setSclProgram (accept (encode (.setScl bus freq)) s) =
      respond code (sampled (accept (encode (.setScl bus freq)) s)) := by
    rw [tick_at (i := 0) (sub := .first) rfl (op := .setScl .operand) rfl ha.resetNow]
    simp only [MicroOp.run, Source.bus, Source.freq, sampled_par, sampled_busL, sampled_freqL, sclCompute_accept, hc]
    rfl
  have hexec := exec_of_goes (i := .setScl bus freq) hs (Goes.one htick) rfl (by decide)
  exact ⟨_, hexec, ⟨rfl, rfl, rfl, rfl⟩, ⟨rfl, rfl, rfl⟩, rfl, rfl⟩

/-- Settles O15: the range check comes first, and its failure is answered at once. -/
theorem setSclBusOutOfRange : Obligations.SetSclBusOutOfRange := by
  intro bus freq s hs hd hb
  have hc : sclCompute s.par bus freq = .fail 0x00#8 := sclCompute_bus_outOfRange hb
  exact ⟨hc, exec_setScl_fail hs hd hc⟩

/-- Settles O17: without a numerator there is no search, and a numerator of 32768 or more fits no prescaler. -/
theorem setSclNoPrescalerFits : Obligations.SetSclNoPrescalerFits := by
  intro bus freq s hs hd hb hf hn
  have hc : sclCompute s.par bus freq = .fail 0x11#8 := by
    by_cases hnone : freq = 0#32 ∨ s.par.fSys.toNat / freq.toNat < 16
    · exact sclCompute_no_numerator hb hf hnone
    · obtain ⟨h0, -⟩ := not_or.1 hnone
      have hlarge := (or_assoc.2 hn).resolve_left hnone
      obtain ⟨n, hq⟩ := Nat.exists_eq_add_of_le' (le_trans (Nat.le_add_left 16 32768) hlarge)
      rw [sclCompute_search hb h0 hf hq]
      exact sclSearch_too_large (by omega)
  exact ⟨hc, exec_setScl_fail hs hd hc⟩

/-! ### `SETSCL` where a candidate fits (R86, R87) -/

/-- A command that was accepted in `s` and whose search chose `br` and `ps` is at `u` in `t`, with the events `evs`
made in whatever environment there is. -/
structure Configuring (s : State) (br : BitVec 8) (ps : BitVec 2) (u : Upc) (evs : List Event) (t : State) : Prop where
  upc : t.upc = u
  brL : t.brL = br
  psL : t.psL = ps
  trace : t.trace = s.trace ++ evs
  und : t.Undisturbed
  history : History (fun _ => True) s t

section
variable {s t : State} {br : BitVec 8} {ps : BitVec 2} {u : Upc} {evs : List Event}

/-- The events of the history are those of the trace, so its clauses speak of `evs`. -/
theorem Configuring.history_of_trace (h : Configuring s br ps u evs t) :
    t.env = s.env.drop evs.length ∧ t.busL = s.busL ∧ t.par = s.par ∧
      ∀ a, NotWritten evs a → t.dev.get? a = (devAfter evs.length s).get? a := by
  obtain ⟨evs', htr, -, henv, ⟨-, hbus, -⟩, hpar, -, hdev⟩ := h.history
  obtain rfl : evs' = evs := List.append_cancel_left (htr.symm.trans h.trace)
  exact ⟨henv, hbus, hpar, hdev⟩

/-- A micro-operation past the search: it keeps the choice, and adds the events it makes. -/
theorem Configuring.tick {prog : List MicroOp} {op : MicroOp} {i : Nat} {sub : Sub} {t' : State} {new : List Event}
    (h : Configuring s br ps (.pos i sub) evs t) (ho : prog[i]? = some op) (hop : ∀ src, op ≠ .setScl src)
    (ht : op.run i sub (sampled t) = t') (hu : t'.upc = u) (hnew : t'.trace = t.trace ++ new) :
    Machine.tick prog t = t' ∧ Configuring s br ps u (evs ++ new) t' := by
  have htick : Machine.tick prog t = t' := (tick_at h.upc ho h.und.resetNow).trans ht
  obtain ⟨-, -, hkeep⟩ := op.run_frame i sub (sampled t)
  obtain ⟨hps, hbr⟩ := hkeep.resolve_right fun ⟨src, hsrc⟩ => hop src hsrc
  rw [ht] at hps hbr
  refine ⟨htick, hu, hbr.trans h.brL, hps.trans h.psL, by rw [hnew, h.trace, List.append_assoc], ?_, ?_⟩
  · rw [← htick]; exact h.und.tick prog
  · rw [← htick]; exact h.history.tick prog h.und.resetNow fun _ _ _ _ _ _ _ => trivial

/-- The search itself: the choice is latched, no event is made. -/
theorem Configuring.start (hu : s.upc = .pos 0 .first) (hd : s.Undisturbed)
    (hc : sclCompute s.par s.busL s.freqL = .found br ps) :
    Configuring s br ps (.pos 1 .first) [] (Machine.tick setSclProgram s) := by
  have htick : Machine.tick setSclProgram s = advance 0 { sampled s with brL := br, psL := ps } := by
    rw [tick_at hu (op := .setScl .operand) rfl hd.resetNow]
    simp only [MicroOp.run, Source.bus, Source.freq, sampled_par, sampled_busL, sampled_freqL, hc]
  refine ⟨by rw [htick]; rfl, by rw [htick]; rfl, by rw [htick]; rfl, by rw [htick]; simp, hd.tick _, ?_⟩
  exact (History.refl _ s).tick _ hd.resetNow fun _ _ _ _ _ _ _ => trivial

/-- The bitrate write (R86). -/
theorem Configuring.writeBitrate (h : Configuring s br ps (.pos 1 .first) [] t) :
    Configuring s br ps (.pos 2 .first) [.write s.busL .br br] (Machine.tick setSclProgram t) := by
  obtain ⟨-, hbus, -⟩ := h.history_of_trace
  obtain ⟨htick, h'⟩ := h.tick (prog := setSclProgram) (op := .wr .operand .br .bitrate)
    (new := [.write s.busL .br br]) rfl (by simp) rfl rfl (by simp [MicroOp.run, Source.bus, WrVal.value, hbus, h.brL])
  rw [htick]; exact h'

/-- The status read (R86): the value goes to `tmp`, and is what the environment's own moves left there. -/
theorem Configuring.readStatus (h : Configuring s br ps (.pos 2 .first) [.write s.busL .br br] t) :
    ∃ x, Configuring s br ps (.pos 2 .second) [.write s.busL .br br, .read s.busL .stat x]
        (Machine.tick setSclProgram t) ∧ (Machine.tick setSclProgram t).tmp = x ∧
      ∀ y, (devAfter 2 s).get? (loc s.busL .stat) = some y → x = y := by
  obtain ⟨henv, hbus, hpar, hdev⟩ := h.history_of_trace
  obtain ⟨htick, h'⟩ := h.tick (prog := setSclProgram) (op := .rmw .operand .stat .prescaler) (u := .pos 2 .second)
    (new := [.read s.busL .stat (regRead s.busL .stat (envMove (sampled t))).1]) rfl (by simp) rfl rfl
    (by simp [MicroOp.run, rmwRead, Source.bus, hbus])
  rw [htick]
  refine ⟨_, h', by simp [MicroOp.run, rmwRead, Source.bus, hbus], fun y hy => regRead_value _ _ _ _ ?_⟩
  have hstat : t.dev.get? (loc s.busL .stat) = (devAfter 1 s).get? (loc s.busL .stat) :=
    hdev _ (by simp [NotWritten, Event.bus, Event.kind, loc, Kind.index])
  rw [← hy, envMove_sampled, sampled_dev, devAfter_eq, envAfter_succ]
  exact envMove_agree (by rw [henv, envAfter_env]; rfl) (by rw [hpar, envAfter_par]) _ (by rw [hstat, devAfter_eq])

/-- The status write (R86): the select code in the two low bits of the value read. -/
theorem Configuring.writeStatus {x : Byte} (h : Configuring s br ps (.pos 2 .second) evs t) (hx : t.tmp = x) :
    Configuring s br ps (.pos 3 .first) (evs ++ [.write s.busL .stat ((x &&& 0xFC#8) ||| ps.zeroExtend 8)])
        (Machine.tick setSclProgram t) ∧ (Machine.tick setSclProgram t).tmp = x := by
  obtain ⟨-, hbus, -⟩ := h.history_of_trace
  have hval : rmwValue .prescaler (sampled t) = (x &&& 0xFC#8) ||| ps.zeroExtend 8 := rmwValue_prescaler h.psL hx
  obtain ⟨htick, h'⟩ := h.tick (prog := setSclProgram) (op := .rmw .operand .stat .prescaler) (u := .pos 3 .first)
    (new := [.write s.busL .stat ((x &&& 0xFC#8) ||| ps.zeroExtend 8)]) rfl (by simp) rfl rfl
    (by simp [MicroOp.run, rmwWrite, Source.bus, hbus, hval])
  rw [htick]
  exact ⟨h', by simp [MicroOp.run, rmwWrite, hx]⟩

/-- The response (R87). -/
theorem Configuring.answerSuccess (h : Configuring s br ps (.pos 3 .first) evs t) :
    Configuring s br ps .idle evs (Machine.tick setSclProgram t) ∧
      (Machine.tick setSclProgram t).Answered codeSuccess ∧ (Machine.tick setSclProgram t).tmp = t.tmp := by
  obtain ⟨htick, h'⟩ := h.tick (prog := setSclProgram) (op := .ret codeSuccess) (u := .idle) (new := [])
    rfl (by simp) rfl rfl (by simp [MicroOp.run])
  rw [htick]
  exact ⟨by simpa using h', ⟨rfl, rfl, rfl, rfl⟩, rfl⟩

end

/-- A candidate found: three events, then success. -/
theorem exec_setScl_found {bus : BitVec 8} {freq : BitVec 32} {br : BitVec 8} {ps : BitVec 2} {s : State}
    (hs : s.upc = .idle) (hd : s.Undisturbed) (hc : sclCompute s.par bus freq = .found br ps) :
    ∃ t x, exec (.setScl bus freq) s = .next t ∧ t.Answered 0x01#8 ∧ t.brL = br ∧ t.psL = ps ∧ t.tmp = x ∧
      t.trace = s.trace ++ [.write bus .br br, .read bus .stat x,
        .write bus .stat ((x &&& 0xFC#8) ||| ps.zeroExtend 8)] ∧
      (∀ y, (devAfter 2 s).get? (loc bus .stat) = some y → x = y) ∧ t.env = s.env.drop 3 := by
  obtain ⟨hbus, -⟩ := encode_setScl_fields bus freq
  have h1 := Configuring.start (s := accept (encode (.setScl bus freq)) s) rfl (hd.of_eq rfl)
    ((sclCompute_accept bus freq s).trans hc)
  obtain ⟨x, h3, hx, hstat⟩ := h1.writeBitrate.readStatus
  obtain ⟨h4, hx⟩ := h3.writeStatus hx
  obtain ⟨h5, hans, htmp⟩ := h4.answerSuccess
  obtain ⟨henv, -⟩ := h5.history_of_trace
  have hgo : Goes setSclProgram 5 (accept (encode (.setScl bus freq)) s) _ :=
    (Goes.refl _ _).tick.tick.tick.tick.tick
  have hexec := exec_of_goes (i := .setScl bus freq) hs hgo h5.upc (by decide)
  rw [accept_busL, hbus, devAfter_congr 2 (accept_env _ s) (accept_dev _ s) (accept_par _ s)] at hstat
  exact ⟨_, x, hexec, hans, h5.brL, h5.psL, htmp.trans hx, by simpa [hbus] using h5.trace, hstat, henv⟩

/-- Settles O18: the closed form of the search, and the three events of the choice it makes. -/
theorem setSclWritesBitrateAndPrescaler : Obligations.SetSclWritesBitrateAndPrescaler := by
  intro bus freq n s hs hd hb h0 hf hq hn c v
  have hc : sclCompute s.par bus freq = .found v (BitVec.ofNat 2 c) :=
    (sclCompute_search hb h0 hf hq).trans (sclSearch_closed_form hn)
  have hlow : (BitVec.ofNat 2 c).zeroExtend 8 = BitVec.ofNat 8 c := by
    have hc4 : c < 4 := by simp only [c]; split_ifs <;> omega
    have hall : ∀ i : Fin 4, (BitVec.ofNat 2 i.val).zeroExtend 8 = BitVec.ofNat 8 i.val := by decide
    exact hall ⟨c, hc4⟩
  rw [← hlow]
  exact exec_setScl_found hs hd hc

/-- Settles O16: above the ceiling the check fails; below it the answer is success or `NoPrescalerFits`. -/
theorem setSclFrequencyCeiling : Obligations.SetSclFrequencyCeiling := by
  intro bus freq s hs hd hb
  refine ⟨fun hf => ?_, fun hf => ?_⟩
  · have hc : sclCompute s.par bus freq = .fail 0x10#8 := sclCompute_above_ceiling hb hf
    exact ⟨hc, exec_setScl_fail hs hd hc⟩
  · rcases sclCompute_cases hb hf with ⟨br, ps, hc⟩ | hc
    · obtain ⟨t, -, ht, ⟨-, hvalid, hcode, -⟩, -⟩ := exec_setScl_found hs hd hc
      exact ⟨t, ht, hvalid, by rw [hcode]; decide⟩
    · obtain ⟨t, ht, ⟨-, hvalid, hcode, -⟩, -⟩ := exec_setScl_fail hs hd hc
      exact ⟨t, ht, hvalid, by rw [hcode]; decide⟩

end Sys2Proof.Machine
end

section
/-! PROOFS. Micro-operations (41_transaction_engine.md section 1): the two events of an update, its masks, the address
byte, and polls that are answered or run out. -/

namespace Sys2Proof.Machine

/-! ### Updates (R103) -/

/-- Settles O21: the first tick is `rmwRead`, whose value is what the environment's move left in the register; the
second is `rmwWrite`, which looks at `tmp` only. -/
theorem rmwIsTwoEvents : Obligations.RmwIsTwoEvents := by
  intro prog i src k u s ho hr
  have hbus : src.bus (envMove (sampled s)) = src.bus s := by rw [Source.bus_envMove]; cases src <;> rfl
  refine ⟨fun hu => ?_, fun hu => ?_⟩
  · have htick : tick prog s = rmwRead src k i (envMove (sampled s)) := tick_at hu ho hr
    rw [htick]
    refine ⟨(regRead (src.bus s) k (envMove (sampled s))).1, by simp [rmwRead, hbus], by simp [rmwRead, hbus], rfl, ?_⟩
    intro y hy
    exact regRead_value _ _ _ _ (by rw [envMove_sampled, sampled_dev, hy])
  · have htick : tick prog s = rmwWrite src k u i (envMove (sampled s)) := tick_at hu ho hr
    have hval : rmwValue u (envMove (sampled s)) = (s.tmp &&& ~~~ u.clr s.par) ||| u.set s := by
      rw [rmwValue_envMove]; cases u <;> rfl
    rw [htick]
    exact ⟨rfl, by simp [rmwWrite, hbus, hval]⟩

theorem bitMask_and_of_ne : ∀ a b : Fin 8, a ≠ b → bitMask a &&& bitMask b = 0#8 := by decide

/-- Settles O22: an update that clears a bit clears one bit, and R2 keeps it apart from `INTF_BIT`, which it sets. -/
theorem updateMasksAreDisjoint : Obligations.UpdateMasksAreDisjoint := by
  intro u s hl hu
  obtain ⟨hackc, hstart⟩ : s.par.bits.intf ≠ s.par.bits.ackc ∧ s.par.bits.intf ≠ s.par.bits.start := by
    simp only [Config.Params.legal, Config.ControlBits.distinct, Bool.and_eq_true, decide_eq_true_eq] at hl
    exact ⟨by tauto, by tauto⟩
  cases u with
  | address => exact bitMask_and_of_ne _ _ hstart
  | nack =>
    cases hn : s.par.nackLevel with
    | true => simp [Update.clr, hn]
    | false => simpa [Update.set, Update.clr, hn] using bitMask_and_of_ne _ _ hackc
  | prescaler => exact absurd rfl hu
  | start | clearDone | stop | enable => exact BitVec.and_zero

/-! ### The address byte (R119) -/

/-- Settles O27: the byte is `dev[6:0]` followed by the direction. -/
theorem addressByteLayout : Obligations.AddressByteLayout := by
  intro dev d
  have hbit (k : Nat) : (addressByte dev d).getLsbD k =
      if k < 1 then (BitVec.ofBool d).getLsbD k else (dev.extractLsb' 0 7).getLsbD (k - 1) := by
    rw [addressByte_eq_append]; exact BitVec.getLsbD_append
  refine ⟨?_, fun k hk => ?_, ?_, by decide, by decide, by decide⟩
  · simpa using hbit 0
  · simp [hbit, hk]
  · have htop : (dev ||| 0x80#8).extractLsb' 0 7 = dev.extractLsb' 0 7 := by
      rw [BitVec.extractLsb'_or]; exact BitVec.or_zero
    rw [addressByte_eq_append, addressByte_eq_append, htop]

/-! ### Polls (R104) -/

/-- A command stands where it begins, with no event made. -/
theorem Stands.start {s : State} {i : Nat} {script : List Move} (hu : s.upc = .pos i .first) (hd : s.Undisturbed)
    (henv : s.env = script) : Stands s i [] script s :=
  ⟨hu, by simp, henv, rfl, rfl, SameLatches.refl s, hd⟩

/-- Settles O24: the poll stands at its first iteration, and the misses before the hit leave iterations over. -/
theorem pollEndsOnAHit : Obligations.PollEndsOnAHit := by
  intro prog i e code its rest s hl hb ho hu hd hs henv t
  obtain ⟨-, hT, -⟩ := legal_bounds hl
  obtain ⟨t', hrun, h, hcnt, htmp, -, hvalid, -⟩ := (Stands.start hu hd henv).poll ho hb hT hs
  obtain rfl : t = t' := hrun
  exact ⟨h.upc, h.trace, h.env, hcnt, hvalid, htmp⟩

/-- Settles O25: all iterations but the last leave one over, and the last one ends the command. -/
theorem pollTimesOutAtTheCeiling : Obligations.PollTimesOutAtTheCeiling := by
  intro prog i e code its rest s hl hb ho hu hd hs henv t
  obtain ⟨hT1, hT, -⟩ := legal_bounds hl
  obtain ⟨t', hrun, hans, htr, hrest, -⟩ := (Stands.start hu hd henv).pollOut ho hb hT hT1 hs
  obtain rfl : t = t' := hrun
  exact ⟨hans, htr, hrest⟩

end Sys2Proof.Machine
end

section
/-! PROOFS. `SENDBYTE` and `RECEIVEBYTE` (41_transaction_engine.md) against an environment that answers as a script says:
the events they make, and the code of the poll that runs out. -/

namespace Sys2Proof.Machine

/-! ### The bus range (R105) -/

theorem tick_chk {prog : List MicroOp} {i : Nat} {code : Byte} {s : State} (ho : prog[i]? = some (.chk code))
    (hu : s.upc = .pos i .first) (hr : s.resetNow = false) :
    tick prog s = if busInRange s.par s.busL then advance i (sampled s) else respond code (sampled s) :=
  tick_at hu ho hr

/-- A command that begins with the check answers 0x00 at once where its bus is out of range. -/
theorem exec_bus_outOfRange {i : Instr} {s : State} (ho : (programFor i)[0]? = some (.chk codeOutOfRange))
    (hs : s.upc = .idle) (hd : s.Undisturbed) (hb : s.par.nBus ≤ (busField (encode i)).toNat) :
    ∃ t, exec i s = .next t ∧ t.Answered 0x00#8 ∧ NoEvent s t ∧ SamePlatform s t := by
  have ha : (accept (encode i) s).Undisturbed := hd.of_eq rfl
  have hrange : busInRange (accept (encode i) s).par (accept (encode i) s).busL = false :=
    decide_eq_false (Nat.not_lt.2 hb)
  have htick : tick (programFor i) (accept (encode i) s) = respond codeOutOfRange (sampled (accept (encode i) s)) := by
    rw [tick_chk ho rfl ha.resetNow, hrange]; rfl
  have hexec := exec_of_goes hs (Goes.one htick) rfl (by decide)
  exact ⟨_, hexec, ⟨rfl, rfl, rfl, rfl⟩, ⟨rfl, rfl, rfl⟩, rfl, rfl⟩

/-- Settles O29: both micro-programs begin with the check. -/
theorem transactionBusOutOfRange : Obligations.TransactionBusOutOfRange := by
  refine ⟨rfl, rfl, fun bus dev reg data s hs hd hb => ⟨?_, ?_⟩, fun prog i code s ho hu hb hr => ?_⟩
  · obtain ⟨hbus, -⟩ := encode_sendByte_fields bus dev reg data
    exact exec_bus_outOfRange (i := .sendByte bus dev reg data) rfl hs hd (by rw [hbus]; exact hb)
  · obtain ⟨hbus, -⟩ := encode_receiveByte_fields bus dev reg
    exact exec_bus_outOfRange (i := .receiveByte bus dev reg) rfl hs hd (by rw [hbus]; exact hb)
  · have hrange : busInRange s.par s.busL = true := decide_eq_true hb
    rw [tick_chk ho hu hr, hrange]; rfl

/-! ### A command just accepted -/

/-- A command just accepted, with these parameters and operands, that no reset disturbs. -/
structure Accepted (p : Config.Params) (bus dev reg : BitVec 8) (a : State) : Prop where
  upc : a.upc = .pos 0 .first
  und : a.Undisturbed
  legal : p.legal = true
  par : a.par = p
  busL : a.busL = bus
  devL : a.devL = dev
  regL : a.regL = reg

theorem accepted_sendByte {s : State} (hl : s.par.legal = true) (hd : s.Undisturbed) (bus dev reg data : BitVec 8) :
    Accepted s.par bus dev reg (accept (encode (.sendByte bus dev reg data)) s) ∧
      (accept (encode (.sendByte bus dev reg data)) s).datL = data := by
  obtain ⟨hbus, hdev, hreg, hdat⟩ := encode_sendByte_fields bus dev reg data
  exact ⟨⟨rfl, hd.of_eq rfl, hl, rfl, hbus, hdev, hreg⟩, hdat⟩

theorem accepted_receiveByte {s : State} (hl : s.par.legal = true) (hd : s.Undisturbed) (bus dev reg : BitVec 8) :
    Accepted s.par bus dev reg (accept (encode (.receiveByte bus dev reg)) s) := by
  obtain ⟨hbus, hdev, hreg⟩ := encode_receiveByte_fields bus dev reg
  exact ⟨rfl, hd.of_eq rfl, hl, rfl, hbus, hdev, hreg⟩

/-- `reg_l` is an operand latch. -/
theorem WrVal.value_reg {a t : State} (h : SameLatches a t) : WrVal.reg.value t = a.regL := by
  obtain ⟨-, -, -, hreg, -⟩ := h; exact hreg

/-- `dat_l` is an operand latch. -/
theorem WrVal.value_dat {a t : State} (h : SameLatches a t) : WrVal.dat.value t = a.datL := by
  obtain ⟨-, -, -, -, hdat, -⟩ := h; exact hdat

/-- The fuel of a command is enough for any state it comes to idle in. -/
theorem exec_of_goes_idle {i : Instr} {n : Nat} {s t : State} (hl : s.par.legal = true) (hs : s.upc = .idle)
    (h : Goes (programFor i) n (accept (encode i) s) t) (ht : t.upc = .idle) : exec i s = .next t := by
  obtain ⟨k, -, rfl⟩ := h
  rw [exec_idle i hs, ← run_run_eq_of_idle (k := k) (exec_returns hl), run_idle _ _ _ ht]

/-! ### Along a micro-program -/

/-- With an environment that answers `evs`, the command accepted in `a` makes them and then stands at `i`. -/
def Arrives (prog : List MicroOp) (a : State) (i : Nat) (evs : List Event) : Prop :=
  ∀ rest, a.env = answering evs ++ rest → ∃ n t, Goes prog n a t ∧ Stands a i evs rest t

/-- With an environment that answers `evs`, the command accepted in `a` makes them and ends with a response that meets
`R`. -/
def Ends (prog : List MicroOp) (a : State) (R : State → Prop) (evs : List Event) : Prop :=
  ∀ rest, a.env = answering evs ++ rest →
    ∃ n t, Goes prog n a t ∧ R t ∧ t.trace = a.trace ++ evs ∧ t.env = rest ∧ SamePlatform a t

theorem Ends.exec {i : Instr} {s : State} {R : State → Prop} {evs : List Event} {rest : List Move}
    (h : Ends (programFor i) (accept (encode i) s) R evs) (hR : ∀ t, R t → t.upc = .idle) (hl : s.par.legal = true)
    (hs : s.upc = .idle) (henv : s.env = answering evs ++ rest) :
    ∃ t, exec i s = .next t ∧ R t ∧ t.trace = s.trace ++ evs ∧ t.env = rest ∧ SamePlatform s t := by
  obtain ⟨n, t, hgo, hr, hend⟩ := h rest henv
  exact ⟨t, exec_of_goes_idle hl hs hgo (hR t hr), hr, hend⟩

section
variable {prog : List MicroOp} {p : Config.Params} {bus dev reg : BitVec 8} {a : State} {i j : Nat}
  {evs new : List Event} {e : Expect} {code : Byte} {its : List (Byte × Byte)}

theorem Arrives.onward (h : Arrives prog a i evs)
    (hstep : ∀ t rest, Stands a i evs (answering new ++ rest) t →
      ∃ m t', Goes prog m t t' ∧ Stands a j (evs ++ new) rest t') : Arrives prog a j (evs ++ new) := by
  intro rest henv
  rw [answering_append, List.append_assoc] at henv
  obtain ⟨n, t, hgo, hat⟩ := h _ henv
  obtain ⟨m, t', hgo', hat'⟩ := hstep t rest hat
  exact ⟨n + m, t', hgo.trans hgo', hat'⟩

theorem Accepted.chk (ha : Accepted p bus dev reg a) (hb : bus.toNat < p.nBus) (ho : prog[0]? = some (.chk code)) :
    Arrives prog a 1 [] := by
  obtain ⟨hu, hd, -, rfl, rfl, -, -⟩ := ha
  exact fun rest henv => ⟨1, (Stands.start hu hd henv).chk ho hb⟩

theorem Arrives.startUpdate (h : Arrives prog a i evs) (ha : Accepted p bus dev reg a) (hb : bus.toNat < p.nBus)
    (ho : prog[i]? = some (.rmw .operand .ctrl .start)) (c : Byte) :
    Arrives prog a (i + 1) (evs ++ startEvents p bus c) := by
  obtain ⟨-, -, -, rfl, rfl, -, -⟩ := ha
  exact h.onward fun _ _ hat => ⟨2, hat.startUpdate ho hb⟩

theorem Arrives.addressWrites (h : Arrives prog a i evs) (ha : Accepted p bus dev reg a) (hb : bus.toNat < p.nBus)
    (read : Bool) (h1 : prog[i]? = some (.wr .operand .data (.address read)))
    (h2 : prog[i + 1]? = some (.rmw .operand .ctrl .address)) (c : Byte) :
    Arrives prog a (i + 2) (evs ++ addressEvents p bus dev (BitVec.ofBool read) c) := by
  obtain ⟨-, -, -, rfl, rfl, hdev, -⟩ := ha
  exact h.onward fun _ _ hat => ⟨3, hat.addressWrites h1 h2 hdev hb⟩

/-- What a `WR` writes is a matter of the operand latches, so it is the same wherever the command stands. -/
theorem Arrives.byteWrites (h : Arrives prog a i evs) (ha : Accepted p bus dev reg a) (hb : bus.toNat < p.nBus)
    {w : WrVal} {v : Byte} (hw : ∀ t, SameLatches a t → w.value t = v) (h1 : prog[i]? = some (.wr .operand .data w))
    (h2 : prog[i + 1]? = some (.rmw .operand .ctrl .clearDone)) (c : Byte) :
    Arrives prog a (i + 2) (evs ++ byteEvents p bus v c) := by
  obtain ⟨-, -, -, rfl, rfl, -, -⟩ := ha
  exact h.onward fun t _ hat => ⟨3, hat.byteWrites h1 h2 (hw t hat.latches) hb⟩

theorem Arrives.nackUpdate (h : Arrives prog a i evs) (ha : Accepted p bus dev reg a) (hb : bus.toNat < p.nBus)
    (ho : prog[i]? = some (.rmw .operand .ctrl .nack)) (c : Byte) :
    Arrives prog a (i + 1) (evs ++ nackEvents p bus c) := by
  obtain ⟨-, -, -, rfl, rfl, -, -⟩ := ha
  exact h.onward fun _ _ hat => ⟨2, hat.nackUpdate ho hb⟩

theorem Arrives.stopUpdate (h : Arrives prog a i evs) (ha : Accepted p bus dev reg a) (hb : bus.toNat < p.nBus)
    (ho : prog[i]? = some (.rmw .operand .ctrl .stop)) (c : Byte) :
    Arrives prog a (i + 1) (evs ++ stopEvents p bus c) := by
  obtain ⟨-, -, -, rfl, rfl, -, -⟩ := ha
  exact h.onward fun _ _ hat => ⟨2, hat.stopUpdate ho hb⟩

theorem Arrives.rd (h : Arrives prog a i evs) (ha : Accepted p bus dev reg a) (hb : bus.toNat < p.nBus) {k : Kind}
    (ho : prog[i]? = some (.rd k)) (v : Byte) : Arrives prog a (i + 1) (evs ++ [.read bus k v]) := by
  obtain ⟨-, -, -, rfl, rfl, -, -⟩ := ha
  refine h.onward fun _ _ hat => ?_
  obtain ⟨t', hgo, hat', -⟩ := hat.rd ho hb
  exact ⟨1, t', hgo, hat'⟩

theorem Arrives.poll (h : Arrives prog a i evs) (ha : Accepted p bus dev reg a) (hb : bus.toNat < p.nBus)
    (ho : prog[i]? = some (.poll e code)) (hs : PollSucceeds p e its) :
    Arrives prog a (i + 1) (evs ++ pollEvents bus its) := by
  obtain ⟨-, -, hl, rfl, rfl, -, -⟩ := ha
  obtain ⟨-, hT, -⟩ := legal_bounds hl
  exact h.onward fun _ _ hat => ⟨_, hat.pollGoes ho hb hT hs⟩

theorem Arrives.pollOut (h : Arrives prog a i evs) (ha : Accepted p bus dev reg a) (hb : bus.toNat < p.nBus)
    (ho : prog[i]? = some (.poll e code)) (hs : PollTimesOut p e its) :
    Ends prog a (·.Answered code) (evs ++ pollEvents bus its) := by
  obtain ⟨-, -, hl, rfl, rfl, -, -⟩ := ha
  obtain ⟨hT1, hT, -⟩ := legal_bounds hl
  intro rest henv
  rw [answering_append, List.append_assoc] at henv
  obtain ⟨n, t, hgo, hat⟩ := h _ henv
  obtain ⟨t', hgo', hend⟩ := hat.pollEnds ho hb hT hT1 hs
  exact ⟨_, t', hgo.trans hgo', hend⟩

/-- A response, made by the micro-operation the command stands at. -/
theorem Arrives.respond (h : Arrives prog a i evs) {op : MicroOp} {R : State → Prop} (ho : prog[i]? = some op)
    (hR : ∀ t, R (op.run i .first t)) (hsilent : ∀ t, Silent t (op.run i .first t)) : Ends prog a R evs := by
  intro rest henv
  obtain ⟨n, t, hgo, hat⟩ := h rest henv
  obtain ⟨htr, -, henv'⟩ := hsilent (sampled t)
  exact ⟨_, _, hgo.trans (hat.tick ho), hR _, htr.trans hat.trace, henv'.trans hat.env,
    by rw [MicroOp.run_par]; exact hat.par, by rw [MicroOp.run_host]; exact hat.host⟩

end

/-! ### The common opening of both commands -/

/-- S0 to S8 (R114), which are V0 to V8 (R115). -/
def opening : List MicroOp := [.chk codeOutOfRange] ++ startPhase ++ addressPhase false ++ registerPhase

theorem sendByteProgram_eq : sendByteProgram = opening ++ (payloadPhase ++ stopPhase ++ [.ret codeSuccess]) := rfl

theorem receiveByteProgram_eq : receiveByteProgram =
    opening ++ (startPhase ++ addressPhase true ++ receivePhase ++ stopPhase ++ [.retData codeSuccess]) := rfl

section
variable {p : Config.Params} {bus dev reg data c1 c2 c3 c4 c5 c6 : BitVec 8} {a : State} {ops : List MicroOp}
  {its1 its2 its3 its4 its5 its6 : List (Byte × Byte)}

/-- Up to the update of the Start phase. -/
theorem Accepted.startUpdate (ha : Accepted p bus dev reg a) (hb : bus.toNat < p.nBus) :
    Arrives (opening ++ ops) a 2 (startEvents p bus c1) :=
  (ha.chk hb rfl).startUpdate ha hb rfl c1

/-- Up to the writes of the Address phase. -/
theorem Accepted.addressWrites (ha : Accepted p bus dev reg a) (hb : bus.toNat < p.nBus)
    (h1 : PollSucceeds p .start its1) :
    Arrives (opening ++ ops) a 5 (startEvents p bus c1 ++ pollEvents bus its1 ++ addressEvents p bus dev 0#1 c2) :=
  ((ha.startUpdate hb).poll ha hb rfl h1).addressWrites ha hb false rfl rfl c2

/-- The events of the opening up to the writes of its Register-select phase. -/
def openingEvents (p : Config.Params) (bus dev reg c1 c2 c3 : BitVec 8) (its1 its2 : List (Byte × Byte)) : List Event :=
  startEvents p bus c1 ++ pollEvents bus its1 ++ addressEvents p bus dev 0#1 c2 ++ pollEvents bus its2 ++
    byteEvents p bus reg c3

theorem Accepted.registerWrites (ha : Accepted p bus dev reg a) (hb : bus.toNat < p.nBus)
    (h1 : PollSucceeds p .start its1) (h2 : PollSucceeds p .slaWAck its2) :
    Arrives (opening ++ ops) a 8 (openingEvents p bus dev reg c1 c2 c3 its1 its2) :=
  ((ha.addressWrites hb h1).poll ha hb rfl h2).byteWrites ha hb (fun _ h => (WrVal.value_reg h).trans ha.regL) rfl rfl c3

/-! ### `SENDBYTE` (R114) -/

/-- Up to the writes of the payload phase (R110). -/
theorem Accepted.payloadWrites (ha : Accepted p bus dev reg a) (hdat : a.datL = data) (hb : bus.toNat < p.nBus)
    (h1 : PollSucceeds p .start its1) (h2 : PollSucceeds p .slaWAck its2) (h3 : PollSucceeds p .dataTxAck its3) :
    Arrives sendByteProgram a 11
      (openingEvents p bus dev reg c1 c2 c3 its1 its2 ++ pollEvents bus its3 ++ byteEvents p bus data c4) := by
  rw [sendByteProgram_eq]
  exact ((ha.registerWrites hb h1 h2).poll ha hb rfl h3).byteWrites ha hb
    (fun _ h => (WrVal.value_dat h).trans hdat) rfl rfl c4

/-! ### `RECEIVEBYTE` (R115) -/

/-- Up to the update of the second Start phase. -/
theorem Accepted.restartUpdate (ha : Accepted p bus dev reg a) (hb : bus.toNat < p.nBus)
    (h1 : PollSucceeds p .start its1) (h2 : PollSucceeds p .slaWAck its2) (h3 : PollSucceeds p .dataTxAck its3) :
    Arrives receiveByteProgram a 10
      (openingEvents p bus dev reg c1 c2 c3 its1 its2 ++ pollEvents bus its3 ++ startEvents p bus c4) := by
  rw [receiveByteProgram_eq]
  exact ((ha.registerWrites hb h1 h2).poll ha hb rfl h3).startUpdate ha hb rfl c4

/-- Up to the writes of the second Address phase. -/
theorem Accepted.readAddressWrites (ha : Accepted p bus dev reg a) (hb : bus.toNat < p.nBus)
    (h1 : PollSucceeds p .start its1) (h2 : PollSucceeds p .slaWAck its2) (h3 : PollSucceeds p .dataTxAck its3)
    (h4 : PollSucceeds p .start its4) :
    Arrives receiveByteProgram a 13
      (openingEvents p bus dev reg c1 c2 c3 its1 its2 ++ pollEvents bus its3 ++ startEvents p bus c4 ++
        pollEvents bus its4 ++ addressEvents p bus dev 1#1 c5) :=
  ((ha.restartUpdate hb h1 h2 h3).poll ha hb rfl h4).addressWrites ha hb true rfl rfl c5

/-- Up to the update of the payload phase (R111). -/
theorem Accepted.nackUpdate (ha : Accepted p bus dev reg a) (hb : bus.toNat < p.nBus)
    (h1 : PollSucceeds p .start its1) (h2 : PollSucceeds p .slaWAck its2) (h3 : PollSucceeds p .dataTxAck its3)
    (h4 : PollSucceeds p .start its4) (h5 : PollSucceeds p .slaRAck its5) :
    Arrives receiveByteProgram a 15
      (openingEvents p bus dev reg c1 c2 c3 its1 its2 ++ pollEvents bus its3 ++ startEvents p bus c4 ++
        pollEvents bus its4 ++ addressEvents p bus dev 1#1 c5 ++ pollEvents bus its5 ++ nackEvents p bus c6) :=
  ((ha.readAddressWrites hb h1 h2 h3 h4).poll ha hb rfl h5).nackUpdate ha hb rfl c6

end

/-- Settles O30: after the last payload event the poll succeeds, then Stop and the response. -/
theorem sendByteSucceeds : Obligations.SendByteSucceeds := by
  intro bus dev reg data c1 c2 c3 c4 c5 its1 its2 its3 its4 rest s hl hs hd hb h1 h2 h3 h4 evs henv
  obtain ⟨ha, hdat⟩ := accepted_sendByte hl hd bus dev reg data
  have hstop : Arrives sendByteProgram _ 13 evs :=
    ((ha.payloadWrites hdat hb h1 h2 h3).poll ha hb rfl h4).stopUpdate ha hb rfl c5
  have hends : Ends sendByteProgram _ (·.Answered 0x01#8) evs :=
    hstop.respond (op := .ret codeSuccess) rfl (fun _ => ⟨rfl, rfl, rfl, rfl⟩) fun _ => ⟨rfl, rfl, rfl⟩
  exact hends.exec (i := .sendByte bus dev reg data) (fun _ h => h.1) hl hs henv

/-- Settles O31: each poll is reached where the ones before it succeed. -/
theorem sendByteTimesOut : Obligations.SendByteTimesOut := by
  intro bus dev reg data c1 c2 c3 c4 its1 its2 its3 its4 rest s hl hs hd hb
  obtain ⟨ha, hdat⟩ := accepted_sendByte hl hd bus dev reg data
  have ends {evs : List Event} {code : Byte} (h : Ends sendByteProgram _ (·.Answered code) evs) :=
    h.exec (i := .sendByte bus dev reg data) (rest := rest) (fun _ h => h.1) hl hs
  refine ⟨fun h1 => ends ?_, fun h1 h2 => ends ?_, fun h1 h2 h3 => ends ?_, fun h1 h2 h3 h4 => ends ?_⟩
  · exact (ha.startUpdate hb).pollOut ha hb rfl h1
  · exact (ha.addressWrites hb h1).pollOut ha hb rfl h2
  · exact (ha.registerWrites hb h1 h2).pollOut ha hb rfl h3
  · exact (ha.payloadWrites hdat hb h1 h2 h3).pollOut ha hb rfl h4

/-- Settles O33: each poll is reached where the ones before it succeed. -/
theorem receiveByteTimesOut : Obligations.ReceiveByteTimesOut := by
  intro bus dev reg c1 c2 c3 c4 c5 c6 its1 its2 its3 its4 its5 its6 rest s hl hs hd hb
  have ha := accepted_receiveByte hl hd bus dev reg
  have ends {evs : List Event} {code : Byte} (h : Ends receiveByteProgram _ (·.Answered code) evs) :=
    h.exec (i := .receiveByte bus dev reg) (rest := rest) (fun _ h => h.1) hl hs
  refine ⟨fun h1 => ends ?_, fun h1 h2 => ends ?_, fun h1 h2 h3 => ends ?_, fun h1 h2 h3 h4 => ends ?_,
    fun h1 h2 h3 h4 h5 => ends ?_, fun h1 h2 h3 h4 h5 h6 => ends ?_⟩
  · exact (ha.startUpdate hb).pollOut ha hb rfl h1
  · exact (ha.addressWrites hb h1).pollOut ha hb rfl h2
  · exact (ha.registerWrites hb h1 h2).pollOut ha hb rfl h3
  · exact (ha.restartUpdate hb h1 h2 h3).pollOut ha hb rfl h4
  · exact (ha.readAddressWrites hb h1 h2 h3 h4).pollOut ha hb rfl h5
  · exact (ha.nackUpdate hb h1 h2 h3 h4 h5).pollOut ha hb rfl h6

end Sys2Proof.Machine
end

section
/-! PROOFS. `SENDBYTE` and `RECEIVEBYTE` (41_transaction_engine.md) whatever the environment does: a poll succeeds or runs
out, so the command makes the events of its micro-program or ends at a poll with that poll's code. -/

namespace Sys2Proof.Machine

/-! ### One tick -/

/-- The command accepted in `s` has come to `t`, where it is at `u` with the events `evs` made, in whatever environment
there is. -/
structure Reached (prog : List MicroOp) (s : State) (u : Upc) (evs : List Event) (t : State) : Prop where
  way : ∃ n, Goes prog n s t
  upc : t.upc = u
  trace : t.trace = s.trace ++ evs
  par : t.par = s.par
  latches : SameLatches s t
  und : t.Undisturbed

/-- An undisturbed command stands at its micro-operation `i` with the events `evs` made. -/
def Reaches (prog : List MicroOp) (s : State) (i : Nat) (evs : List Event) : Prop :=
  ∃ t, Reached prog s (.pos i .first) evs t

/-- An undisturbed command ends with this code and the events `evs` made. -/
def EndsWith (prog : List MicroOp) (s : State) (code : Byte) (evs : List Event) : Prop :=
  ∃ t, Reached prog s .idle evs t ∧ t.rspCode = code

section
variable {prog : List MicroOp} {s t : State} {i : Nat} {evs : List Event} {e : Expect} {code : Byte}

theorem Reached.start {u : Upc} (hu : s.upc = u) (hd : s.Undisturbed) : Reached prog s u [] s :=
  ⟨⟨0, Goes.refl prog s⟩, hu, by simp, rfl, SameLatches.refl s, hd⟩

theorem Reached.busL {u : Upc} (h : Reached prog s u evs t) : t.busL = s.busL := by
  obtain ⟨-, hbus, -⟩ := h.latches; exact hbus

/-- The micro-operation the command is at, with the events `new`. -/
theorem Reached.tick {op : MicroOp} {sub : Sub} {u : Upc} {t' : State} {new : List Event}
    (h : Reached prog s (.pos i sub) evs t) (ho : prog[i]? = some op) (ht : op.run i sub (sampled t) = t')
    (hu : t'.upc = u) (hnew : t'.trace = t.trace ++ new) : Reached prog s u (evs ++ new) t' := by
  have htick : Machine.tick prog t = t' := (tick_at h.upc ho h.und.resetNow).trans ht
  obtain ⟨n, hgo⟩ := h.way
  obtain ⟨hlatches, -⟩ := op.run_effect i sub (sampled t)
  subst ht
  refine ⟨⟨n + 1, htick ▸ hgo.tick⟩, hu, by rw [hnew, h.trace, List.append_assoc], by simp [h.par], ?_, ?_⟩
  · exact h.latches.trans hlatches
  · exact htick ▸ h.und.tick prog

/-- The state a command has come to idle in is the one `exec` answers. -/
theorem Reached.eq_of_exec {i : Instr} {s t t' : State} (hl : s.par.legal = true) (hs : s.upc = .idle)
    (h : exec i s = .next t) (h' : Reached (programFor i) (accept (encode i) s) .idle evs t') : t = t' := by
  obtain ⟨n, hgo⟩ := h'.way
  exact Host.Outcome.next.inj (h.symm.trans (exec_of_goes_idle hl hs hgo h'.upc))

/-! ### One micro-operation -/

/-- `CHK` (R105): on, or out with its code. -/
theorem Reached.chk (h : Reached prog s (.pos i .first) evs t) (ho : prog[i]? = some (.chk code)) :
    Reaches prog s (i + 1) evs ∨ EndsWith prog s code evs := by
  cases hrange : busInRange t.par t.busL with
  | true =>
    have hrun : MicroOp.run (.chk code) i .first (sampled t) = advance i (sampled t) := if_pos hrange
    exact .inl ⟨_, by simpa using h.tick (new := []) ho hrun rfl (by simp)⟩
  | false =>
    have hrun : MicroOp.run (.chk code) i .first (sampled t) = respond code (sampled t) :=
      if_neg (by simp [hrange])
    exact .inr ⟨_, by simpa using h.tick (new := []) ho hrun rfl (by simp), rfl⟩

/-- `WR` on the command's bus (R101), of a value that the operand latches fix. -/
theorem Reaches.wr (h : Reaches prog s i evs) {k : Kind} {w : WrVal} {v : Byte}
    (hw : ∀ x, SameLatches s x → w.value x = v) (ho : prog[i]? = some (.wr .operand k w)) :
    Reaches prog s (i + 1) (evs ++ [.write s.busL k v]) := by
  obtain ⟨t, h⟩ := h
  have hval : w.value (sampled t) = v := hw _ h.latches
  exact ⟨_, h.tick ho rfl rfl (by simp [MicroOp.run, Source.bus, h.busL, hval])⟩

/-- `RMW` on the command's bus (R103): the value written is computed from the value read. -/
theorem Reached.rmw (h : Reached prog s (.pos i .first) evs t) {k : Kind} {u : Update} {value : Byte → Byte}
    (hv : ∀ (x : State) (c : Byte), x.par = s.par → x.tmp = c → rmwValue u x = value c)
    (ho : prog[i]? = some (.rmw .operand k u)) :
    ∃ c t', Reached prog s (.pos (i + 1) .first) (evs ++ [.read s.busL k c, .write s.busL k (value c)]) t' ∧
      t'.rspData = t.rspData := by
  have h1 := h.tick (t' := rmwRead .operand k i (envMove (sampled t))) (u := .pos i .second)
    (new := [.read s.busL k (regRead s.busL k (envMove (sampled t))).1]) ho rfl rfl
    (by simp [rmwRead, Source.bus, h.busL])
  have hdata : (rmwRead .operand k i (envMove (sampled t))).rspData = t.rspData := by simp [rmwRead]
  have htmp : (rmwRead .operand k i (envMove (sampled t))).tmp = (regRead s.busL k (envMove (sampled t))).1 := by
    simp [rmwRead, Source.bus, h.busL]
  generalize rmwRead .operand k i (envMove (sampled t)) = m at h1 hdata htmp
  have hval : rmwValue u (sampled m) = value (regRead s.busL k (envMove (sampled t))).1 := hv _ _ h1.par htmp
  have h2 := h1.tick (t' := rmwWrite .operand k u i (envMove (sampled m))) (u := .pos (i + 1) .first)
    (new := [.write s.busL k (value (regRead s.busL k (envMove (sampled t))).1)]) ho rfl rfl
    (by simp [rmwWrite, Source.bus, h1.busL, hval])
  exact ⟨_, _, by simpa using h2, by simp [rmwWrite, hdata]⟩

/-- `RD` on the command's bus (R102): the byte is held. -/
theorem Reached.rd (h : Reached prog s (.pos i .first) evs t) {k : Kind} (ho : prog[i]? = some (.rd k)) :
    ∃ t', Reached prog s (.pos (i + 1) .first) (evs ++ [.read s.busL k t'.rspData]) t' := by
  have h1 := h.tick (t' := rdRead k i (envMove (sampled t))) (u := .pos (i + 1) .first)
    (new := [.read s.busL k (rdRead k i (envMove (sampled t))).rspData]) ho rfl rfl (by simp [rdRead, h.busL])
  exact ⟨_, h1⟩

/-- `RET` and its like (R106): a response without an event. -/
theorem Reached.respond (h : Reached prog s (.pos i .first) evs t) {op : MicroOp} {t' : State}
    (ho : prog[i]? = some op) (ht : op.run i .first (sampled t) = t') (hu : t'.upc = .idle)
    (htr : t'.trace = t.trace) : Reached prog s .idle evs t' := by
  simpa using h.tick (new := []) ho ht hu (by simp [htr])

/-! ### Polls (R104) -/

/-- The control read of an iteration, with `n` iterations made before it. -/
theorem Reached.pollControl {sub : Sub} {n : Nat} (h : Reached prog s (.pos i sub) evs t)
    (hn : sub = .first ∧ n = 0 ∨ sub = .again ∧ t.cnt.toNat = n) (ho : prog[i]? = some (.poll e code)) :
    ∃ c t', Reached prog s (.pos i .second) (evs ++ [.read s.busL .ctrl c]) t' ∧ t'.doneL = doneFlag s.par c ∧
      t'.cnt.toNat = n := by
  obtain ⟨x, hrun, hxcnt, hxbus, hxpar, hxtr⟩ : ∃ x, (MicroOp.poll e code).run i sub (sampled t) =
      Machine.pollControl i (envMove x) ∧ x.cnt.toNat = n ∧ x.busL = s.busL ∧ x.par = s.par ∧ x.trace = t.trace := by
    obtain ⟨rfl, rfl⟩ | ⟨rfl, hcnt⟩ := hn
    · exact ⟨{ sampled t with cnt := 0#32 }, rfl, rfl, h.busL, h.par, rfl⟩
    · exact ⟨sampled t, rfl, hcnt, h.busL, h.par, rfl⟩
  refine ⟨_, _, h.tick (new := [.read s.busL .ctrl (regRead s.busL .ctrl (envMove x)).1]) ho hrun rfl ?_, ?_, ?_⟩
  · simp [Machine.pollControl, hxbus, hxtr]
  · simp [Machine.pollControl, hxbus, hxpar]
  · simp [Machine.pollControl, hxcnt]

/-- The status read of an iteration, `n` made before it, and where the iteration leads: on, out, or round again. -/
theorem Reached.pollStatus {c : Byte} {n : Nat} (h : Reached prog s (.pos i .second) evs t)
    (hd : t.doneL = doneFlag s.par c) (hcnt : t.cnt.toNat = n) (hn : n + 1 < 4294967296)
    (ho : prog[i]? = some (.poll e code)) :
    ∃ st t',
      (Hit s.par e (c, st) ∧ Reached prog s (.pos (i + 1) .first) (evs ++ [.read s.busL .stat st]) t') ∨
      (¬ Hit s.par e (c, st) ∧ n + 1 = s.par.tPoll ∧ t'.rspCode = code ∧
        Reached prog s .idle (evs ++ [.read s.busL .stat st]) t') ∨
      (¬ Hit s.par e (c, st) ∧ n + 1 ≠ s.par.tPoll ∧ t'.cnt.toNat = n + 1 ∧
        Reached prog s (.pos i .again) (evs ++ [.read s.busL .stat st]) t') := by
  have hrun := pollStatus_eq e code i (envMove (sampled t))
  have htr : (statusRead (envMove (sampled t))).trace =
      t.trace ++ [.read s.busL .stat (regRead s.busL .stat (envMove (sampled t))).1] := by
    simp [statusRead, h.busL]
  have hmatch : pollMatches (envMove (sampled t)).par e (envMove (sampled t)).doneL
      (regRead (envMove (sampled t)).busL .stat (envMove (sampled t))).1 = true ↔
        Hit s.par e (c, (regRead s.busL .stat (envMove (sampled t))).1) := by
    rw [← pollMatches_iff]; simp [h.par, h.busL, hd]
  have hnext : (statusRead (envMove (sampled t))).cnt.toNat = n + 1 := by
    simp only [statusRead, envMove_cnt, sampled_cnt, BitVec.toNat_add, hcnt]
    exact Nat.mod_eq_of_lt hn
  have hlast : ((envMove (sampled t)).cnt + 1#32).toNat = (envMove (sampled t)).par.tPoll ↔ n + 1 = s.par.tPoll := by
    rw [← hnext]; simp [statusRead, h.par]
  generalize statusRead (envMove (sampled t)) = y at hrun htr hnext
  by_cases hhit : Hit s.par e (c, (regRead s.busL .stat (envMove (sampled t))).1)
  · rw [if_pos (hmatch.2 hhit)] at hrun
    exact ⟨_, _, .inl ⟨hhit, h.tick ho hrun rfl htr⟩⟩
  · rw [if_neg (mt hmatch.1 hhit)] at hrun
    by_cases hT : n + 1 = s.par.tPoll
    · rw [if_pos (hlast.2 hT)] at hrun
      exact ⟨_, _, .inr (.inl ⟨hhit, hT, rfl, h.tick ho hrun rfl htr⟩)⟩
    · rw [if_neg (mt hlast.1 hT)] at hrun
      exact ⟨_, { y with upc := .pos i .again }, .inr (.inr ⟨hhit, hT, hnext, h.tick ho hrun rfl htr⟩)⟩

theorem pollEvents_append (bus : BitVec 8) (its its' : List (Byte × Byte)) :
    pollEvents bus (its ++ its') = pollEvents bus its ++ pollEvents bus its' := List.flatMap_append

/-- A poll, after the misses `ms`: it succeeds, or it ends the command with its code. -/
theorem Reached.polling (hl : s.par.legal = true) (ho : prog[i]? = some (.poll e code)) (ms : List (Byte × Byte))
    (hms : ∀ m ∈ ms, ¬ Hit s.par e m) (hlt : ms.length < s.par.tPoll) {sub : Sub} {t : State}
    (hsub : sub = .first ∧ ms.length = 0 ∨ sub = .again ∧ t.cnt.toNat = ms.length)
    (h : Reached prog s (.pos i sub) (evs ++ pollEvents s.busL ms) t) :
    (∃ its, PollSucceeds s.par e its ∧ Reaches prog s (i + 1) (evs ++ pollEvents s.busL its)) ∨
      ∃ its, EndsWith prog s code (evs ++ pollEvents s.busL its) := by
  obtain ⟨-, hT, -⟩ := legal_bounds hl
  obtain ⟨c, u, hu, hdone, hcnt⟩ := h.pollControl hsub ho
  obtain ⟨st, v, hv⟩ := hu.pollStatus hdone hcnt (by omega) ho
  have hevs : evs ++ pollEvents s.busL ms ++ [.read s.busL .ctrl c] ++ [.read s.busL .stat st] =
      evs ++ pollEvents s.busL (ms ++ [(c, st)]) := by
    rw [pollEvents_append]; simp [pollEvents]
  rw [hevs] at hv
  have hlen : (ms ++ [(c, st)]).length = ms.length + 1 := List.length_append
  obtain ⟨hhit, hv⟩ | ⟨-, -, hcode, hv⟩ | ⟨hmiss, hmore, hcnt, hv⟩ := hv
  · exact .inl ⟨_, ⟨ms, (c, st), rfl, hms, hhit, by omega⟩, v, hv⟩
  · exact .inr ⟨_, v, hv, hcode⟩
  · refine Reached.polling hl ho (ms ++ [(c, st)]) ?_ (by omega) (.inr ⟨rfl, by rw [hcnt, hlen]⟩) hv
    exact List.forall_mem_append.2 ⟨hms, by simpa using hmiss⟩
termination_by s.par.tPoll - ms.length
decreasing_by omega

/-- A poll: it succeeds, or it ends the command with its code. -/
theorem Reaches.poll (h : Reaches prog s i evs) (hl : s.par.legal = true) (ho : prog[i]? = some (.poll e code)) :
    (∃ its, PollSucceeds s.par e its ∧ Reaches prog s (i + 1) (evs ++ pollEvents s.busL its)) ∨
      ∃ its, EndsWith prog s code (evs ++ pollEvents s.busL its) := by
  obtain ⟨hT, -⟩ := legal_bounds hl
  obtain ⟨t, h⟩ := h
  exact Reached.polling hl ho [] (by simp) hT (.inl ⟨rfl, rfl⟩) (by simpa [pollEvents] using h)

end

/-! ### The phases of a transaction (R107 to R113) -/

section
variable {prog : List MicroOp} {a : State} {i : Nat} {evs : List Event}

theorem Reaches.rmw (h : Reaches prog a i evs) {k : Kind} {u : Update} {value : Byte → Byte}
    (hv : ∀ (x : State) (c : Byte), x.par = a.par → x.tmp = c → rmwValue u x = value c)
    (ho : prog[i]? = some (.rmw .operand k u)) :
    ∃ c, Reaches prog a (i + 1) (evs ++ [.read a.busL k c, .write a.busL k (value c)]) := by
  obtain ⟨t, h⟩ := h
  obtain ⟨c, t', h', -⟩ := h.rmw hv ho
  exact ⟨c, t', h'⟩

theorem Reaches.startUpdate (h : Reaches prog a i evs) (ho : prog[i]? = some (.rmw .operand .ctrl .start)) :
    ∃ c, Reaches prog a (i + 1) (evs ++ startEvents a.par a.busL c) :=
  h.rmw (fun _ _ => rmwValue_start) ho

theorem Reaches.nackUpdate (h : Reaches prog a i evs) (ho : prog[i]? = some (.rmw .operand .ctrl .nack)) :
    ∃ c, Reaches prog a (i + 1) (evs ++ nackEvents a.par a.busL c) :=
  h.rmw (fun _ _ => rmwValue_nack) ho

theorem Reaches.stopUpdate (h : Reaches prog a i evs) (ho : prog[i]? = some (.rmw .operand .ctrl .stop)) :
    ∃ c, Reaches prog a (i + 1) (evs ++ stopEvents a.par a.busL c) :=
  h.rmw (fun _ _ => rmwValue_stop) ho

theorem Reaches.addressWrites (h : Reaches prog a i evs) (read : Bool)
    (h1 : prog[i]? = some (.wr .operand .data (.address read)))
    (h2 : prog[i + 1]? = some (.rmw .operand .ctrl .address)) :
    ∃ c, Reaches prog a (i + 2) (evs ++ addressEvents a.par a.busL a.devL (BitVec.ofBool read) c) := by
  have hvalue (x : State) (hx : SameLatches a x) :
      (WrVal.address read).value x = a.devL.extractLsb' 0 7 ++ BitVec.ofBool read := by
    obtain ⟨-, -, hdev, -⟩ := hx
    rw [WrVal.value, hdev, addressByte_eq_append]
  obtain ⟨c, h⟩ := (h.wr hvalue h1).rmw (fun _ _ => rmwValue_address) h2
  exact ⟨c, by simpa [addressEvents] using h⟩

theorem Reaches.byteWrites (h : Reaches prog a i evs) {w : WrVal} {v : Byte}
    (hw : ∀ x, SameLatches a x → w.value x = v) (h1 : prog[i]? = some (.wr .operand .data w))
    (h2 : prog[i + 1]? = some (.rmw .operand .ctrl .clearDone)) :
    ∃ c, Reaches prog a (i + 2) (evs ++ byteEvents a.par a.busL v c) := by
  obtain ⟨c, h⟩ := (h.wr hw h1).rmw (fun _ _ => rmwValue_clearDone) h2
  exact ⟨c, by simpa [byteEvents] using h⟩

end

/-! ### Reads of the data register (R112) -/

/-- The reads of data registers among some events. -/
def dataReads (evs : List Event) : List Event := evs.filter fun ev => !ev.isWrite && ev.kind == .data

@[simp] theorem dataReads_append (evs evs' : List Event) :
    dataReads (evs ++ evs') = dataReads evs ++ dataReads evs' := List.filter_append ..

@[simp] theorem dataReads_cons_read (bus v : BitVec 8) (evs : List Event) :
    dataReads (.read bus .data v :: evs) = .read bus .data v :: dataReads evs := rfl

@[simp] theorem dataReads_pollEvents (bus : BitVec 8) (its : List (Byte × Byte)) :
    dataReads (pollEvents bus its) = [] := by
  induction its with
  | nil => rfl
  | cons it its ih => exact ih

@[simp] theorem dataReads_startEvents (p : Config.Params) (bus c : BitVec 8) :
    dataReads (startEvents p bus c) = [] := rfl
@[simp] theorem dataReads_addressEvents (p : Config.Params) (bus dev c : BitVec 8) (d : BitVec 1) :
    dataReads (addressEvents p bus dev d c) = [] := rfl
@[simp] theorem dataReads_byteEvents (p : Config.Params) (bus v c : BitVec 8) :
    dataReads (byteEvents p bus v c) = [] := rfl
@[simp] theorem dataReads_nackEvents (p : Config.Params) (bus c : BitVec 8) :
    dataReads (nackEvents p bus c) = [] := rfl
@[simp] theorem dataReads_stopEvents (p : Config.Params) (bus c : BitVec 8) :
    dataReads (stopEvents p bus c) = [] := rfl
@[simp] theorem dataReads_openingEvents (p : Config.Params) (bus dev reg c1 c2 c3 : BitVec 8)
    (its1 its2 : List (Byte × Byte)) : dataReads (openingEvents p bus dev reg c1 c2 c3 its1 its2) = [] := by
  simp [openingEvents]

/-- A command that ends in failure, the data register not read. -/
def Fails (prog : List MicroOp) (a : State) : Prop :=
  ∃ code evs, code ≠ codeSuccess ∧ dataReads evs = [] ∧ EndsWith prog a code evs

theorem Reaches.pollOrFail {prog : List MicroOp} {a : State} {i : Nat} {evs : List Event} {e : Expect} {code : Byte}
    (h : Reaches prog a i evs) (hl : a.par.legal = true) (ho : prog[i]? = some (.poll e code))
    (hcode : code ≠ codeSuccess) (hreads : dataReads evs = []) :
    (∃ its, PollSucceeds a.par e its ∧ Reaches prog a (i + 1) (evs ++ pollEvents a.busL its)) ∨ Fails prog a :=
  (h.poll hl ho).imp_right fun ⟨_, hout⟩ => ⟨code, _, hcode, by simp [hreads], hout⟩

theorem Fails.of_exec {i : Instr} {s t : State} (h : Fails (programFor i) (accept (encode i) s))
    (hl : s.par.legal = true) (hs : s.upc = .idle) (hexec : exec i s = .next t) :
    t.rspCode ≠ codeSuccess ∧ dataReads (newEvents s t) = [] := by
  obtain ⟨code, evs, hne, hreads, t', ht', rfl⟩ := h
  obtain rfl := ht'.eq_of_exec hl hs hexec
  exact ⟨hne, by rw [newEvents_of_trace (s := s) ht'.trace, hreads]⟩

/-! ### The commands -/

section
variable {p : Config.Params} {bus dev reg : BitVec 8} {a : State} {ops : List MicroOp}

/-- The opening of a transaction was made, each of its polls ending on its first hit. -/
def Opened (p : Config.Params) (bus dev reg : BitVec 8) (evs : List Event) : Prop :=
  ∃ c1 c2 c3 its1 its2 its3, PollSucceeds p .start its1 ∧ PollSucceeds p .slaWAck its2 ∧
    PollSucceeds p .dataTxAck its3 ∧ evs = openingEvents p bus dev reg c1 c2 c3 its1 its2 ++ pollEvents bus its3

theorem Opened.dataReads {evs : List Event} (h : Opened p bus dev reg evs) : dataReads evs = [] := by
  obtain ⟨c1, c2, c3, its1, its2, its3, -, -, -, rfl⟩ := h
  simp

theorem Accepted.opens (ha : Accepted p bus dev reg a) :
    (∃ evs, Opened p bus dev reg evs ∧ Reaches (opening ++ ops) a 9 evs) ∨ Fails (opening ++ ops) a := by
  obtain ⟨hu, hd, hl, rfl, rfl, rfl, rfl⟩ := ha
  obtain hchk | hout := (Reached.start (prog := opening ++ ops) hu hd).chk rfl
  case inr => exact .inr ⟨_, _, by decide, rfl, hout⟩
  obtain ⟨c1, hstart⟩ := hchk.startUpdate rfl
  obtain ⟨its1, h1, hstarted⟩ | hfails := hstart.pollOrFail hl rfl (by decide) (by simp)
  case inr => exact .inr hfails
  obtain ⟨c2, haddress⟩ := hstarted.addressWrites false rfl rfl
  obtain ⟨its2, h2, haddressed⟩ | hfails := haddress.pollOrFail hl rfl (by decide) (by simp)
  case inr => exact .inr hfails
  obtain ⟨c3, hregister⟩ := haddressed.byteWrites (fun _ => WrVal.value_reg) rfl rfl
  obtain ⟨its3, h3, hselected⟩ | hfails := hregister.pollOrFail hl rfl (by decide) (by simp)
  case inr => exact .inr hfails
  exact .inl ⟨_, ⟨c1, c2, c3, its1, its2, its3, h1, h2, h3, rfl⟩, hselected⟩

/-- S9 to S13 of `SENDBYTE` (R114). -/
theorem Accepted.sendByte {data : BitVec 8} (ha : Accepted p bus dev reg a) (hdat : a.datL = data) :
    (∃ evs c4 c5 its4 t, Opened p bus dev reg evs ∧ PollSucceeds p .dataTxAck its4 ∧ Reached sendByteProgram a .idle
      (evs ++ byteEvents p bus data c4 ++ pollEvents bus its4 ++ stopEvents p bus c5) t) ∨ Fails sendByteProgram a := by
  obtain ⟨evs, hopen, hopened⟩ | hfails := ha.opens
  case inr => exact .inr hfails
  have hreads := hopen.dataReads
  obtain ⟨-, -, hl, rfl, rfl, rfl, rfl⟩ := ha
  subst hdat
  obtain ⟨c4, hpayload⟩ := hopened.byteWrites (fun _ => WrVal.value_dat) rfl rfl
  obtain ⟨its4, h4, hsent⟩ | hfails := hpayload.pollOrFail hl rfl (by decide) (by simp [hreads])
  case inr => exact .inr hfails
  obtain ⟨c5, t, hstop⟩ := hsent.stopUpdate rfl
  exact .inl ⟨evs, c4, c5, its4, _, hopen, h4, hstop.respond (op := .ret codeSuccess) rfl rfl rfl rfl⟩

/-- `RECEIVEBYTE` made these events, and read the byte `v`. -/
def Received (p : Config.Params) (bus dev reg v : BitVec 8) (evs : List Event) : Prop :=
  ∃ opened c4 c5 c6 c7 its4 its5 its6, Opened p bus dev reg opened ∧ PollSucceeds p .start its4 ∧
    PollSucceeds p .slaRAck its5 ∧ PollSucceeds p .dataRxNack its6 ∧
    evs = opened ++ startEvents p bus c4 ++ pollEvents bus its4 ++ addressEvents p bus dev 1#1 c5 ++
      pollEvents bus its5 ++ nackEvents p bus c6 ++ pollEvents bus its6 ++ [.read bus .data v] ++ stopEvents p bus c7

theorem Received.dataReads {v : BitVec 8} {evs : List Event} (h : Received p bus dev reg v evs) :
    dataReads evs = [.read bus .data v] := by
  obtain ⟨opened, c4, c5, c6, c7, its4, its5, its6, hopen, -, -, -, rfl⟩ := h
  simp [hopen.dataReads]

/-- V9 to V17 of `RECEIVEBYTE` (R115): the byte read is held across the Stop phase. -/
theorem Accepted.receiveByte (ha : Accepted p bus dev reg a) :
    (∃ evs t, Reached receiveByteProgram a .idle evs t ∧ Received p bus dev reg t.rspData evs ∧
      t.rspCode = codeSuccess) ∨ Fails receiveByteProgram a := by
  obtain ⟨opened, hopen, hopened⟩ | hfails := ha.opens
  case inr => exact .inr hfails
  have hreads := hopen.dataReads
  obtain ⟨-, -, hl, rfl, rfl, rfl, rfl⟩ := ha
  obtain ⟨c4, hstart⟩ := hopened.startUpdate rfl
  obtain ⟨its4, h4, hstarted⟩ | hfails := hstart.pollOrFail hl rfl (by decide) (by simp [hreads])
  case inr => exact .inr hfails
  obtain ⟨c5, haddress⟩ := hstarted.addressWrites true rfl rfl
  obtain ⟨its5, h5, haddressed⟩ | hfails := haddress.pollOrFail hl rfl (by decide) (by simp [hreads])
  case inr => exact .inr hfails
  obtain ⟨c6, hnack⟩ := haddressed.nackUpdate rfl
  obtain ⟨its6, h6, u, hu⟩ | hfails := hnack.pollOrFail hl rfl (by decide) (by simp [hreads])
  case inr => exact .inr hfails
  obtain ⟨v, hv⟩ := hu.rd rfl
  obtain ⟨c7, w, hw, hheld⟩ := hv.rmw (fun _ _ => rmwValue_stop) rfl
  refine .inl ⟨_, _, hw.respond (op := .retData codeSuccess) rfl rfl rfl rfl,
    ⟨opened, c4, c5, c6, c7, its4, its5, its6, hopen, h4, h5, h6, ?_⟩, rfl⟩
  rw [← hheld]
  rfl

end

/-- Settles O34: a command that does not fail came through all its polls. -/
theorem sendByteSuccessMadeTheExactWrites : Obligations.SendByteSuccessMadeTheExactWrites := by
  intro bus dev reg data s t hl hs hd hexec hcode
  obtain ⟨ha, hdat⟩ := accepted_sendByte hl hd bus dev reg data
  obtain ⟨evs, c4, c5, its4, t', hopen, h4, ht'⟩ | hfails := ha.sendByte hdat
  · obtain rfl := Reached.eq_of_exec (i := .sendByte bus dev reg data) hl hs hexec ht'
    obtain ⟨c1, c2, c3, its1, its2, its3, h1, h2, h3, rfl⟩ := hopen
    exact ⟨c1, c2, c3, c4, c5, its1, its2, its3, its4, h1, h2, h3, h4, ht'.trace⟩
  · obtain ⟨hne, -⟩ := Fails.of_exec (i := .sendByte bus dev reg data) hfails hl hs hexec
    exact absurd hcode hne

/-- `RECEIVEBYTE` either answers the byte it read, or fails without reading one. -/
theorem exec_receiveByte {bus dev reg : BitVec 8} {s t : State} (hl : s.par.legal = true) (hs : s.upc = .idle)
    (hd : s.Undisturbed) (hexec : exec (.receiveByte bus dev reg) s = .next t) :
    (t.rspCode = codeSuccess ∧ Received s.par bus dev reg t.rspData (newEvents s t) ∧
      t.trace = s.trace ++ newEvents s t) ∨
    (t.rspCode ≠ codeSuccess ∧ dataReads (newEvents s t) = []) := by
  obtain ⟨evs, t', ht', hreceived, hcode⟩ | hfails := (accepted_receiveByte hl hd bus dev reg).receiveByte
  · obtain rfl := Reached.eq_of_exec (i := .receiveByte bus dev reg) hl hs hexec ht'
    have htr : t.trace = s.trace ++ evs := ht'.trace
    rw [newEvents_of_trace htr]
    exact .inl ⟨hcode, hreceived, htr⟩
  · exact .inr (Fails.of_exec (i := .receiveByte bus dev reg) hfails hl hs hexec)

/-- Settles O54: a command that does not fail came through all its polls. -/
theorem receiveByteSuccessMadeTheExactEvents : Obligations.ReceiveByteSuccessMadeTheExactEvents := by
  intro bus dev reg s t hl hs hd hexec hcode
  obtain ⟨-, hreceived, htr⟩ | ⟨hne, -⟩ := exec_receiveByte hl hs hd hexec
  · obtain ⟨opened, c4, c5, c6, c7, its4, its5, its6, hopen, h4, h5, h6, hevs⟩ := hreceived
    obtain ⟨c1, c2, c3, its1, its2, its3, h1, h2, h3, rfl⟩ := hopen
    refine ⟨c1, c2, c3, c4, c5, c6, c7, its1, its2, its3, its4, its5, its6, h1, h2, h3, h4, h5, h6, ?_⟩
    rw [htr, hevs]
    rfl
  · exact absurd hcode hne

/-- Settles O35: the events of a success have one data read, those up to a poll that runs out have none. -/
theorem receiveByteReadsDataOnce : Obligations.ReceiveByteReadsDataOnce := by
  intro bus dev reg s t hl hs hd hexec
  obtain ⟨hcode, hreceived, -⟩ | ⟨hne, hreads⟩ := exec_receiveByte hl hs hd hexec
  · exact hreceived.dataReads.trans (if_pos hcode).symm
  · exact hreads.trans (if_neg hne).symm

/-! ### `RECEIVEBYTE` against a script that answers every poll -/

/-- Settles O32: the script brings the command to its response, and the byte answered is that of the one data read. -/
theorem receiveByteSucceeds : Obligations.ReceiveByteSucceeds := by
  intro bus dev reg c1 c2 c3 c4 c5 c6 c7 v its1 its2 its3 its4 its5 its6 rest s hl hs hd hb h1 h2 h3 h4 h5 h6 evs henv
  have ha := accepted_receiveByte hl hd bus dev reg
  have hstop : Arrives receiveByteProgram _ 18 evs :=
    (((ha.nackUpdate hb h1 h2 h3 h4 h5).poll ha hb rfl h6).rd ha hb rfl v).stopUpdate ha hb rfl c7
  have hends : Ends receiveByteProgram _ (fun t => t.AnsweredWith 0x01#8 t.rspData) evs :=
    hstop.respond (op := .retData codeSuccess) rfl (fun _ => ⟨rfl, rfl, rfl, rfl, rfl⟩) fun _ => ⟨rfl, rfl, rfl⟩
  obtain ⟨t, hexec, hans, htr, hrest⟩ :=
    hends.exec (i := .receiveByte bus dev reg) (fun _ h => h.1) hl hs henv
  have hreads := receiveByteReadsDataOnce bus dev reg s t hl hs hd hexec
  obtain ⟨hidle, hvalid, hcode, hdv, -⟩ := hans
  have hmade : Received s.par bus dev reg v evs :=
    ⟨_, c4, c5, c6, c7, its4, its5, its6, ⟨c1, c2, c3, its1, its2, its3, h1, h2, h3, rfl⟩, h4, h5, h6, rfl⟩
  rw [if_pos hcode, newEvents_of_trace htr] at hreads
  have hbyte : t.rspData = v := by simpa using hreads.symm.trans hmade.dataReads
  exact ⟨t, hexec, ⟨hidle, hvalid, hcode, hdv, hbyte⟩, htr, hrest⟩

end Sys2Proof.Machine
end

section
/-! PROOFS. `INIT` (42_init.md): the null table, the passes over entries that do not fail, and the two ways to leave the
loop, in any environment that asserts no reset. -/

namespace Sys2Proof.Machine

/-- Settles O37: with `cfgp = 0` the head of `INIT` ends the command. -/
theorem initWithoutTable : Obligations.InitWithoutTable := by
  intro s hs hd
  have ha : (accept (encode (.init 0#1)) s).Undisturbed := hd.of_eq rfl
  have htick : tick initProgram (accept (encode (.init 0#1)) s) =
      respond codeNullConfig (sampled (accept (encode (.init 0#1)) s)) := by
    rw [tick_at (i := 0) (sub := .first) rfl (op := .initStart) rfl ha.resetNow]
    have hnull : (sampled (accept (encode (.init 0#1)) s)).cfgpL = 0#1 := encode_init_field 0#1
    rw [MicroOp.run, if_pos hnull, raiseAbort_eq]
  have hexec := exec_of_goes (i := .init 0#1) hs (Goes.one htick) rfl (by decide)
  exact ⟨_, hexec, ⟨rfl, rfl, rfl, rfl⟩, ⟨rfl, rfl, rfl⟩, rfl, rfl⟩

/-! ### The entries before the loop is left -/

/-- The events of `INIT` over the entries `es`, whose status and control registers answered `xs`. -/
def entriesEvents (p : Config.Params) (es : List Config.CfgEntry) (xs : List (Byte × Byte)) : List Event :=
  (es.zip xs).flatMap fun ex => entryEvents p ex.1 ex.2

theorem length_entriesEvents {p : Config.Params} {es : List Config.CfgEntry} {xs : List (Byte × Byte)}
    (hlen : xs.length = es.length) (hfound : ∀ e ∈ es, ∃ br ps, sclCompute p e.bus e.freq = .found br ps) :
    (entriesEvents p es xs).length = 5 * es.length := by
  have hfive : ∀ ex ∈ es.zip xs, (entryEvents p ex.1 ex.2).length = 5 := by
    intro ex hex
    obtain ⟨br, ps, hc⟩ := hfound ex.1 (List.of_mem_zip hex).1
    simp [entryEvents, hc]
  rw [entriesEvents, List.length_flatMap, List.map_congr_left hfive, List.map_const', List.sum_replicate,
    List.length_zip, hlen, Nat.min_self, smul_eq_mul, Nat.mul_comm]

/-- `INIT` with a table comes to its loop's test past any entries at the table's head that do not fail. -/
theorem init_comes_past {s : State} (hl : s.par.legal = true) (hd : s.Undisturbed) {es rest : List Config.CfgEntry}
    (hcfg : s.par.cfg = es ++ rest) (hfound : ∀ e ∈ es, ∃ br ps, sclCompute s.par e.bus e.freq = .found br ps) :
    ∃ xs n t, xs.length = es.length ∧ Goes initProgram n (accept (encode (.init 1#1)) s) t ∧
      AtLoop s es.length (entriesEvents s.par es xs) t := by
  have hentry : ∀ j, (h : j < es.length) → s.par.cfg[0 + j]? = some es[j] := fun j h => by
    rw [Nat.zero_add, hcfg, List.getElem?_append_left h, List.getElem?_eq_getElem h]
  obtain ⟨xs, hlen, hloop⟩ := AtLoop.passes hl es 0 _ _ (AtLoop.start s hd) hentry hfound
  rw [Nat.zero_add] at hloop
  exact ⟨xs, _, _, hlen, (Goes.one rfl).trans ⟨_, le_refl _, rfl⟩, hloop⟩

/-! ### Leaving the loop (R144, R145) -/

section
variable {s t : State} {k : Nat} {evs : List Event}

/-- Past the last entry the loop's test answers success. -/
theorem AtLoop.tick_past (h : AtLoop s k evs t) (hk : s.par.nBus ≤ k) :
    tick initProgram t = respond codeSuccess (sampled t) := by
  rw [tick_at h.upc (op := .initLoop) rfl h.und.resetNow]
  exact if_neg (by rw [sampled_idx, sampled_par, h.idx, h.par]; omega)

/-- At an entry the loop's test goes on to the configurator. -/
theorem AtLoop.tick_entry (h : AtLoop s k evs t) (hk : k < s.par.nBus) :
    tick initProgram t = advance 1 (sampled t) := by
  rw [tick_at h.upc (op := .initLoop) rfl h.und.resetNow]
  exact if_pos (by rw [sampled_idx, sampled_par, h.idx, h.par]; exact hk)

theorem Source.bus_entry {e : Config.CfgEntry} (h : cfgRead s = some e) : Source.bus .entry s = e.bus := by
  rw [Source.bus, h]

theorem Source.freq_entry {e : Config.CfgEntry} (h : cfgRead s = some e) : Source.freq .entry s = e.freq := by
  rw [Source.freq, h]

/-- The configurator's failure for an entry ends `INIT` with the failing index. -/
theorem MicroOp.run_setScl_entry_fail {e : Config.CfgEntry} {code : Byte} (i : Nat) (sub : Sub)
    (he : cfgRead s = some e) (hc : sclCompute s.par e.bus e.freq = .fail code) :
    (MicroOp.setScl .entry).run i sub s = respondData code (s.idx.truncate 8) s := by
  simp only [MicroOp.run, Source.bus_entry he, Source.freq_entry he, hc, raiseAbortAt_eq]

/-- A failing entry: the loop's test, then the failure's answer with its index, and no event. -/
theorem AtLoop.entry_fails (h : AtLoop s k evs t) (hl : s.par.legal = true) {e : Config.CfgEntry} {code : Byte}
    (he : s.par.cfg[k]? = some e) (hc : sclCompute s.par e.bus e.freq = .fail code) :
    ∃ t', Goes initProgram 2 t t' ∧ t'.AnsweredWith code (BitVec.ofNat 8 k) ∧ SamePlatform s t' ∧
      t'.trace = s.trace ++ evs := by
  obtain ⟨-, -, -, -, hlen⟩ := legal_bounds hl
  obtain ⟨hk, -⟩ := List.getElem?_eq_some_iff.1 he
  have htest := h.tick_entry (hlen ▸ hk)
  have hu : (advance 1 (sampled t)).Undisturbed := h.und.sampled.of_eq rfl
  have hread : cfgRead (sampled (advance 1 (sampled t))) = some e := by
    simp [cfgRead, h.idx, h.par, he]
  have hfail : tick initProgram (advance 1 (sampled t)) =
      respondData code (t.idx.truncate 8) (sampled (advance 1 (sampled t))) := by
    rw [tick_at (i := 2) (sub := .first) rfl (op := .setScl .entry) rfl hu.resetNow]
    exact MicroOp.run_setScl_entry_fail _ _ hread (by simpa [h.par] using hc)
  have hidx : t.idx.truncate 8 = BitVec.ofNat 8 k :=
    BitVec.eq_of_toNat_eq (by rw [BitVec.toNat_setWidth, h.idx, BitVec.toNat_ofNat])
  exact ⟨_, (Goes.one htest).trans (Goes.one hfail), ⟨rfl, rfl, rfl, rfl, hidx⟩, ⟨h.par, h.host⟩, h.trace⟩

end

/-- Settles O38: the passes take in the whole table, and the loop's test then answers. -/
theorem initConfiguresEveryEntry : Obligations.InitConfiguresEveryEntry := by
  intro s hl hs hd hfound
  obtain ⟨-, -, -, -, hcfg⟩ := legal_bounds hl
  obtain ⟨xs, n, t, hlen, hgo, hloop⟩ := init_comes_past hl hd (List.append_nil _).symm hfound
  have hend := hgo.trans (Goes.one (hloop.tick_past hcfg.ge))
  have htrace : (respond codeSuccess (sampled t)).trace = s.trace ++ entriesEvents s.par s.par.cfg xs := hloop.trace
  refine ⟨_, xs, exec_of_goes_idle (i := .init 1#1) hl hs hend rfl, ⟨rfl, rfl, rfl, rfl⟩, ⟨hloop.par, hloop.host⟩,
    hlen.trans hcfg, htrace, ?_⟩
  rw [newEvents, htrace, List.drop_left, length_entriesEvents hlen hfound, hcfg]

/-- Settles O39: the passes take in the entries before the failing one, and its failure ends the command. -/
theorem initAbandonsAtTheFirstFailure : Obligations.InitAbandonsAtTheFirstFailure := by
  intro before after e code s hl hs hd hcfg hfound hfail
  obtain ⟨xs, n, t, hlen, hgo, hloop⟩ := init_comes_past hl hd hcfg hfound
  have hentry : s.par.cfg[before.length]? = some e := by simp [hcfg]
  obtain ⟨t', hgo', hans, hsame, htrace⟩ := hloop.entry_fails hl hentry hfail
  exact ⟨t', xs, exec_of_goes_idle (i := .init 1#1) hl hs (hgo.trans hgo') hans.1, hans, hsame, hlen, htrace⟩

end Sys2Proof.Machine
end

section
/-! PROOFS. How a command ends and a step answers (60_exceptions.md): the codes of each command's response (R150), the
frame of `SETSCL` with a failed one leaving the device alone (R153), and that no step stops (R157). -/

namespace Sys2Proof.Machine

/-! ### Responses (R150, R70) -/

/-- An undisturbed command comes back to idle with one of its micro-program's responses. -/
theorem exec_answers {i : Instr} {s t : State} (hl : s.par.legal = true) (hs : s.upc = .idle) (hd : s.Undisturbed)
    (h : exec i s = .next t) :
    t.upc = .idle ∧ t.rspValid = true ∧ (t.rspCode, t.rspDv) ∈ (programFor i).flatMap MicroOp.answers := by
  rw [exec_idle i hs] at h
  obtain rfl := Host.Outcome.next.inj h
  have hidle := exec_returns (i := i) hl
  obtain ⟨hvalid, op, hop, hans⟩ :=
    run_answers (prog := programFor i) (commandBound s.par) (accept (encode i) s) (hd.of_eq rfl) (by simp) hidle
  exact ⟨hidle, hvalid, List.mem_flatMap.2 ⟨op, hop, hans⟩⟩

/-! Each command's row of the code table: the micro-program's responses in its order, and what they have in common. -/

theorem initProgram_answers : ∀ r ∈ initProgram.flatMap MicroOp.answers,
    r.1 ∈ [0x00#8, 0x01#8, 0x10#8, 0x11#8, 0x12#8] ∧ (r.2 = true ↔ r.1 ∈ [0x00#8, 0x10#8, 0x11#8]) := by
  have h : initProgram.flatMap MicroOp.answers =
      [(0x12#8, false), (0x01#8, false), (0x00#8, true), (0x10#8, true), (0x11#8, true)] := rfl
  simp [h]

theorem setSclProgram_answers : ∀ r ∈ setSclProgram.flatMap MicroOp.answers,
    r.1 ∈ [0x00#8, 0x01#8, 0x10#8, 0x11#8] ∧ r.2 = false := by
  have h : setSclProgram.flatMap MicroOp.answers =
      [(0x00#8, false), (0x10#8, false), (0x11#8, false), (0x01#8, false)] := rfl
  simp [h]

theorem sendByteProgram_answers : ∀ r ∈ sendByteProgram.flatMap MicroOp.answers,
    r.1 ∈ [0x00#8, 0x01#8, 0x02#8, 0x03#8, 0x04#8] ∧ r.2 = false := by
  have h : sendByteProgram.flatMap MicroOp.answers =
      [(0x00#8, false), (0x02#8, false), (0x03#8, false), (0x04#8, false), (0x04#8, false), (0x01#8, false)] := rfl
  simp [h]

theorem receiveByteProgram_answers : ∀ r ∈ receiveByteProgram.flatMap MicroOp.answers,
    r.1 ∈ [0x00#8, 0x01#8, 0x02#8, 0x03#8, 0x04#8, 0x05#8] ∧ (r.2 = true ↔ r.1 = 0x01#8) := by
  have h : receiveByteProgram.flatMap MicroOp.answers =
      [(0x00#8, false), (0x02#8, false), (0x03#8, false), (0x04#8, false), (0x02#8, false), (0x03#8, false),
        (0x05#8, false), (0x01#8, true)] := rfl
  simp [h]

/-- Settles O14: the response is one of the micro-program's, and those are the row's. -/
theorem responseCodesAreTheListedOnes : Obligations.ResponseCodesAreTheListedOnes := by
  intro i s t hl hs hd h
  obtain ⟨hidle, hvalid, hans⟩ := exec_answers hl hs hd h
  refine ⟨hidle, hvalid, ?_⟩
  cases i with
  | init cfgp => exact initProgram_answers _ hans
  | setScl bus freq => exact setSclProgram_answers _ hans
  | sendByte bus dev reg data => exact sendByteProgram_answers _ hans
  | receiveByte bus dev reg => exact receiveByteProgram_answers _ hans

/-! ### The frame of `SETSCL` (R153) -/

/-- The checks fail: the first micro-operation answers. -/
theorem tick_setScl_fail {a : State} {code : Byte} (hu : a.upc = .pos 0 .first) (hd : a.Undisturbed)
    (hc : sclCompute a.par a.busL a.freqL = .fail code) : tick setSclProgram a = respond code (sampled a) := by
  rw [tick_at hu (op := .setScl .operand) rfl hd.resetNow]
  simp only [MicroOp.run, Source.bus, Source.freq, sampled_par, sampled_busL, sampled_freqL, hc, raiseAbort_eq]

/-- A failed `SETSCL` is its acceptance and its answer, and nothing between them. -/
theorem exec_setScl_fail_eq {bus : BitVec 8} {freq : BitVec 32} {code : Byte} {s : State} (hs : s.upc = .idle)
    (hd : s.Undisturbed) (hc : sclCompute s.par bus freq = .fail code) :
    exec (.setScl bus freq) s = .next (respond code (sampled (accept (encode (.setScl bus freq)) s))) :=
  exec_of_goes hs (Goes.one (tick_setScl_fail rfl (hd.of_eq rfl) ((sclCompute_accept bus freq s).trans hc))) rfl
    (by decide)

/-- An answer other than success comes from the checks, before any event and before the search's result is latched. -/
theorem exec_setScl_no_success {bus : BitVec 8} {freq : BitVec 32} {s t : State} (hs : s.upc = .idle)
    (hd : s.Undisturbed) (h : exec (.setScl bus freq) s = .next t) (hcode : t.rspCode ≠ 0x01#8) :
    NoEvent s t ∧ t.tmp = s.tmp ∧ t.psL = s.psL ∧ t.brL = s.brL := by
  cases hc : sclCompute s.par bus freq with
  | fail code =>
    rw [exec_setScl_fail_eq hs hd hc] at h
    obtain rfl := Host.Outcome.next.inj h
    exact ⟨⟨rfl, rfl, rfl⟩, rfl, rfl, rfl⟩
  | found br ps =>
    obtain ⟨t', -, ht', ⟨-, -, hsuccess, -⟩, -⟩ := exec_setScl_found hs hd hc
    obtain rfl := Host.Outcome.next.inj (ht'.symm.trans h)
    exact absurd hsuccess hcode

theorem setSclProgram_within : ∀ op ∈ setSclProgram, op.Within .operand [.br, .stat] [.br, .stat] := by
  unfold MicroOp.Within; decide

theorem setSclProgram_no_poll (e : Expect) (c : Byte) : .poll e c ∉ setSclProgram := by
  simp [setSclProgram, setSclOps]

theorem tick_busL (prog : List MicroOp) {s : State} (hd : s.Undisturbed) : (tick prog s).busL = s.busL := by
  obtain ⟨⟨-, hbus, -⟩, -⟩ := tick_effect prog s hd.resetNow
  exact hbus

/-- Settles O20: the micro-program accesses no other register, and a failure is answered before any access. -/
theorem setSclFrame : Obligations.SetSclFrame := by
  intro bus freq s t hs hd h
  obtain ⟨hbus, -⟩ := encode_setScl_fields bus freq
  have hevent : ∀ (a : State) (ev : Event) (j : Nat) (sub : Sub) (op : MicroOp), a.busL = bus →
      a.upc = .pos j sub → setSclProgram[j]? = some op → op.Emits a ev →
      ev.bus = bus ∧ (ev.kind = .br ∨ ev.kind = .stat) := by
    intro a ev j sub op hb _ ho hev
    obtain ⟨-, hevbus, htouched, -⟩ := hev.within (setSclProgram_within op (List.mem_of_getElem? ho))
    exact ⟨hevbus.trans hb, by simpa using htouched⟩
  obtain ⟨hplat, hevs, hdev⟩ :=
    exec_history (P := fun a => a.busL = bus) hs hd h hbus (fun a hu hb => (tick_busL _ hu).trans hb) hevent
  obtain ⟨hpoll, hidx, -⟩ := exec_frame hs hd h
  obtain ⟨hcnt, hdone⟩ := hpoll setSclProgram_no_poll
  have hstart : .initStart ∉ setSclProgram := by decide
  have hnext : .initNext ∉ setSclProgram := by decide
  exact ⟨hplat, hcnt, hdone, hidx hstart hnext, hevs, exec_setScl_no_success hs hd h, hdev⟩

/-! ### A step always answers (R157) -/

/-- Settles O46: in a state that meets the invariant a step runs a command on, or ends at an idle sequencer. -/
theorem stepNeverStops : Obligations.StepNeverStops := by
  intro s hi
  rcases step_cases s hi with ⟨a, -, -, -, -, hs⟩ | ⟨t, hs, -⟩
  · exact ⟨_, hs⟩
  · exact ⟨t, hs⟩

/-- Settles O12: the step of a waiting sequencer is the same state (`step_waiting`). -/
theorem idleSequencerWaits : Obligations.IdleSequencerWaits := fun _ => step_waiting

end Sys2Proof.Machine
end

section
/-! PROOFS. Reset, hazards and liveness (70_reset_and_hazards.md): what reset does to an idle sequencer and to a command
in flight (R170 to R173), that a torn poll iteration does not succeed (R179), and the bounds on events (R185). -/

namespace Sys2Proof.Machine

/-! ### Reset during a command (R172) -/

/-- A command that ends in a tick without reset ends with a response. -/
theorem tick_answers {prog : List MicroOp} {s : State} (hu : s.upc ≠ .idle) (hr : s.resetNow = false)
    (hidle : (tick prog s).upc = .idle) : (tick prog s).rspValid = true := by
  rcases tick_cases prog s with h | h | ⟨hr', -⟩ | ⟨i, sub, op, -, -, -, h⟩
  · exact absurd (h ▸ hidle) hu
  · rw [h, sampled_upc] at hidle; exact absurd hidle hu
  · rw [hr] at hr'; cases hr'
  · rw [h] at hidle ⊢; exact (op.run_answers i sub (sampled s) hidle).1

/-- As long as no value of the reset line asserts reset, a command either has ended with a response or looks at the next
value of the line where it stands. -/
theorem run_before_reset {prog : List MicroOp} {before later : List Bool} {s : State} (hu : s.upc ≠ .idle)
    (hline : s.resetLine = before ++ later) (hbefore : ∀ b ∈ before, b = false) :
    ((run prog before.length s).upc ≠ .idle → (run prog before.length s).resetLine = later) ∧
      ((run prog before.length s).upc = .idle → (run prog before.length s).rspValid = true) := by
  induction before generalizing s with
  | nil => exact ⟨fun _ => hline, fun hidle => absurd hidle hu⟩
  | cons b before ih =>
    obtain ⟨rfl, hrest⟩ := List.forall_mem_cons.1 hbefore
    rw [List.length_cons, run_succ]
    have hnow : s.resetNow = false := by simp [State.resetNow, hline]
    by_cases hidle : (tick prog s).upc = .idle
    · rw [run_idle _ _ _ hidle]
      exact ⟨fun hbusy => absurd hidle hbusy, fun _ => tick_answers hu hnow hidle⟩
    · have hline' : (tick prog s).resetLine = before ++ later := by
        rw [tick_resetLine prog hu, hline, List.cons_append, List.tail_cons]
      exact ih hidle hline' hrest

/-- Settles O43: the command in flight comes to the asserted value (`run_before_reset`), whose tick is the reset; a
command that has responded by then has ended (`exec_of_goes_idle`). -/
theorem resetAbandonsTheCommand : Obligations.ResetAbandonsTheCommand := by
  intro i before after s hl hs hline hbefore a m
  have hgo : Goes (programFor i) before.length a m := ⟨_, le_rfl, by rw [← programOf_accept i s]⟩
  have hstart : a.upc ≠ .idle := by simp [a]
  obtain ⟨hnext, hresponded⟩ := run_before_reset (prog := programOf a.opL) hstart hline hbefore
  refine ⟨fun hbusy => ?_, fun hidle => ⟨exec_of_goes_idle hl hs hgo hidle, hresponded hidle⟩⟩
  have hnow : m.resetNow = true := by simp [State.resetNow, m, hnext hbusy]
  have htick : tick (programFor i) m = resetInput (sampled m) := tick_reset hbusy hnow
  exact ⟨resetInput (sampled m), exec_of_goes_idle hl hs (htick ▸ hgo.tick) rfl, rfl, rfl, ⟨rfl, rfl, rfl⟩,
    ⟨run_par _ _ a, run_host _ _ a⟩, congrArg List.tail (hnext hbusy)⟩

/-! ### Every command's events (R185) -/

/-- A command comes back to idle, with no more events than its micro-program has left at acceptance. -/
theorem exec_events_le (i : Instr) {s : State} (hl : s.par.legal = true) (hs : s.upc = .idle) :
    ∃ t, exec i s = .next t ∧ t.upc = .idle ∧
      (newEvents s t).length ≤ (accept (encode i) s).left 0 (programFor i) := by
  obtain ⟨-, hevents, -⟩ :=
    run_left (programFor_wired i) (commandBound s.par) (accept (encode i) s) hl (accept_placed i s)
  refine ⟨_, exec_idle i hs, exec_returns hl, ?_⟩
  rw [accept_trace] at hevents
  rw [newEvents, List.length_drop]
  omega

/-- Settles O48: what a micro-program has left is what its micro-operations cost, one pass per bus for `INIT`. -/
theorem eventsAreBounded : Obligations.EventsAreBounded := by
  intro i s hl hs
  obtain ⟨t, hexec, hidle, hevents⟩ := exec_events_le i hl hs
  refine ⟨t, hexec, hidle, ?_⟩
  cases i with
  | init cfgp =>
    obtain ⟨-, -, hN, -⟩ := legal_bounds hl
    obtain ⟨hall, hpass⟩ := costs_init 0 s.par.tPoll
    have hle := hevents.trans (left_le_loop 0 (prog := initProgram) _ (by decide))
    rw [accept_par, hall, hpass] at hle
    dsimp only
    omega
  | setScl bus freq =>
    simpa [costs_setScl] using hevents.trans (left_le_linear 0 (prog := setSclProgram) _ (by decide))
  | sendByte bus dev reg data =>
    simpa [costs_sendByte] using hevents.trans (left_le_linear 0 (prog := sendByteProgram) _ (by decide))
  | receiveByte bus dev reg =>
    simpa [costs_receiveByte] using hevents.trans (left_le_linear 0 (prog := receiveByteProgram) _ (by decide))

/-! ### A torn poll iteration (R179) -/

/-- With the done flag read as clear, the status read ends the poll or leads to another iteration, whatever it
returns. -/
theorem pollStatus_of_not_done (e : Expect) (code : Byte) (i : Nat) {s : State} (hd : s.doneL = false) :
    pollStatus e code i s =
      if (s.cnt + 1#32).toNat = s.par.tPoll then respond code (statusRead s)
      else { statusRead s with upc := .pos i .again } := by
  rw [pollStatus_eq, if_neg (by simp [pollMatches, hd])]

/-- Settles O26: the tick is the status read of an iteration whose done flag is clear. -/
theorem tornPollDoesNotMatch : Obligations.TornPollDoesNotMatch := by
  intro prog i e code s ho hu hd hr
  have htick : tick prog s = pollStatus e code i (envMove (sampled s)) := tick_at hu ho hr
  rw [htick, pollStatus_of_not_done e code i (by simpa using hd), envMove_cnt, envMove_par, sampled_cnt, sampled_par]
  split
  · rename_i hceiling
    exact .inr ⟨hceiling, rfl, rfl, rfl, rfl⟩
  · exact .inl rfl

/-! ### Reset of an idle sequencer (R170, R171, R173) -/

/-- Settles O41: the three fields of the reset state. -/
theorem resetIsIdle : Obligations.ResetIsIdle := ⟨rfl, rfl, rfl⟩

/-- Settles O42: the step is `resetInput` (`step_reset`), which is no event. -/
theorem resetOfAnIdleSequencer : Obligations.ResetOfAnIdleSequencer :=
  fun _ _ hs hh => ⟨_, step_reset hs hh, rfl, rfl, ⟨rfl, rfl, rfl⟩, rfl, rfl⟩

end Sys2Proof.Machine
end

section
/-! PROOFS. The worked encodings (30_encoding.md section 9): a listed legal word is the encoder's word of the command
beside it, so the round trip reads that command back. -/

namespace Sys2Proof

/-- The encoder's word of a command decodes to that command. -/
theorem decode_of_encode_eq {w : Cmd} {i : Instr} (h : encode i = w) : decode w = .ok i := h ▸ decodeOfEncode i

/-- Settles O4: a legal word is checked against the encoder; an illegal one has a wrong `op`, a bit that its format
marks 0, or a wrong `rsv`, which the decoder answers by name. -/
theorem workedEncodingsDecode : Obligations.WorkedEncodingsDecode := by
  refine ⟨?init1, ?init0, ?setScl0, ?setScl1, ?send, ?receive0, ?receive200, ?op, ?reservedBit, ?rsv⟩
  case init1 | init0 | setScl0 | setScl1 | send | receive0 | receive200 => exact decode_of_encode_eq (by decide)
  case op | reservedBit | rsv => decide

end Sys2Proof
end
